-- ==== Sys2Proof/Word.lean ====
section
/-! DEFINITION. The words of the block: the byte, the 6-bit chip register address and the 16-bit transaction word. -/

namespace Sys2Proof

/-- A byte, 0..255, bit 0 least significant (00_scope.md R11). -/
abbrev Byte := BitVec 8

/-- The six address bits that reach the chip (20_memory.md R47). -/
abbrev RegAddr := BitVec 6

/-- One register transaction as a 16-bit word, `b1 << 8 | b2` (30_encoding.md R65). -/
abbrev TxnWord := BitVec 16

end Sys2Proof
end

