-- ==== Sys2Proof/Config.lean ====
section
/-! DEFINITION. What is fixed for one engine (the DeviceHandle and its configuration record, 10_state.md R18, 00_scope.md R8 and R9),
the events of the trace the oracle depends on (10_state.md R23), and the two free values: what a read returns and which transaction fails. -/

namespace Sys2Proof

/-- Direction of a transaction (30_encoding.md R65, field `R`). -/
inductive Direction
  | read
  | write
  deriving DecidableEq, Repr

/-- What a channel fault carries (60_exceptions.md R119). -/
inductive FaultInfo
  | channelFault (addr : RegAddr) (dir : Direction)
  deriving DecidableEq, Repr

/-- One event of the trace (10_state.md R23). -/
inductive Event
  /-- One transaction: the bytes sent, and on a read the byte the oracle returned. -/
  | xfer (dir : Direction) (addr : RegAddr) (b1 b2 : Byte) (r2 : Option Byte)
  /-- A host sleep (45_session.md R110). -/
  | sleep (ms : Nat)
  /-- The fault event, which replaces the transaction's (40_transport.md R76). -/
  | fault (info : FaultInfo)
  deriving DecidableEq, Repr

/-- The commands of the chip the source names (10_state.md R27). -/
inductive CommandKind
  | idle
  | authenticate
  | transceive
  | calculateCrc
  | reset
  deriving DecidableEq, Repr

/-- The chip register roles (00_scope.md R9, 10_state.md R29). -/
inductive Role
  | command | irqEnable | irqStatus | crcIrq | error | status2 | fifoData | fifoLevel | control | bitFraming
  | mode | antenna | txAsk | crcResultH | crcResultL
  | timerMode | timerPrescaler | timerReloadH | timerReloadL | version
  deriving DecidableEq, Repr

/-- One item of `REARM_SEQ`: `W(a, v)`, `S(a, m)` or `C(a, m)` (45_session.md R111). -/
inductive RearmItem
  | write (a v : Byte)
  | set (a m : Byte)
  | clear (a m : Byte)
  deriving DecidableEq, Repr

/-- `BIT_ORDER` (00_scope.md R9): outside the model, nothing reads it. -/
inductive BitOrder
  | msbFirst
  | lsbFirst
  deriving DecidableEq, Repr

/-- The configuration record (00_scope.md R8, R9): the parameters a model takes as arguments. A register address is a
byte here, so that the check `0..63` of 00_scope.md R10 is a check. -/
structure Config where
  regCommand : Byte
  regIrqEnable : Byte
  regIrqStatus : Byte
  regCrcIrq : Byte
  regError : Byte
  regStatus2 : Byte
  regFifoData : Byte
  regFifoLevel : Byte
  regControl : Byte
  regBitFraming : Byte
  regMode : Byte
  regAntenna : Byte
  regTxAsk : Byte
  regCrcResultH : Byte
  regCrcResultL : Byte
  regTimerMode : Byte
  regTimerPrescaler : Byte
  regTimerReloadH : Byte
  regTimerReloadL : Byte
  regVersion : Byte
  cmdIdle : Byte
  cmdCalcCrc : Byte
  cmdTransceive : Byte
  cmdAuthenticate : Byte
  cmdReset : Byte
  irqClearMask : Byte
  crcIrq : Byte
  fifoFlush : Byte
  startSend : Byte
  ienAuth : Byte
  ienTransceive : Byte
  ienWriteOr : Byte
  waitAuth : Byte
  waitTransceive : Byte
  timerIrq : Byte
  noTagIrq : Byte
  framingShort : Byte
  framingFull : Byte
  crypto1On : Byte
  piccReq : Byte
  authModeA : Byte
  authModeB : Byte
  rxCapacity : Nat
  /-- `FIFO_DEPTH`: no rule of the block reads it (42_command_executor.md R90). -/
  fifoDepth : Nat
  rearmSeq : List RearmItem
  pollBudgetCrc : Nat
  pollBudgetCmd : Nat
  /-- `CS_ACTIVE_LEVEL`: outside the model, nothing reads it (D31). -/
  csActiveLevel : Bool
  bitOrder : BitOrder
  /-- `CHANNEL_CAN_FAULT` (60_exceptions.md R119). -/
  channelCanFault : Bool
  deriving DecidableEq, Repr

/-- The DeviceHandle (10_state.md R18): line identities, clock rate, configuration. No operation changes it. -/
structure DeviceHandle where
  csLine : Nat
  resetLine : Nat
  /-- `CLOCK_HZ`: outside the model, nothing reads it (D31). -/
  clockHz : Nat
  config : Config
  deriving DecidableEq, Repr

/-- FREE VALUE. The byte the chip answers to a read of `addr` after the trace so far, at the given draw: `Oracle(trace, a, choice)` of
10_state.md R21. Nothing constrains it. -/
opaque Config.oracle (trace : List Event) (addr : RegAddr) (draw : Nat) : Byte

/-- FREE VALUE. Whether the channel fails a transaction (60_exceptions.md R119, "the channel decides which one"). It counts only where
`CHANNEL_CAN_FAULT` is true. -/
opaque Config.channelFails (trace : List Event) (addr : RegAddr) (dir : Direction) (draw : Nat) : Bool

end Sys2Proof
end

