-- ==== Sys2Proof/Syntax.lean ====
section
/-! DEFINITION. The operations of the block, one constructor per row of the opcode table (30_encoding.md R74), and the forms a host
call may have. -/

namespace Sys2Proof

/-- The tag of an AuthKey (10_state.md R27). -/
inductive KeyVariant
  | A
  | B
  deriving DecidableEq, Repr

/-- A register operand (30_encoding.md R75): a role name, or a number. A number is a byte, because a raw call may pass one above 63,
which aliases (20_memory.md R47). -/
inductive RegRef
  | role (r : Role)
  | num (a : Byte)
  deriving DecidableEq, Repr

/-- The operations, with the operands of their rules. The two key slots of READSECT and WRITESECT are those of 45_session.md R114. -/
inductive Instr
  | wreg (r : RegRef) (v : Byte)
  | rreg (r : RegRef)
  | setb (r : RegRef) (m : Byte)
  | clrb (r : RegRef) (m : Byte)
  | calccrc (bytes : List Byte)
  | tocardTrx (send : List Byte)
  | tocardAuth (send : List Byte)
  | bcc (u : List Byte)
  | request
  | anticoll
  | select (uid : List Byte)
  | auth (variant : KeyVariant) (blk : Byte) (key uid : List Byte)
  | stopcrypto
  | sectoraddr (sector block : Nat)
  | readblk (a : Byte)
  | writeblk (a : Byte) (data : List Byte)
  | rearm
  | waitcard (timeoutMs : Int)
  | readuid
  | readsect (uid : List Byte) (sector block : Nat) (keyA keyB : Option (List Byte))
  | writesect (uid : List Byte) (sector block : Nat) (data : List Byte) (keyA keyB : Option (List Byte))
  deriving DecidableEq, Repr

/-- One call the host makes (00_scope.md R16). -/
inductive HostCall
  /-- An operation with its arguments, by value (20_memory.md R50). -/
  | op (i : Instr)
  /-- A line of the textual form of 30_encoding.md R75. -/
  | line (text : List Char)
  /-- The host's raw ToCard with any kind (42_command_executor.md R89, V-TR-9). -/
  | tocard (kind : CommandKind) (send : List Byte)
  /-- The bytes of one transaction as recorded on the channel (30_encoding.md R65, R69). -/
  | raw (bytes : List Byte)
  deriving DecidableEq, Repr

end Sys2Proof
end

