-- ==== Sys2Proof/WellFormed.lean ====
section
/-! DEFINITION. Well-formedness: of a configuration (00_scope.md R10) and of a call's operands (the lengths outside which the spec gives a
call no meaning, 10_state.md R25, and the register numbers of 30_encoding.md R75). -/

namespace Sys2Proof

/-- Every `REG_*` parameter of a configuration. -/
def Config.registers (c : Config) : List Byte :=
  [c.regCommand, c.regIrqEnable, c.regIrqStatus, c.regCrcIrq, c.regError, c.regStatus2, c.regFifoData, c.regFifoLevel, c.regControl,
    c.regBitFraming, c.regMode, c.regAntenna, c.regTxAsk, c.regCrcResultH, c.regCrcResultL, c.regTimerMode, c.regTimerPrescaler,
    c.regTimerReloadH, c.regTimerReloadL, c.regVersion]

/-- 00_scope.md R10. Masks and codes are bytes and `RX_CAPACITY` is a natural number by their types. -/
def Config.wf (c : Config) : Bool :=
  c.registers.all (fun a => decide (a.toNat ≤ 63)) && decide (1 ≤ c.pollBudgetCrc) && decide (1 ≤ c.pollBudgetCmd)

/-- "a role name … or a number 0..63" (30_encoding.md R75). -/
def RegRef.wf : RegRef → Bool
  | .role _ => true
  | .num a => decide (a.toNat ≤ 63)

/-- A supplied key has `KEY_LEN` bytes (44_auth_blockio.md R104). -/
def keyWf (key : Option (List Byte)) : Bool :=
  key.all fun k => decide (k.length = 6)

/-- The operands have a form the spec gives a meaning to. A call that fails this check still has its outcome in the machine. -/
def Instr.wf : Instr → Bool
  | .wreg r _ => r.wf
  | .rreg r => r.wf
  | .setb r _ => r.wf
  | .clrb r _ => r.wf
  | .calccrc _ => true
  | .tocardTrx _ => true
  | .tocardAuth _ => true
  | .bcc u => decide (u.length = 4)
  | .request => true
  | .anticoll => true
  | .select _ => true
  | .auth _ _ key uid => decide (key.length = 6) && decide (4 ≤ uid.length)
  | .stopcrypto => true
  | .sectoraddr _ _ => true
  | .readblk _ => true
  | .writeblk _ data => decide (data.length = 16)
  | .rearm => true
  | .waitcard _ => true
  | .readuid => true
  | .readsect uid _ _ keyA keyB => decide (4 ≤ uid.length) && keyWf keyA && keyWf keyB
  | .writesect uid _ _ data keyA keyB => decide (4 ≤ uid.length) && decide (data.length = 16) && keyWf keyA && keyWf keyB

/-- The operands can be written in the textual form: the register number is one that R75 admits. -/
def Instr.writable : Instr → Bool
  | .wreg r _ => r.wf
  | .rreg r => r.wf
  | .setb r _ => r.wf
  | .clrb r _ => r.wf
  | .calccrc _ => true
  | .tocardTrx _ => true
  | .tocardAuth _ => true
  | .bcc _ => true
  | .request => true
  | .anticoll => true
  | .select _ => true
  | .auth _ _ _ _ => true
  | .stopcrypto => true
  | .sectoraddr _ _ => true
  | .readblk _ => true
  | .writeblk _ _ => true
  | .rearm => true
  | .waitcard _ => true
  | .readuid => true
  | .readsect _ _ _ _ _ => true
  | .writesect _ _ _ _ _ _ => true

end Sys2Proof
end

