-- ==== Sys2Proof/Machine/Defaults.lean ====
section
/-! DEFINITION. The values the source fixes (00_scope.md R8), and the default configuration, whose values the spec marks as general
knowledge of the MFRC522 (00_scope.md R9): PRESUMED, log 3. -/

namespace Sys2Proof

/-! The constants of 00_scope.md R8 that are not configurable. -/

def errMask : Byte := 0x1B
def lastBitsMask : Byte := 0x07
def nvbAnticoll : Byte := 0x20
def nvbSelect : Byte := 0x70
def selCl1 : Byte := 0x93
def piccRead : Byte := 0x30
def piccWrite : Byte := 0xA0
def ackNibble : Byte := 0x0A
def crcSeed : BitVec 16 := 0x6363
abbrev uidLen : Nat := 4
abbrev keyLen : Nat := 6
abbrev blockSize : Nat := 16
abbrev maxBlock : Nat := 63
abbrev blocksPerSector : Nat := 4
abbrev pollIntervalMs : Nat := 100
def dummyByte : Byte := 0x00

/-- The default `REARM_SEQ` (45_session.md R111), over the addresses and codes of a configuration. -/
def standardRearmSeq (c : Config) : List RearmItem :=
  [.write c.regCommand c.cmdReset,
    .write c.regTimerMode 0x8D,
    .write c.regTimerPrescaler 0x3E,
    .write c.regTimerReloadL 0x1E,
    .write c.regTimerReloadH 0x00,
    .write c.regTxAsk 0x40,
    .write c.regMode 0x3D,
    .set c.regAntenna 0x03]

/-- The default parameters of 00_scope.md R8 and R9, before the re-arm sequence is filled in. -/
def bareDefaults : Config where
  regCommand := 0x01
  regIrqEnable := 0x02
  regIrqStatus := 0x04
  regCrcIrq := 0x05
  regError := 0x06
  regStatus2 := 0x08
  regFifoData := 0x09
  regFifoLevel := 0x0A
  regControl := 0x0C
  regBitFraming := 0x0D
  regMode := 0x11
  regAntenna := 0x14
  regTxAsk := 0x15
  regCrcResultH := 0x21
  regCrcResultL := 0x22
  regTimerMode := 0x2A
  regTimerPrescaler := 0x2B
  regTimerReloadH := 0x2C
  regTimerReloadL := 0x2D
  regVersion := 0x37
  cmdIdle := 0x00
  cmdCalcCrc := 0x03
  cmdTransceive := 0x0C
  cmdAuthenticate := 0x0E
  cmdReset := 0x0F
  irqClearMask := 0x80
  crcIrq := 0x04
  fifoFlush := 0x80
  startSend := 0x80
  ienAuth := 0x12
  ienTransceive := 0x77
  ienWriteOr := 0x80
  waitAuth := 0x10
  waitTransceive := 0x30
  timerIrq := 0x01
  noTagIrq := 0x01
  framingShort := 0x07
  framingFull := 0x00
  crypto1On := 0x08
  piccReq := 0x26
  authModeA := 0x60
  authModeB := 0x61
  rxCapacity := 16
  fifoDepth := 64
  rearmSeq := []
  pollBudgetCrc := 255
  pollBudgetCmd := 2000
  csActiveLevel := false
  bitOrder := .msbFirst
  channelCanFault := true

/-- The default configuration (00_scope.md R8, R9; 45_session.md R111). -/
def defaultConfig : Config :=
  { bareDefaults with rearmSeq := standardRearmSeq bareDefaults }

/-- The handle of the default configuration. The line identities and the clock rate are DESIGN CHOICES (log 4): nothing reads them. -/
def defaultHandle : DeviceHandle where
  csLine := 0
  resetLine := 0
  clockHz := 0
  config := defaultConfig

end Sys2Proof
end

