-- ==== Sys2Proof/Machine/Operands.lean ====
section
/-! DEFINITION. Every computed operand of 30_encoding.md R73: addresses, codes, masks, bit counts, BCC, block numbers, hex digits. -/

namespace Sys2Proof

/-- The address of a role under a configuration (00_scope.md R9). -/
def Config.addr (c : Config) : Role → Byte
  | .command => c.regCommand
  | .irqEnable => c.regIrqEnable
  | .irqStatus => c.regIrqStatus
  | .crcIrq => c.regCrcIrq
  | .error => c.regError
  | .status2 => c.regStatus2
  | .fifoData => c.regFifoData
  | .fifoLevel => c.regFifoLevel
  | .control => c.regControl
  | .bitFraming => c.regBitFraming
  | .mode => c.regMode
  | .antenna => c.regAntenna
  | .txAsk => c.regTxAsk
  | .crcResultH => c.regCrcResultH
  | .crcResultL => c.regCrcResultL
  | .timerMode => c.regTimerMode
  | .timerPrescaler => c.regTimerPrescaler
  | .timerReloadH => c.regTimerReloadH
  | .timerReloadL => c.regTimerReloadL
  | .version => c.regVersion

/-- The address a register operand names (30_encoding.md R75). -/
def RegRef.addr (c : Config) : RegRef → Byte
  | .role r => c.addr r
  | .num a => a

/-- The six bits of an address that reach the chip, `a mod 64` (20_memory.md R47). -/
def chipAddr (a : Byte) : RegAddr :=
  a.setWidth 6

/-- The address byte `b1 = (R << 7) | ((addr << 1) & 0x7E)` (30_encoding.md R65). -/
def addressByte : Direction → Byte → Byte
  | .read, a => (0x80 : Byte) ||| ((a <<< 1) &&& 0x7E)
  | .write, a => (a <<< 1) &&& 0x7E

/-- The word `W = b1 << 8 | b2` (30_encoding.md R65). -/
def txnWord (b1 b2 : Byte) : TxnWord :=
  b1 ++ b2

/-- The code written to the command register for a kind (30_encoding.md R70). -/
def Config.code (c : Config) : CommandKind → Byte
  | .idle => c.cmdIdle
  | .authenticate => c.cmdAuthenticate
  | .transceive => c.cmdTransceive
  | .calculateCrc => c.cmdCalcCrc
  | .reset => c.cmdReset

/-- The kinds ToCard admits (42_command_executor.md R89). -/
inductive ExecKind
  | authenticate
  | transceive
  deriving DecidableEq, Repr

/-- The admitted kind a command kind is, if it is one (42_command_executor.md R89). -/
def CommandKind.admitted : CommandKind → Option ExecKind
  | .authenticate => some .authenticate
  | .transceive => some .transceive
  | .idle => none
  | .calculateCrc => none
  | .reset => none

/-- `IEN(kind)` (42_command_executor.md R89). -/
def Config.ien (c : Config) : ExecKind → Byte
  | .authenticate => c.ienAuth
  | .transceive => c.ienTransceive

/-- `WAIT(kind)` (42_command_executor.md R89). -/
def Config.wait (c : Config) : ExecKind → Byte
  | .authenticate => c.waitAuth
  | .transceive => c.waitTransceive

/-- `cmd` of the kind (42_command_executor.md R89). -/
def Config.execCode (c : Config) : ExecKind → Byte
  | .authenticate => c.cmdAuthenticate
  | .transceive => c.cmdTransceive

/-- `authMode` of a key variant (44_auth_blockio.md R104). -/
def Config.authMode (c : Config) : KeyVariant → Byte
  | .A => c.authModeA
  | .B => c.authModeB

/-- The value SetBits writes back (40_transport.md R79). -/
def withBits (v m : Byte) : Byte :=
  v ||| m

/-- The value ClearBits writes back (40_transport.md R80). -/
def withoutBits (v m : Byte) : Byte :=
  v &&& ~~~m

/-- The last-bits field of the control register (42_command_executor.md R95). -/
def lastBits (control : Byte) : Byte :=
  control &&& lastBitsMask

/-- `validBits`, in the integers, from the unmasked FIFO-level byte and the control byte (42_command_executor.md R95, D11, D12). -/
def validBits (c control : Byte) : Int :=
  if lastBits control = 0 then (c.toNat : Int) * 8
  else ((c.toNat : Int) - 1) * 8 + ((lastBits control).toNat : Int)

/-- The drain count `k = min(c, cap)` (42_command_executor.md R96). -/
def drainCount (c : Byte) (cap : Nat) : Nat :=
  min c.toNat cap

/-- `xor_fold` (00_scope.md R12). -/
def xorFold : List Byte → Byte
  | [] => 0
  | b :: l => b ^^^ xorFold l

/-- The BCC of four UID bytes (43_anticollision_select.md R98). -/
def bccOf (u0 u1 u2 u3 : Byte) : Byte :=
  u0 ^^^ u1 ^^^ u2 ^^^ u3

/-- `sector*4 + (block mod 4)` (44_auth_blockio.md R106). -/
def absoluteBlock (sector block : Nat) : Nat :=
  sector * blocksPerSector + block % blocksPerSector

/-- A block number as the address byte of a frame (30_encoding.md R73). -/
def blockByte (a : Nat) : Byte :=
  BitVec.ofNat 8 a

/-- A lowercase hex digit, `0`-`9`, `a`-`f` (45_session.md R113). -/
def hexDigitLower (d : Nat) : Char :=
  if d < 10 then Char.ofNat (48 + d) else Char.ofNat (87 + d)

/-- `hex2(b)`: the two lowercase hex digits, high nibble first (45_session.md R113). -/
def hex2 (b : Byte) : List Char :=
  [hexDigitLower (b.toNat / 16), hexDigitLower (b.toNat % 16)]

/-- The most attempts WAITCARD makes, `max(1, ⌈t / 100⌉)` (45_session.md R112). -/
def waitAttempts (t : Int) : Nat :=
  max 1 ((t + (pollIntervalMs : Int) - 1) / (pollIntervalMs : Int)).toNat

end Sys2Proof
end

