-- ==== Sys2Proof/Decode.lean ====
section
/-! DEFINITION. Decoding, total on any bytes and any text, rejecting by name, and after it the encoders. Two encodings exist: the 2-byte
transaction word, which only WREG and RREG have of their own (30_encoding.md R65 to R69, R74), and the textual form of all 21 operations
(30_encoding.md R75). -/

namespace Sys2Proof

/-! The transaction word. -/

/-- Why recorded bytes are "not emitted by this block" (30_encoding.md R69). -/
inductive WordError
  | notTwoBytes (n : Nat)
  | addressBitZeroSet
  | nonzeroDummy (d : Byte)
  deriving DecidableEq, Repr

/-- The address field `A`, bits 14:9 (30_encoding.md R65). -/
def wordAddr (w : TxnWord) : Byte :=
  (w.extractLsb' 9 6).setWidth 8

/-- The data field `D`, bits 7:0 (30_encoding.md R65). -/
def wordData (w : TxnWord) : Byte :=
  w.extractLsb' 0 8

/-- A recorded word is a write, a read, or refused (30_encoding.md R66, R67, R69; V-TR-2). -/
def decodeWord (w : TxnWord) : Except WordError Instr :=
  if w.getLsbD 8 then .error .addressBitZeroSet
  else if w.getLsbD 15 then
    if wordData w = dummyByte then .ok (.rreg (.num (wordAddr w))) else .error (.nonzeroDummy (wordData w))
  else .ok (.wreg (.num (wordAddr w)) (wordData w))

/-- A transaction is exactly two bytes, the address byte first (20_memory.md R51, 30_encoding.md R69). -/
def decodeBytes : List Byte → Except WordError Instr
  | [b1, b2] => decodeWord (txnWord b1 b2)
  | bytes => .error (.notTwoBytes bytes.length)

/-! The textual form. -/

/-- A token of a line: a word, a comma or a bracket. -/
inductive Tok
  | word (cs : List Char)
  | comma
  | lbr
  | rbr
  deriving DecidableEq, Repr

/-- The characters that separate tokens and are none themselves. -/
def isBlank (c : Char) : Bool :=
  c = ' ' || c = '\t' || c = '\r' || c = '\n'

/-- The tokens so far, with the word being read put before them if it is not empty. -/
def flushWord (cur : List Char) (toks : List Tok) : List Tok :=
  match cur with
  | [] => toks
  | c :: cs => .word (c :: cs) :: toks

/-- Reads the tokens of a line, `cur` being the word read so far. `;` starts a comment. -/
def lexFrom : List Char → List Char → List Tok
  | [], cur => flushWord cur []
  | c :: cs, cur =>
    if c = ';' then flushWord cur []
    else if isBlank c then flushWord cur (lexFrom cs [])
    else if c = ',' then flushWord cur (.comma :: lexFrom cs [])
    else if c = '[' then flushWord cur (.lbr :: lexFrom cs [])
    else if c = ']' then flushWord cur (.rbr :: lexFrom cs [])
    else lexFrom cs (cur ++ [c])

/-- The tokens of a line. -/
def lexLine (text : List Char) : List Tok :=
  lexFrom text []

/-- Why a line is no operation of 30_encoding.md R75. -/
inductive LineError
  | noOperation
  | unknownMnemonic (name : List Char)
  | operandExpected
  | badRegister (name : List Char)
  | badNumber (name : List Char)
  | numberOutOfRange (n : Nat)
  | badHexByte (name : List Char)
  | badKeyVariant (name : List Char)
  | trailing
  deriving DecidableEq, Repr

/-- The value of a hexadecimal digit, either case. -/
def hexVal (c : Char) : Option Nat :=
  if 48 ≤ c.toNat ∧ c.toNat ≤ 57 then some (c.toNat - 48)
  else if 65 ≤ c.toNat ∧ c.toNat ≤ 70 then some (c.toNat - 55)
  else if 97 ≤ c.toNat ∧ c.toNat ≤ 102 then some (c.toNat - 87)
  else none

/-- The value of a decimal digit. -/
def decVal (c : Char) : Option Nat :=
  if 48 ≤ c.toNat ∧ c.toNat ≤ 57 then some (c.toNat - 48) else none

/-- The value of a run of digits in a base, after the value read so far. -/
def digitsFrom (val : Char → Option Nat) (base : Nat) : List Char → Nat → Option Nat
  | [], acc => some acc
  | c :: cs, acc =>
    match val c with
    | some d => digitsFrom val base cs (acc * base + d)
    | none => none

/-- A number: hexadecimal with `0x`, or decimal (30_encoding.md R75). -/
def parseNat : List Char → Option Nat
  | '0' :: 'x' :: c :: cs => digitsFrom hexVal 16 (c :: cs) 0
  | c :: cs => digitsFrom decVal 10 (c :: cs) 0
  | [] => none

/-- A byte of a byte list: one or two hexadecimal digits without `0x` (30_encoding.md R75). -/
def parseHexByte : List Char → Option Byte
  | [a] => (hexVal a).map (BitVec.ofNat 8)
  | [a, b] =>
    match hexVal a, hexVal b with
    | some x, some y => some (BitVec.ofNat 8 (x * 16 + y))
    | _, _ => none
  | _ => none

/-- The role name without the `REG_` prefix (30_encoding.md R75, 00_scope.md R9). -/
def Role.name : Role → List Char
  | .command => "COMMAND".toList
  | .irqEnable => "IRQ_ENABLE".toList
  | .irqStatus => "IRQ_STATUS".toList
  | .crcIrq => "CRC_IRQ".toList
  | .error => "ERROR".toList
  | .status2 => "STATUS2".toList
  | .fifoData => "FIFO_DATA".toList
  | .fifoLevel => "FIFO_LEVEL".toList
  | .control => "CONTROL".toList
  | .bitFraming => "BIT_FRAMING".toList
  | .mode => "MODE".toList
  | .antenna => "ANTENNA".toList
  | .txAsk => "TX_ASK".toList
  | .crcResultH => "CRC_RESULT_H".toList
  | .crcResultL => "CRC_RESULT_L".toList
  | .timerMode => "TIMER_MODE".toList
  | .timerPrescaler => "TIMER_PRESCALER".toList
  | .timerReloadH => "TIMER_RELOAD_H".toList
  | .timerReloadL => "TIMER_RELOAD_L".toList
  | .version => "VERSION".toList

/-- Every role. -/
def Role.all : List Role :=
  [.command, .irqEnable, .irqStatus, .crcIrq, .error, .status2, .fifoData, .fifoLevel, .control, .bitFraming, .mode, .antenna, .txAsk,
    .crcResultH, .crcResultL, .timerMode, .timerPrescaler, .timerReloadH, .timerReloadL, .version]

/-- The role of a name. -/
def Role.ofName (name : List Char) : Option Role :=
  Role.all.find? fun r => decide (r.name = name)

/-- A parser takes tokens and gives what it read with the tokens that follow. -/
abbrev Parse (α : Type) := List Tok → Except LineError (α × List Tok)

/-- Reads one word. -/
def takeWord : Parse (List Char)
  | .word w :: r => .ok (w, r)
  | _ => .error .operandExpected

/-- Reads a comma. -/
def takeComma : Parse Unit
  | .comma :: r => .ok ((), r)
  | _ => .error .operandExpected

/-- Reads a natural number. -/
def takeNat : Parse Nat := fun toks => do
  let (w, r) ← takeWord toks
  match parseNat w with
  | some n => .ok (n, r)
  | none => .error (.badNumber w)

/-- Reads an integer: a number, or a number after a minus sign (V-SES-4 uses `-50`). -/
def takeInt : Parse Int := fun toks => do
  let (w, r) ← takeWord toks
  match w with
  | '-' :: w' =>
    match parseNat w' with
    | some n => .ok (-(n : Int), r)
    | none => .error (.badNumber w)
  | _ =>
    match parseNat w with
    | some n => .ok ((n : Int), r)
    | none => .error (.badNumber w)

/-- Reads a number that is a byte. -/
def takeByte : Parse Byte := fun toks => do
  let (n, r) ← takeNat toks
  if n ≤ 255 then .ok (BitVec.ofNat 8 n, r) else .error (.numberOutOfRange n)

/-- Reads `<reg>`: a role name, or a number 0..63. -/
def takeReg : Parse RegRef := fun toks => do
  let (w, r) ← takeWord toks
  match Role.ofName w with
  | some role => .ok (.role role, r)
  | none =>
    match parseNat w with
    | some n => if n ≤ 63 then .ok (.num (BitVec.ofNat 8 n), r) else .error (.numberOutOfRange n)
    | none => .error (.badRegister w)

/-- Reads the bytes of a list up to its closing bracket. -/
def takeBytesTail : Parse (List Byte)
  | .rbr :: r => .ok ([], r)
  | .word w :: r =>
    match parseHexByte w with
    | some b =>
      match takeBytesTail r with
      | .ok (bs, r') => .ok (b :: bs, r')
      | .error e => .error e
    | none => .error (.badHexByte w)
  | _ => .error .operandExpected

/-- Reads a byte list in brackets. -/
def takeBytes : Parse (List Byte)
  | .lbr :: r => takeBytesTail r
  | _ => .error .operandExpected

/-- Reads `A` or `B`. -/
def takeVariant : Parse KeyVariant := fun toks => do
  let (w, r) ← takeWord toks
  if w = ['A'] then .ok (.A, r) else if w = ['B'] then .ok (.B, r) else .error (.badKeyVariant w)

/-- Reads a comma and then what a parser reads. -/
def afterComma {α : Type} (p : Parse α) : Parse α := fun toks => do
  let (_, r) ← takeComma toks
  p r

/-- The line ends here. -/
def lineEnd {α : Type} (a : α) : List Tok → Except LineError α
  | [] => .ok a
  | _ => .error .trailing

/-- The key slots at the end of a session line: none, A, B, or A and B (45_session.md R114). -/
def keysEnd : List Tok → Except LineError (Option (List Byte) × Option (List Byte))
  | [] => .ok (none, none)
  | toks => do
    let (v, r) ← afterComma takeVariant toks
    let (k, r) ← takeBytes r
    match v with
    | .B => lineEnd (none, some k) r
    | .A =>
      match r with
      | [] => .ok (some k, none)
      | _ => do
        let (v', r) ← afterComma takeVariant r
        let (k', r) ← takeBytes r
        match v' with
        | .A => .error .trailing
        | .B => lineEnd (some k, some k') r

/-- The mnemonics (30_encoding.md R74). -/
inductive Mnemonic
  | wreg | rreg | setb | clrb | calccrc | tocardTrx | tocardAuth | bcc | request | anticoll | select | auth | stopcrypto | sectoraddr
  | readblk | writeblk | rearm | waitcard | readuid | readsect | writesect
  deriving DecidableEq, Repr

/-- A mnemonic's letters (30_encoding.md R74). -/
def Mnemonic.name : Mnemonic → List Char
  | .wreg => "WREG".toList
  | .rreg => "RREG".toList
  | .setb => "SETB".toList
  | .clrb => "CLRB".toList
  | .calccrc => "CALCCRC".toList
  | .tocardTrx => "TOCARD.TRX".toList
  | .tocardAuth => "TOCARD.AUTH".toList
  | .bcc => "BCC".toList
  | .request => "REQUEST".toList
  | .anticoll => "ANTICOLL".toList
  | .select => "SELECT".toList
  | .auth => "AUTH".toList
  | .stopcrypto => "STOPCRYPTO".toList
  | .sectoraddr => "SECTORADDR".toList
  | .readblk => "READBLK".toList
  | .writeblk => "WRITEBLK".toList
  | .rearm => "REARM".toList
  | .waitcard => "WAITCARD".toList
  | .readuid => "READUID".toList
  | .readsect => "READSECT".toList
  | .writesect => "WRITESECT".toList

/-- Every mnemonic. -/
def Mnemonic.all : List Mnemonic :=
  [.wreg, .rreg, .setb, .clrb, .calccrc, .tocardTrx, .tocardAuth, .bcc, .request, .anticoll, .select, .auth, .stopcrypto, .sectoraddr,
    .readblk, .writeblk, .rearm, .waitcard, .readuid, .readsect, .writesect]

/-- The mnemonic of a name. -/
def Mnemonic.ofName (name : List Char) : Option Mnemonic :=
  Mnemonic.all.find? fun m => decide (m.name = name)

/-- The operation a mnemonic and its operand tokens are (30_encoding.md R75). -/
def parseOperands : Mnemonic → List Tok → Except LineError Instr
  | .wreg, t => do
    let (r, t) ← takeReg t
    let (v, t) ← afterComma takeByte t
    lineEnd (.wreg r v) t
  | .rreg, t => do
    let (r, t) ← takeReg t
    lineEnd (.rreg r) t
  | .setb, t => do
    let (r, t) ← takeReg t
    let (m, t) ← afterComma takeByte t
    lineEnd (.setb r m) t
  | .clrb, t => do
    let (r, t) ← takeReg t
    let (m, t) ← afterComma takeByte t
    lineEnd (.clrb r m) t
  | .calccrc, t => do
    let (bs, t) ← takeBytes t
    lineEnd (.calccrc bs) t
  | .tocardTrx, t => do
    let (bs, t) ← takeBytes t
    lineEnd (.tocardTrx bs) t
  | .tocardAuth, t => do
    let (bs, t) ← takeBytes t
    lineEnd (.tocardAuth bs) t
  | .bcc, t => do
    let (u, t) ← takeBytes t
    lineEnd (.bcc u) t
  | .request, t => lineEnd .request t
  | .anticoll, t => lineEnd .anticoll t
  | .select, t => do
    let (u, t) ← takeBytes t
    lineEnd (.select u) t
  | .auth, t => do
    let (v, t) ← takeVariant t
    let (blk, t) ← afterComma takeByte t
    let (k, t) ← afterComma takeBytes t
    let (u, t) ← afterComma takeBytes t
    lineEnd (.auth v blk k u) t
  | .stopcrypto, t => lineEnd .stopcrypto t
  | .sectoraddr, t => do
    let (s, t) ← takeNat t
    let (b, t) ← afterComma takeNat t
    lineEnd (.sectoraddr s b) t
  | .readblk, t => do
    let (a, t) ← takeByte t
    lineEnd (.readblk a) t
  | .writeblk, t => do
    let (a, t) ← takeByte t
    let (d, t) ← afterComma takeBytes t
    lineEnd (.writeblk a d) t
  | .rearm, t => lineEnd .rearm t
  | .waitcard, t => do
    let (n, t) ← takeInt t
    lineEnd (.waitcard n) t
  | .readuid, t => lineEnd .readuid t
  | .readsect, t => do
    let (u, t) ← takeBytes t
    let (s, t) ← afterComma takeNat t
    let (b, t) ← afterComma takeNat t
    let (kA, kB) ← keysEnd t
    .ok (.readsect u s b kA kB)
  | .writesect, t => do
    let (u, t) ← takeBytes t
    let (s, t) ← afterComma takeNat t
    let (b, t) ← afterComma takeNat t
    let (d, t) ← afterComma takeBytes t
    let (kA, kB) ← keysEnd t
    .ok (.writesect u s b d kA kB)

/-- The operation a token list is. -/
def parseToks : List Tok → Except LineError Instr
  | [] => .error .noOperation
  | .word w :: t =>
    match Mnemonic.ofName w with
    | some m => parseOperands m t
    | none => .error (.unknownMnemonic w)
  | _ => .error .noOperation

/-- The operation a line of 30_encoding.md R75 holds, or why it holds none. -/
def parseLine (text : List Char) : Except LineError Instr :=
  parseToks (lexLine text)

/-! Host calls. -/

/-- Why a host call is no operation. -/
inductive CallError
  | word (e : WordError)
  | line (e : LineError)
  /-- ToCard with a kind the source gives no meaning (42_command_executor.md R89). -/
  | kindNotAdmitted (kind : CommandKind)
  deriving DecidableEq, Repr

/-- The operation a host call asks for. -/
def decodeCall : HostCall → Except CallError Instr
  | .op i => .ok i
  | .line text =>
    match parseLine text with
    | .ok i => .ok i
    | .error e => .error (.line e)
  | .tocard kind send =>
    match kind.admitted with
    | some .transceive => .ok (.tocardTrx send)
    | some .authenticate => .ok (.tocardAuth send)
    | none => .error (.kindNotAdmitted kind)
  | .raw bytes =>
    match decodeBytes bytes with
    | .ok i => .ok i
    | .error e => .error (.word e)

/-! The encoders. -/

/-- The word of a write (30_encoding.md R66). -/
def writeWord (a v : Byte) : TxnWord :=
  txnWord (addressByte .write a) v

/-- The word of a read (30_encoding.md R67). -/
def readWord (a : Byte) : TxnWord :=
  txnWord (addressByte .read a) dummyByte

/-- The words of an operation that has an encoding of its own on the channel: WREG and RREG alone (30_encoding.md R74). -/
def encodeWords (c : Config) : Instr → Option (List TxnWord)
  | .wreg r v => some [writeWord (r.addr c) v]
  | .rreg r => some [readWord (r.addr c)]
  | .setb _ _ => none
  | .clrb _ _ => none
  | .calccrc _ => none
  | .tocardTrx _ => none
  | .tocardAuth _ => none
  | .bcc _ => none
  | .request => none
  | .anticoll => none
  | .select _ => none
  | .auth _ _ _ _ => none
  | .stopcrypto => none
  | .sectoraddr _ _ => none
  | .readblk _ => none
  | .writeblk _ _ => none
  | .rearm => none
  | .waitcard _ => none
  | .readuid => none
  | .readsect _ _ _ _ _ => none
  | .writesect _ _ _ _ _ _ => none

/-- The word of a trace event, if it is a transaction. -/
def Event.word : Event → Option TxnWord
  | .xfer _ _ b1 b2 _ => some (txnWord b1 b2)
  | .sleep _ => none
  | .fault _ => none

/-- An uppercase hexadecimal digit. -/
def hexDigitUpper (d : Nat) : Char :=
  if d < 10 then Char.ofNat (48 + d) else Char.ofNat (55 + d)

/-- A byte of a byte list. -/
def hexByteText (b : Byte) : List Char :=
  [hexDigitUpper (b.toNat / 16), hexDigitUpper (b.toNat % 16)]

/-- A byte operand, with `0x`. -/
def byteText (b : Byte) : List Char :=
  '0' :: 'x' :: hexByteText b

/-- The decimal digits of a number, given at least as much fuel as it has digits. -/
def decDigits : Nat → Nat → List Char
  | 0, _ => []
  | fuel + 1, n => if n < 10 then [Char.ofNat (48 + n)] else decDigits fuel (n / 10) ++ [Char.ofNat (48 + n % 10)]

/-- A number in decimal. -/
def natText (n : Nat) : List Char :=
  decDigits (n + 1) n

/-- An integer in decimal. -/
def intText : Int → List Char
  | .ofNat n => natText n
  | .negSucc n => '-' :: natText (n + 1)

/-- `<reg>`. -/
def RegRef.text : RegRef → List Char
  | .role r => r.name
  | .num a => byteText a

/-- The tokens of a byte list. -/
def bytesToks (bs : List Byte) : List Tok :=
  .lbr :: bs.map (fun b => .word (hexByteText b)) ++ [.rbr]

/-- `A` or `B`. -/
def KeyVariant.tok : KeyVariant → Tok
  | .A => .word ['A']
  | .B => .word ['B']

/-- The tokens of a key slot. -/
def keyToks (v : KeyVariant) : Option (List Byte) → List Tok
  | none => []
  | some k => .comma :: v.tok :: bytesToks k

/-- The mnemonic of an operation. -/
def Instr.mnemonic : Instr → Mnemonic
  | .wreg _ _ => .wreg
  | .rreg _ => .rreg
  | .setb _ _ => .setb
  | .clrb _ _ => .clrb
  | .calccrc _ => .calccrc
  | .tocardTrx _ => .tocardTrx
  | .tocardAuth _ => .tocardAuth
  | .bcc _ => .bcc
  | .request => .request
  | .anticoll => .anticoll
  | .select _ => .select
  | .auth _ _ _ _ => .auth
  | .stopcrypto => .stopcrypto
  | .sectoraddr _ _ => .sectoraddr
  | .readblk _ => .readblk
  | .writeblk _ _ => .writeblk
  | .rearm => .rearm
  | .waitcard _ => .waitcard
  | .readuid => .readuid
  | .readsect _ _ _ _ _ => .readsect
  | .writesect _ _ _ _ _ _ => .writesect

/-- The operand tokens of an operation (30_encoding.md R75). -/
def operandToks : Instr → List Tok
  | .wreg r v => [.word r.text, .comma, .word (byteText v)]
  | .rreg r => [.word r.text]
  | .setb r m => [.word r.text, .comma, .word (byteText m)]
  | .clrb r m => [.word r.text, .comma, .word (byteText m)]
  | .calccrc bs => bytesToks bs
  | .tocardTrx bs => bytesToks bs
  | .tocardAuth bs => bytesToks bs
  | .bcc u => bytesToks u
  | .request => []
  | .anticoll => []
  | .select u => bytesToks u
  | .auth v blk k u => [v.tok, .comma, .word (natText blk.toNat), .comma] ++ bytesToks k ++ [.comma] ++ bytesToks u
  | .stopcrypto => []
  | .sectoraddr s b => [.word (natText s), .comma, .word (natText b)]
  | .readblk a => [.word (natText a.toNat)]
  | .writeblk a d => [.word (natText a.toNat), .comma] ++ bytesToks d
  | .rearm => []
  | .waitcard t => [.word (intText t)]
  | .readuid => []
  | .readsect u s b kA kB =>
    bytesToks u ++ [.comma, .word (natText s), .comma, .word (natText b)] ++ keyToks .A kA ++ keyToks .B kB
  | .writesect u s b d kA kB =>
    bytesToks u ++ [.comma, .word (natText s), .comma, .word (natText b), .comma] ++ bytesToks d ++ keyToks .A kA ++ keyToks .B kB

/-- The tokens of an operation's line. -/
def Instr.toks (i : Instr) : List Tok :=
  .word i.mnemonic.name :: operandToks i

/-- The characters of a token. -/
def Tok.text : Tok → List Char
  | .word cs => cs
  | .comma => [',']
  | .lbr => ['[']
  | .rbr => [']']

/-- The blank between a token and the rest of the line. -/
def tokGap : Tok → List Tok → List Char
  | .word _, .word _ :: _ => [' ']
  | .word _, .lbr :: _ => [' ']
  | .comma, _ => [' ']
  | .rbr, .word _ :: _ => [' ']
  | _, _ => []

/-- The characters of a token list. -/
def renderToks : List Tok → List Char
  | [] => []
  | t :: ts => t.text ++ tokGap t ts ++ renderToks ts

/-- The line of an operation (30_encoding.md R75). -/
def encodeLine (i : Instr) : List Char :=
  renderToks i.toks

/-! The host's numbering of an opcode-table word. -/

/-- The bytes of a word, most significant first (the address byte of a transaction goes out first, 20_memory.md R51). -/
def bytesMsbFirst : Nat → Nat → List Byte
  | 0, _ => []
  | k + 1, w => bytesMsbFirst k (w / 256) ++ [BitVec.ofNat 8 w]

/-- The transaction bytes of a table word of `nbits` bits. A table word is `W` of 30_encoding.md R65, and shorter words have zeros above
them. -/
def tableWordBytes (nbits w : Nat) : List Byte :=
  if nbits = 0 then [] else bytesMsbFirst (max 2 ((nbits + 7) / 8)) (w % 2 ^ nbits)

/-- The operation the decoder reads from a table word. -/
def decodeTableWord (nbits w : Nat) : Option Instr :=
  match decodeBytes (tableWordBytes nbits w) with
  | .ok i => some i
  | .error _ => none

end Sys2Proof
end

