-- ==== Sys2Proof/Machine/Result.lean ====
section
/-! DEFINITION. The closed result types of the operations (00_scope.md R14) and their codes (60_exceptions.md R116). -/

namespace Sys2Proof

/-- The failing outcomes of ToCard (42_command_executor.md R88). -/
inductive ExecFailure
  | timeout
  /-- Carries the raw error byte (D15). -/
  | errorReported (e : Byte)
  | noTagError
  deriving DecidableEq, Repr

/-- The outcome of ToCard (42_command_executor.md R88). -/
inductive ExecStatus
  | success
  | failed (f : ExecFailure)
  deriving DecidableEq, Repr

/-- `ExecResult = (status, frame, validBits)` (42_command_executor.md R88). -/
structure ExecResult where
  status : ExecStatus
  frame : List Byte
  validBits : Int
  deriving DecidableEq, Repr

/-- `(lo, hi, done)` of CalcCRC (41_crc.md R83). -/
structure CrcResult where
  lo : Byte
  hi : Byte
  done : Bool
  deriving DecidableEq, Repr

/-- 43_anticollision_select.md R99. -/
inductive RequestResult
  | detected
  | noCard
  deriving DecidableEq, Repr

/-- What Anticollision fails with (43_anticollision_select.md R100). -/
inductive AnticollFailure
  | execFailed (f : ExecFailure)
  | wrongLength (n : Nat)
  | checksumMismatch (frame : List Byte)
  deriving DecidableEq, Repr

/-- `AnticollResult` (43_anticollision_select.md R100). -/
inductive AnticollResult
  | ok (uid5 : List Byte)
  | failed (f : AnticollFailure)
  deriving DecidableEq, Repr

/-- 43_anticollision_select.md R102. -/
inductive SelectResult
  | ok (sak3 : List Byte)
  | selectFailed
  deriving DecidableEq, Repr

/-- 44_auth_blockio.md R104. -/
inductive AuthResult
  | authOk
  | authFailed
  deriving DecidableEq, Repr

/-- 44_auth_blockio.md R106. -/
inductive SectorAddrResult
  | block (a : Nat)
  | blockOutOfRange
  deriving DecidableEq, Repr

/-- 44_auth_blockio.md R107. -/
inductive ReadResult
  | data (bytes : List Byte)
  | readError
  deriving DecidableEq, Repr

/-- The two round trips of WriteBlock (44_auth_blockio.md R108). -/
inductive WritePhase
  | one
  | two
  deriving DecidableEq, Repr

/-- 44_auth_blockio.md R108. -/
inductive WriteResult
  | written
  | writeRejected (phase : WritePhase)
  deriving DecidableEq, Repr

/-- 45_session.md R112. -/
inductive WaitResult
  | detected
  | timeout
  deriving DecidableEq, Repr

/-- 45_session.md R113. The string is its characters. -/
inductive UidResult
  | uid (text : List Char)
  | uidError (f : AnticollFailure)
  deriving DecidableEq, Repr

/-- `SessionError` (45_session.md R114). -/
inductive SessionError
  | noKey
  | blockOutOfRange
  | authFailed
  | readError
  | writeRejected (phase : WritePhase)
  deriving DecidableEq, Repr

/-- 45_session.md R114. -/
inductive ReadSectorResult
  | data (bytes : List Byte)
  | failed (e : SessionError)
  deriving DecidableEq, Repr

/-- 45_session.md R115. -/
inductive WriteSectorResult
  | written
  | failed (e : SessionError)
  deriving DecidableEq, Repr

/-- What an operation returns to the host. -/
inductive OpResult
  /-- WREG, SETB, CLRB, STOPCRYPTO, REARM: "Result: none". -/
  | unit
  /-- RREG and BCC. -/
  | byte (b : Byte)
  | crc (r : CrcResult)
  | exec (r : ExecResult)
  | request (r : RequestResult)
  | anticoll (r : AnticollResult)
  | select (r : SelectResult)
  | auth (r : AuthResult)
  | sectorAddr (r : SectorAddrResult)
  | readBlock (r : ReadResult)
  | writeBlock (r : WriteResult)
  | waitCard (r : WaitResult)
  | readUid (r : UidResult)
  | readSector (r : ReadSectorResult)
  | writeSector (r : WriteSectorResult)
  deriving DecidableEq, Repr

/-- Why a call is refused (10_state.md R25; 93_implementation_defined.md U15 to U19). The state keeps only the mark. -/
inductive RefuseReason
  | kindNotAdmitted
  | bccNeedsFourBytes
  | authNeedsKeyAndUid
  | writeBlockNeedsSixteenBytes
  | writeSectorNeedsSixteenBytes
  | illFormedConfiguration
  deriving DecidableEq, Repr

/-! The codes of 60_exceptions.md R116. A wrapper carries the code of what it wraps. -/

def ExecFailure.code : ExecFailure → Nat
  | .timeout => 2
  | .noTagError => 3
  | .errorReported _ => 4

def ExecStatus.code : ExecStatus → Nat
  | .success => 0
  | .failed f => f.code

def AnticollFailure.code : AnticollFailure → Nat
  | .execFailed f => f.code
  | .checksumMismatch _ => 5
  | .wrongLength _ => 11

def SessionError.code : SessionError → Nat
  | .authFailed => 7
  | .readError => 8
  | .writeRejected _ => 9
  | .noKey => 12
  | .blockOutOfRange => 13

def OpResult.code : OpResult → Nat
  | .unit => 0
  | .byte _ => 0
  | .crc _ => 0
  | .exec r => r.status.code
  | .request .detected => 0
  | .request .noCard => 10
  | .anticoll (.ok _) => 0
  | .anticoll (.failed f) => f.code
  | .select (.ok _) => 0
  | .select .selectFailed => 6
  | .auth .authOk => 0
  | .auth .authFailed => 7
  | .sectorAddr (.block _) => 0
  | .sectorAddr .blockOutOfRange => 13
  | .readBlock (.data _) => 0
  | .readBlock .readError => 8
  | .writeBlock .written => 0
  | .writeBlock (.writeRejected _) => 9
  | .waitCard .detected => 0
  | .waitCard .timeout => 2
  | .readUid (.uid _) => 0
  | .readUid (.uidError f) => f.code
  | .readSector (.data _) => 0
  | .readSector (.failed e) => e.code
  | .writeSector .written => 0
  | .writeSector (.failed e) => e.code

/-- A channel fault's code (60_exceptions.md R116). -/
def FaultInfo.code : FaultInfo → Nat
  | .channelFault _ _ => 1

end Sys2Proof
end

