-- ==== Sys2Proof/Machine/State.lean ====
section
/-! DEFINITION. The state of the engine (10_state.md R17), the handle it belongs to (R18), and the model's own fields for what comes from
outside the engine: the oracle's answers, the channel's failures, the host's calls and the results it is given. -/

namespace Sys2Proof.Machine

/-- Why the machine stops. -/
inductive Fault
  /-- Raised by every operation and every step once `fault` is set: "the engine performs no further step" (10_state.md R24). Safe. -/
  | engineFaulted (info : FaultInfo)
  deriving DecidableEq, Repr

/-- Why an instruction has no meaning. -/
inductive Refusal
  /-- Raised by an arm of exec whose instruction has no meaning yet. Safe. No arm raises it. -/
  | notModelled (mnemonic : String)
  deriving DecidableEq, Repr

/-- The machine. -/
structure State where
  /-- The DeviceHandle (10_state.md R18). No operation changes it. -/
  handle : DeviceHandle
  /-- Chip-select asserted (10_state.md R22). -/
  cs : Bool
  /-- Every transaction and sleep, in order (10_state.md R23). -/
  trace : List Event
  /-- The sticky fatal-fault mark (10_state.md R24). -/
  fault : Option FaultInfo
  /-- The sticky refusal mark (10_state.md R25). -/
  refused : Bool
  /-- The model's own: oracle answers already decided, one per read transaction. After them a read takes the free value. -/
  answers : List Byte
  /-- The model's own: channel failures already decided, one per transaction. After them a transaction takes the free value. -/
  failures : List Bool
  /-- The model's own: how many draws of the free values have been made. -/
  draws : Nat
  /-- The host's calls still to be made, next first (00_scope.md R16). -/
  calls : List HostCall
  /-- What the operations returned to the host, oldest first (10_state.md R23, 00_scope.md R14). -/
  results : List OpResult
  deriving DecidableEq, Repr

/-- The creation of a handle (70_reset_and_hazards.md R129): the engine state of 10_state.md R45. -/
def State.create (h : DeviceHandle) : State where
  handle := h
  cs := false
  trace := []
  fault := none
  refused := false
  answers := []
  failures := []
  draws := 0
  calls := []
  results := []

/-- The machine right after reset: the creation of the default handle. -/
def State.reset : State :=
  State.create defaultHandle

/-- The configuration of the state's handle. -/
def State.config (s : State) : Config :=
  s.handle.config

end Sys2Proof.Machine
end

