-- ==== Sys2Proof/Machine/Ops.lean ====
section
/-! DEFINITION. The shared operations: the channel transaction and its fault (40_transport.md R76, 60_exceptions.md R119), refusal
(10_state.md R25), the program of an operation as the tree of its transactions, its run to completion, and its run event by event
(10_state.md R17). -/

namespace Sys2Proof.Machine

/-! The channel. -/

/-- Whether the channel fails this transaction (60_exceptions.md R119): never if `CHANNEL_CAN_FAULT` is false. -/
def State.xferFails (s : State) (dir : Direction) (a : RegAddr) : Bool :=
  s.config.channelCanFault &&
    match s.failures with
    | f :: _ => f
    | [] => Config.channelFails s.trace a dir s.draws

/-- The byte the chip answers to a read (10_state.md R21). -/
def State.chipByte (s : State) (a : RegAddr) : Byte :=
  match s.answers with
  | b :: _ => b
  | [] => Config.oracle s.trace a s.draws

/-- Asserts chip-select (40_transport.md R76). -/
def State.selectChip (s : State) : State :=
  { s with cs := true }

/-- Deasserts chip-select at the end of a transaction, which has used one draw and one scripted failure (40_transport.md R76). -/
def State.deselectChip (s : State) : State :=
  { s with cs := false, failures := s.failures.tail, draws := s.draws + 1 }

/-- Takes the scripted answer a read has used. -/
def State.dropAnswer (s : State) : State :=
  { s with answers := s.answers.tail }

/-- Appends an event to the trace (10_state.md R23). -/
def State.record (s : State) (e : Event) : State :=
  { s with trace := s.trace ++ [e] }

/-- A channel fault: the fault event, and the sticky mark (60_exceptions.md R119). -/
def State.raiseFault (s : State) (f : FaultInfo) : State :=
  { s with trace := s.trace ++ [.fault f], fault := some f }

/-- The sticky refusal mark (10_state.md R25). -/
def State.markRefused (s : State) : State :=
  { s with refused := true }

/-- Gives the host an operation's result. -/
def State.returnResult (s : State) (r : OpResult) : State :=
  { s with results := s.results ++ [r] }

/-- How a transaction ends. -/
inductive Exchange
  | completed (r2 : Byte) (s : State)
  | failed (f : FaultInfo) (s : State)

/-- `Xfer(Read, a, b1, b2)` (40_transport.md R76, R78). -/
def xferRead (a : Byte) (s : State) : Exchange :=
  let addr := chipAddr a
  let sel := s.selectChip
  let r2 := sel.chipByte addr
  if sel.xferFails .read addr then
    .failed (.channelFault addr .read) (sel.deselectChip.raiseFault (.channelFault addr .read))
  else
    .completed r2 (sel.deselectChip.dropAnswer.record (.xfer .read addr (addressByte .read a) dummyByte (some r2)))

/-- `Xfer(Write, a, b1, b2)`: the byte the channel returns is not observed (40_transport.md R76, R77). -/
def xferWrite (a v : Byte) (s : State) : Exchange :=
  let addr := chipAddr a
  let sel := s.selectChip
  if sel.xferFails .write addr then
    .failed (.channelFault addr .write) (sel.deselectChip.raiseFault (.channelFault addr .write))
  else
    .completed 0 (sel.deselectChip.record (.xfer .write addr (addressByte .write a) v none))

/-! Programs. -/

/-- The program of an operation: its next event, and what follows for each answer. Its position in this tree is what the block has
in place of a program counter (10_state.md R20). -/
inductive Prog (α : Type) : Type
  /-- `return X` (00_scope.md R13). -/
  | ret (a : α)
  /-- `refuse(reason)` (00_scope.md R13). -/
  | refuse (why : RefuseReason)
  /-- `ReadReg(a)`. -/
  | read (a : Byte) (k : Byte → Prog α)
  /-- `WriteReg(a, v)`. -/
  | write (a v : Byte) (k : Prog α)
  /-- `Sleep(ms)`. -/
  | sleep (ms : Nat) (k : Prog α)

/-- What follows a program's return. -/
def Prog.bind {α β : Type} : Prog α → (α → Prog β) → Prog β
  | .ret a, f => f a
  | .refuse why, _ => .refuse why
  | .read a k, f => .read a fun b => (k b).bind f
  | .write a v k, f => .write a v (k.bind f)
  | .sleep ms k, f => .sleep ms (k.bind f)

/-- One program after another. -/
def Prog.andThen {α β : Type} (p : Prog α) (q : Prog β) : Prog β :=
  p.bind fun _ => q

/-- A program's return value under a function. -/
def Prog.map {α β : Type} (f : α → β) (p : Prog α) : Prog β :=
  p.bind fun a => .ret (f a)

/-- How a run of a program ends. -/
inductive Run (α : Type) : Type
  | done (a : α) (s : State)
  | refused (why : RefuseReason) (s : State)
  | faulted (f : FaultInfo) (s : State)

/-- The state a run ends in. -/
def Run.state {α : Type} : Run α → State
  | .done _ s => s
  | .refused _ s => s
  | .faulted _ s => s

/-- A program run to completion, as one function from the oracle's answers to the trace and the result (10_state.md R17). A channel fault
ends it (60_exceptions.md R119). -/
def Prog.run {α : Type} : Prog α → State → Run α
  | .ret a, s => .done a s
  | .refuse why, s => .refused why s.markRefused
  | .read a k, s =>
    match xferRead a s with
    | .completed r2 t => (k r2).run t
    | .failed f t => .faulted f t
  | .write a v k, s =>
    match xferWrite a v s with
    | .completed _ t => k.run t
    | .failed f t => .faulted f t
  | .sleep ms k, s => k.run (s.record (.sleep ms))

/-! The same programs as a step relation over events (10_state.md R17). -/

/-- Where an operation stands: at a position of its program, or ended. -/
inductive Stage (α : Type) : Type
  | at (p : Prog α) (s : State)
  | ended (r : Run α)

/-- One step of the engine: one transaction, one sleep or the fault event; or the end of the operation. -/
def Stage.next {α : Type} : Stage α → Stage α
  | .at (.ret a) s => .ended (.done a s)
  | .at (.refuse why) s => .ended (.refused why s.markRefused)
  | .at (.read a k) s =>
    match xferRead a s with
    | .completed r2 t => .at (k r2) t
    | .failed f t => .ended (.faulted f t)
  | .at (.write a v k) s =>
    match xferWrite a v s with
    | .completed _ t => .at k t
    | .failed f t => .ended (.faulted f t)
  | .at (.sleep ms k) s => .at k (s.record (.sleep ms))
  | .ended r => .ended r

/-- Several steps of the engine. -/
def Stage.steps {α : Type} : Nat → Stage α → Stage α
  | 0, g => g
  | n + 1, g => g.next.steps n

/-! The primitives of 00_scope.md R13 and 40_transport.md. -/

/-- `ReadReg(a)` (40_transport.md R78). -/
def readReg (a : Byte) : Prog Byte :=
  .read a .ret

/-- `WriteReg(a, v)` (40_transport.md R77). -/
def writeReg (a v : Byte) : Prog Unit :=
  .write a v (.ret ())

/-- `SetBits(a, m)`: a read, then a write to the same address (40_transport.md R79). -/
def setBits (a m : Byte) : Prog Unit :=
  (readReg a).bind fun v => writeReg a (withBits v m)

/-- `ClearBits(a, m)`: a read, then a write to the same address (40_transport.md R80). -/
def clearBits (a m : Byte) : Prog Unit :=
  (readReg a).bind fun v => writeReg a (withoutBits v m)

/-- Pushes the bytes into the FIFO, element 0 first, one write each (20_memory.md R48). -/
def pushAll (c : Config) : List Byte → Prog Unit
  | [] => .ret ()
  | b :: bs => (writeReg c.regFifoData b).andThen (pushAll c bs)

/-- Pulls so many bytes from the FIFO, in read order (42_command_executor.md R96). -/
def drain (c : Config) : Nat → Prog (List Byte)
  | 0 => .ret []
  | k + 1 => (readReg c.regFifoData).bind fun b => (drain c k).map (b :: ·)

/-- Reads a register until some bit of a mask is set, at most so many times: whether it was seen, and the last byte read
(42_command_executor.md R91, 41_crc.md R83). `n` is the byte read before. -/
def pollReg (a stop : Byte) : Nat → Byte → Prog (Bool × Byte)
  | 0, n => .ret (false, n)
  | k + 1, _ => (readReg a).bind fun n => if n &&& stop ≠ 0 then .ret (true, n) else pollReg a stop k n

/-! One operation. -/

/-- The state a run leaves, with the result it returned to the host: none of a refused or faulted operation (10_state.md R25,
60_exceptions.md R119). -/
def Run.settle : Run OpResult → State
  | .done r s => s.returnResult r
  | .refused _ s => s
  | .faulted _ s => s

/-- The program of an operation under a configuration: an ill-formed configuration is refused (00_scope.md R10). -/
def guardConfig (c : Config) (p : Prog OpResult) : Prog OpResult :=
  if c.wf then p else .refuse .illFormedConfiguration

/-- Performs an operation: no step once `fault` is set (10_state.md R24), else its run to completion. -/
def perform (p : Config → Prog OpResult) (s : State) : Host.Outcome State Fault Refusal :=
  match s.fault with
  | some f => .fault (.engineFaulted f)
  | none => .next ((guardConfig s.config (p s.config)).run s).settle

end Sys2Proof.Machine
end

