-- ==== Sys2Proof/Machine/Crc.lean ====
section
/-! DEFINITION. CALCCRC, and the reference function `CRC_A`, which only a premise about the chip names (41_crc.md R85, R86). -/

namespace Sys2Proof.Machine

/-- `CalcCRC(bytes)` (41_crc.md R83). The result registers are read whatever the poll saw (R84). -/
def calcCrc (c : Config) (bytes : List Byte) : Prog CrcResult :=
  (clearBits c.regCrcIrq c.crcIrq).andThen <|
  (setBits c.regFifoLevel c.fifoFlush).andThen <|
  (pushAll c bytes).andThen <|
  (writeReg c.regCommand c.cmdCalcCrc).andThen <|
  (pollReg c.regCrcIrq c.crcIrq c.pollBudgetCrc 0).bind fun poll =>
  (readReg c.regCrcResultL).bind fun lo =>
  (readReg c.regCrcResultH).bind fun hi =>
  .ret ⟨lo, hi, poll.1⟩

/-- CALCCRC (41_crc.md R83). -/
def execCalccrc (bytes : List Byte) (s : State) : Host.Outcome State Fault Refusal :=
  perform (fun c => (calcCrc c bytes).map .crc) s

/-- One bit of `CRC_A` (41_crc.md R85). -/
def crcBit (crc : BitVec 16) : BitVec 16 :=
  if crc.getLsbD 0 then (crc >>> 1) ^^^ 0x8408 else crc >>> 1

/-- So many bits of `CRC_A`. -/
def crcBits : Nat → BitVec 16 → BitVec 16
  | 0, crc => crc
  | n + 1, crc => crcBits n (crcBit crc)

/-- One byte of `CRC_A`, bit-wise (41_crc.md R85). -/
def crcByte (crc : BitVec 16) (b : Byte) : BitVec 16 :=
  crcBits 8 (crc ^^^ b.setWidth 16)

/-- One byte of `CRC_A`, byte-wise (41_crc.md R85). -/
def crcByteFast (crc : BitVec 16) (b : Byte) : BitVec 16 :=
  let ch : Byte := b ^^^ crc.setWidth 8
  let ch : Byte := ch ^^^ (ch <<< 4)
  let w : BitVec 16 := ch.setWidth 16
  (crc >>> 8) ^^^ (w <<< 8) ^^^ (w <<< 3) ^^^ (w >>> 4)

/-- `CRC_A` of a byte list as a 16-bit value, seed 0x6363 (41_crc.md R85). -/
def crcA (bytes : List Byte) : BitVec 16 :=
  bytes.foldl crcByte crcSeed

/-- `CRC_A` by the byte-wise form (41_crc.md R85). -/
def crcAFast (bytes : List Byte) : BitVec 16 :=
  bytes.foldl crcByteFast crcSeed

/-- The low byte of a CRC. -/
def crcLo (crc : BitVec 16) : Byte :=
  crc.extractLsb' 0 8

/-- The high byte of a CRC. -/
def crcHi (crc : BitVec 16) : Byte :=
  crc.extractLsb' 8 8

end Sys2Proof.Machine
end

