-- ==== Sys2Proof/Machine/Flags.lean ====
section
/-! DEFINITION. Every test of a status bit (10_state.md R28): the block has no flags of its own, and each of these reads a byte the
chip returned. -/

namespace Sys2Proof

/-- Some bit of the mask is set in the byte: `(v & m) ≠ 0`. -/
def anyBit (v m : Byte) : Bool :=
  decide (v &&& m ≠ 0)

/-- The bits that end the command poll, `TIMER_IRQ | wait` (42_command_executor.md R91). -/
def Config.pollStop (c : Config) (kind : ExecKind) : Byte :=
  c.timerIrq ||| c.wait kind

/-- The error test of ToCard step 8, `(e & ERR_MASK) ≠ 0` (42_command_executor.md R93). -/
def errorReported (e : Byte) : Bool :=
  anyBit e errMask

/-- The no-tag test of ToCard step 9, `(n & ien & NOTAG_IRQ) ≠ 0` on the last poll byte (42_command_executor.md R94). -/
def Config.noTag (c : Config) (kind : ExecKind) (n : Byte) : Bool :=
  anyBit (n &&& c.ien kind) c.noTagIrq

/-- The low nibble of an acknowledge byte is `ACK_NIBBLE` (44_auth_blockio.md R108). -/
def ackAccepted (b : Byte) : Bool :=
  decide (b &&& 0x0F = ackNibble)

end Sys2Proof
end

