-- ==== Sys2Proof/Machine/Executor.lean ====
section
/-! DEFINITION. TOCARD.TRX and TOCARD.AUTH (42_command_executor.md). -/

namespace Sys2Proof.Machine

/-- ToCard steps 1 to 3: the enables, the pending bits cleared, the FIFO flushed, Idle, the payload (42_command_executor.md R90). -/
def armAndLoad (c : Config) (kind : ExecKind) (send : List Byte) : Prog Unit :=
  (writeReg c.regIrqEnable (withBits (c.ien kind) c.ienWriteOr)).andThen <|
  (clearBits c.regIrqStatus c.irqClearMask).andThen <|
  (setBits c.regFifoLevel c.fifoFlush).andThen <|
  (writeReg c.regCommand c.cmdIdle).andThen <|
  pushAll c send

/-- ToCard step 4: the command, and "start send" for Transceive (42_command_executor.md R90). -/
def startCommand (c : Config) (kind : ExecKind) : Prog Unit :=
  (writeReg c.regCommand (c.execCode kind)).andThen <|
  match kind with
  | .transceive => setBits c.regBitFraming c.startSend
  | .authenticate => .ret ()

/-- ToCard step 9 for Transceive: the bit count, then the clamped drain (42_command_executor.md R95, R96). -/
def takeResponse (c : Config) : Prog ExecResult :=
  (readReg c.regFifoLevel).bind fun count =>
  (readReg c.regControl).bind fun control =>
  (drain c (drainCount count c.rxCapacity)).bind fun frame =>
  .ret ⟨.success, frame, validBits count control⟩

/-- A failing `ExecResult`: no frame, no bits (42_command_executor.md R88). -/
def failedExec (f : ExecFailure) : ExecResult :=
  ⟨.failed f, [], 0⟩

/-- ToCard steps 7 to 9 (42_command_executor.md R90, R93, R94, R97). -/
def decodeOutcome (c : Config) (kind : ExecKind) (hit : Bool) (n : Byte) : Prog ExecResult :=
  if hit then
    (readReg c.regError).bind fun e =>
    if errorReported e then .ret (failedExec (.errorReported e))
    else if c.noTag kind n then .ret (failedExec .noTagError)
    else
      match kind with
      | .authenticate => .ret ⟨.success, [], 0⟩
      | .transceive => takeResponse c
  else .ret (failedExec .timeout)

/-- ToCard of an admitted kind (42_command_executor.md R90). -/
def runCommand (c : Config) (kind : ExecKind) (send : List Byte) : Prog ExecResult :=
  (armAndLoad c kind send).andThen <|
  (startCommand c kind).andThen <|
  (pollReg c.regIrqStatus (c.pollStop kind) c.pollBudgetCmd 0).bind fun poll =>
  (clearBits c.regBitFraming c.startSend).andThen <|
  decodeOutcome c kind poll.1 poll.2

/-- `ToCard(kind, send)`: a kind that is not admitted is refused (42_command_executor.md R89, R90). -/
def toCard (c : Config) (kind : CommandKind) (send : List Byte) : Prog ExecResult :=
  match kind.admitted with
  | some k => runCommand c k send
  | none => .refuse .kindNotAdmitted

/-- TOCARD.TRX (42_command_executor.md R90). -/
def execTocardTrx (send : List Byte) (s : State) : Host.Outcome State Fault Refusal :=
  perform (fun c => (toCard c .transceive send).map .exec) s

/-- TOCARD.AUTH (42_command_executor.md R90). -/
def execTocardAuth (send : List Byte) (s : State) : Host.Outcome State Fault Refusal :=
  perform (fun c => (toCard c .authenticate send).map .exec) s

end Sys2Proof.Machine
end

