-- ==== Sys2Proof/Machine/Framer.lean ====
section
/-! DEFINITION. BCC, REQUEST, ANTICOLL, SELECT (43_anticollision_select.md). -/

namespace Sys2Proof.Machine

/-- `Bcc(u)`: pure; refused unless 4 bytes (43_anticollision_select.md R98). -/
def bccOp : List Byte → Prog Byte
  | [u0, u1, u2, u3] => .ret (bccOf u0 u1 u2 u3)
  | _ => .refuse .bccNeedsFourBytes

/-- BCC (43_anticollision_select.md R98). -/
def execBcc (u : List Byte) (s : State) : Host.Outcome State Fault Refusal :=
  perform (fun _ => (bccOp u).map .byte) s

/-- What Request makes of ToCard's result: exactly 16 valid bits, any deviation is NoCard (43_anticollision_select.md R99). -/
def requestDecode (r : ExecResult) : RequestResult :=
  if r.status = .success ∧ r.validBits = 16 then .detected else .noCard

/-- `Request()` (43_anticollision_select.md R99). -/
def requestOp (c : Config) : Prog RequestResult :=
  (writeReg c.regBitFraming c.framingShort).andThen <|
  (toCard c .transceive [c.piccReq]).map requestDecode

/-- REQUEST (43_anticollision_select.md R99). -/
def execRequest (s : State) : Host.Outcome State Fault Refusal :=
  perform (fun c => (requestOp c).map .request) s

/-- What Anticollision makes of the frame: the byte count, then the BCC (43_anticollision_select.md R100). -/
def anticollFrame : List Byte → AnticollResult
  | [u0, u1, u2, u3, u4] =>
    if u4 = bccOf u0 u1 u2 u3 then .ok [u0, u1, u2, u3, u4] else .failed (.checksumMismatch [u0, u1, u2, u3, u4])
  | frame => .failed (.wrongLength frame.length)

/-- What Anticollision makes of ToCard's result: the status first (43_anticollision_select.md R100). -/
def anticollDecode (r : ExecResult) : AnticollResult :=
  match r.status with
  | .failed f => .failed (.execFailed f)
  | .success => anticollFrame r.frame

/-- `Anticoll()` (43_anticollision_select.md R100). -/
def anticollOp (c : Config) : Prog AnticollResult :=
  (writeReg c.regBitFraming c.framingFull).andThen <|
  (toCard c .transceive [selCl1, nvbAnticoll]).map anticollDecode

/-- ANTICOLL (43_anticollision_select.md R100). -/
def execAnticoll (s : State) : Host.Outcome State Fault Refusal :=
  perform (fun c => (anticollOp c).map .anticoll) s

/-- The Select frame before its CRC: at most 5 UID bytes (43_anticollision_select.md R102). -/
def selectBuf (uid : List Byte) : List Byte :=
  [selCl1, nvbSelect] ++ uid.take 5

/-- What Select makes of ToCard's result: exactly 3 bytes and 24 valid bits (43_anticollision_select.md R102). -/
def selectDecode (r : ExecResult) : SelectResult :=
  if r.status = .success ∧ r.frame.length = 3 ∧ r.validBits = 24 then .ok r.frame else .selectFailed

/-- Sends a frame with its CRC appended, low byte first, whatever `done` is (20_memory.md R52, 41_crc.md R84, R87). -/
def sendWithCrc (c : Config) (buf : List Byte) : Prog ExecResult :=
  (calcCrc c buf).bind fun crc => toCard c .transceive (buf ++ [crc.lo, crc.hi])

/-- `Select(uid)` (43_anticollision_select.md R102). -/
def selectOp (c : Config) (uid : List Byte) : Prog SelectResult :=
  (sendWithCrc c (selectBuf uid)).map selectDecode

/-- SELECT (43_anticollision_select.md R102). -/
def execSelect (uid : List Byte) (s : State) : Host.Outcome State Fault Refusal :=
  perform (fun c => (selectOp c uid).map .select) s

end Sys2Proof.Machine
end

