-- ==== Sys2Proof/Machine/AuthBlock.lean ====
section
/-! DEFINITION. AUTH, STOPCRYPTO, SECTORADDR, READBLK, WRITEBLK (44_auth_blockio.md). -/

namespace Sys2Proof.Machine

/-- The Authenticate payload (44_auth_blockio.md R104). -/
def authBuf (c : Config) (variant : KeyVariant) (blk : Byte) (key uid : List Byte) : List Byte :=
  [c.authMode variant, blk] ++ key ++ uid.take uidLen

/-- Success is AuthOk, everything else AuthFailed (44_auth_blockio.md R104). -/
def authDecode (r : ExecResult) : AuthResult :=
  match r.status with
  | .success => .authOk
  | .failed _ => .authFailed

/-- `Auth(variant, blk, key, uid)` (44_auth_blockio.md R104). -/
def authOp (c : Config) (variant : KeyVariant) (blk : Byte) (key uid : List Byte) : Prog AuthResult :=
  if key.length = keyLen ∧ uidLen ≤ uid.length then
    (toCard c .authenticate (authBuf c variant blk key uid)).map authDecode
  else .refuse .authNeedsKeyAndUid

/-- AUTH (44_auth_blockio.md R104). -/
def execAuth (variant : KeyVariant) (blk : Byte) (key uid : List Byte) (s : State) : Host.Outcome State Fault Refusal :=
  perform (fun c => (authOp c variant blk key uid).map .auth) s

/-- STOPCRYPTO: `StopCrypto()` (44_auth_blockio.md R105). -/
def execStopcrypto (s : State) : Host.Outcome State Fault Refusal :=
  perform (fun c => (clearBits c.regStatus2 c.crypto1On).map fun _ => .unit) s

/-- `SectorAddr(sector, block)`: pure (44_auth_blockio.md R106). -/
def sectorAddr (sector block : Nat) : SectorAddrResult :=
  if absoluteBlock sector block > maxBlock then .blockOutOfRange else .block (absoluteBlock sector block)

/-- SECTORADDR (44_auth_blockio.md R106). -/
def execSectoraddr (sector block : Nat) (s : State) : Host.Outcome State Fault Refusal :=
  perform (fun _ => .ret (.sectorAddr (sectorAddr sector block))) s

/-- What ReadBlock makes of ToCard's result: exactly 16 bytes (44_auth_blockio.md R107). -/
def readDecode (r : ExecResult) : ReadResult :=
  if r.status = .success ∧ r.frame.length = blockSize then .data r.frame else .readError

/-- `ReadBlock(a)` (44_auth_blockio.md R107). -/
def readBlockOp (c : Config) (a : Byte) : Prog ReadResult :=
  (sendWithCrc c [piccRead, a]).map readDecode

/-- READBLK (44_auth_blockio.md R107). -/
def execReadblk (a : Byte) (s : State) : Host.Outcome State Fault Refusal :=
  perform (fun c => (readBlockOp c a).map .readBlock) s

/-- `Ack(st, frame)`: Success and one byte with the acknowledge nibble (44_auth_blockio.md R108). -/
def ackDecode (r : ExecResult) : Bool :=
  match r.status, r.frame with
  | .success, [b] => ackAccepted b
  | _, _ => false

/-- `WriteBlock(a, data16)`: phase 2 only after an accepted phase 1 (44_auth_blockio.md R108). -/
def writeBlockOp (c : Config) (a : Byte) (data : List Byte) : Prog WriteResult :=
  if data.length = blockSize then
    (sendWithCrc c [piccWrite, a]).bind fun r1 =>
    if ackDecode r1 then
      (sendWithCrc c data).bind fun r2 =>
      if ackDecode r2 then .ret .written else .ret (.writeRejected .two)
    else .ret (.writeRejected .one)
  else .refuse .writeBlockNeedsSixteenBytes

/-- WRITEBLK (44_auth_blockio.md R108). -/
def execWriteblk (a : Byte) (data : List Byte) (s : State) : Host.Outcome State Fault Refusal :=
  perform (fun c => (writeBlockOp c a data).map .writeBlock) s

end Sys2Proof.Machine
end

