-- ==== Sys2Proof/Machine/Session.lean ====
section
/-! DEFINITION. REARM, WAITCARD, READUID, READSECT, WRITESECT (45_session.md). -/

namespace Sys2Proof.Machine

/-- One item of the re-arm sequence (45_session.md R111). -/
def rearmItem : RearmItem → Prog Unit
  | .write a v => writeReg a v
  | .set a m => setBits a m
  | .clear a m => clearBits a m

/-- The items of a re-arm sequence, in order (45_session.md R111). -/
def rearmAll : List RearmItem → Prog Unit
  | [] => .ret ()
  | item :: items => (rearmItem item).andThen (rearmAll items)

/-- `Rearm()` (45_session.md R111). -/
def rearmOp (c : Config) : Prog Unit :=
  rearmAll c.rearmSeq

/-- REARM (45_session.md R111). -/
def execRearm (s : State) : Host.Outcome State Fault Refusal :=
  perform (fun c => (rearmOp c).map fun _ => .unit) s

/-- WaitForCard's loop with at most so many attempts left (45_session.md R112). -/
def waitLoop (c : Config) (t : Int) : Nat → Nat → Prog WaitResult
  | 0, _ => .ret .timeout
  | n + 1, elapsed =>
    (rearmOp c).andThen <|
    (requestOp c).bind fun r =>
    match r with
    | .detected => .ret .detected
    | .noCard =>
      .sleep pollIntervalMs <|
      if t ≤ ((elapsed + pollIntervalMs : Nat) : Int) then .ret .timeout else waitLoop c t n (elapsed + pollIntervalMs)

/-- `WaitForCard(t)`: at most `max(1, ⌈t / 100⌉)` attempts (45_session.md R112). -/
def waitOp (c : Config) (t : Int) : Prog WaitResult :=
  waitLoop c t (waitAttempts t) 0

/-- WAITCARD (45_session.md R112). -/
def execWaitcard (t : Int) (s : State) : Host.Outcome State Fault Refusal :=
  perform (fun c => (waitOp c t).map .waitCard) s

/-- What ReadUid makes of Anticollision's result (45_session.md R113). -/
def uidDecode : AnticollResult → UidResult
  | .ok uid5 => .uid ((uid5.take uidLen).flatMap hex2)
  | .failed f => .uidError f

/-- READUID: `ReadUid()` (45_session.md R113). -/
def execReaduid (s : State) : Host.Outcome State Fault Refusal :=
  perform (fun c => (anticollOp c).map fun r => .readUid (uidDecode r)) s

/-- "A checked first if both supplied" (45_session.md R114). -/
def chooseKey : Option (List Byte) → Option (List Byte) → Option (KeyVariant × List Byte)
  | some k, _ => some (.A, k)
  | none, some k => some (.B, k)
  | none, none => none

/-- The checks the session operations share, in order: the key, the range, the authentication; then the block access
(45_session.md R114, R115). -/
def withSector {α : Type} (c : Config) (uid : List Byte) (sector block : Nat) (keyA keyB : Option (List Byte))
    (failed : SessionError → α) (access : Byte → Prog α) : Prog α :=
  match chooseKey keyA keyB with
  | none => .ret (failed .noKey)
  | some (variant, key) =>
    match sectorAddr sector block with
    | .blockOutOfRange => .ret (failed .blockOutOfRange)
    | .block a =>
      (authOp c variant (blockByte a) key uid).bind fun r =>
      match r with
      | .authFailed => .ret (failed .authFailed)
      | .authOk => access (blockByte a)

/-- A block read as a session's result (45_session.md R114). -/
def readSectorDecode : ReadResult → ReadSectorResult
  | .data d => .data d
  | .readError => .failed .readError

/-- `ReadSectorBlock(uid, sector, block, keyA?, keyB?)` (45_session.md R114). -/
def readSectorOp (c : Config) (uid : List Byte) (sector block : Nat) (keyA keyB : Option (List Byte)) : Prog ReadSectorResult :=
  withSector c uid sector block keyA keyB .failed fun a => (readBlockOp c a).map readSectorDecode

/-- READSECT (45_session.md R114). -/
def execReadsect (uid : List Byte) (sector block : Nat) (keyA keyB : Option (List Byte)) (s : State) :
    Host.Outcome State Fault Refusal :=
  perform (fun c => (readSectorOp c uid sector block keyA keyB).map .readSector) s

/-- A block write as a session's result (45_session.md R115). -/
def writeSectorDecode : WriteResult → WriteSectorResult
  | .written => .written
  | .writeRejected phase => .failed (.writeRejected phase)

/-- `WriteSectorBlock(uid, sector, block, data16, keyA?, keyB?)`: the data length is checked before anything else
(45_session.md R115). -/
def writeSectorOp (c : Config) (uid : List Byte) (sector block : Nat) (data : List Byte) (keyA keyB : Option (List Byte)) :
    Prog WriteSectorResult :=
  if data.length = blockSize then
    withSector c uid sector block keyA keyB .failed fun a => (writeBlockOp c a data).map writeSectorDecode
  else .refuse .writeSectorNeedsSixteenBytes

/-- WRITESECT (45_session.md R115). -/
def execWritesect (uid : List Byte) (sector block : Nat) (data : List Byte) (keyA keyB : Option (List Byte)) (s : State) :
    Host.Outcome State Fault Refusal :=
  perform (fun c => (writeSectorOp c uid sector block data keyA keyB).map .writeSector) s

end Sys2Proof.Machine
end

