-- ==== Sys2Proof/Machine/Transport.lean ====
section
/-! DEFINITION. WREG, RREG, SETB, CLRB (40_transport.md). -/

namespace Sys2Proof.Machine

/-- WREG (40_transport.md R77). -/
def execWreg (r : RegRef) (v : Byte) (s : State) : Host.Outcome State Fault Refusal :=
  perform (fun c => (writeReg (r.addr c) v).map fun _ => .unit) s

/-- RREG (40_transport.md R78). -/
def execRreg (r : RegRef) (s : State) : Host.Outcome State Fault Refusal :=
  perform (fun c => (readReg (r.addr c)).map .byte) s

/-- SETB (40_transport.md R79). -/
def execSetb (r : RegRef) (m : Byte) (s : State) : Host.Outcome State Fault Refusal :=
  perform (fun c => (setBits (r.addr c) m).map fun _ => .unit) s

/-- CLRB (40_transport.md R80). -/
def execClrb (r : RegRef) (m : Byte) (s : State) : Host.Outcome State Fault Refusal :=
  perform (fun c => (clearBits (r.addr c) m).map fun _ => .unit) s

end Sys2Proof.Machine
end

