-- ==== Sys2Proof/Machine/Dispatch.lean ====
section
/-! DEFINITION. One arm per operation (30_encoding.md R74). -/

namespace Sys2Proof.Machine

def exec (i : Instr) (s : State) : Host.Outcome State Fault Refusal :=
  match i with
  | .wreg r v => Sys2Proof.Machine.execWreg r v s
  | .rreg r => Sys2Proof.Machine.execRreg r s
  | .setb r m => Sys2Proof.Machine.execSetb r m s
  | .clrb r m => Sys2Proof.Machine.execClrb r m s
  | .calccrc bytes => Sys2Proof.Machine.execCalccrc bytes s
  | .tocardTrx send => Sys2Proof.Machine.execTocardTrx send s
  | .tocardAuth send => Sys2Proof.Machine.execTocardAuth send s
  | .bcc u => Sys2Proof.Machine.execBcc u s
  | .request => Sys2Proof.Machine.execRequest s
  | .anticoll => Sys2Proof.Machine.execAnticoll s
  | .select uid => Sys2Proof.Machine.execSelect uid s
  | .auth variant blk key uid => Sys2Proof.Machine.execAuth variant blk key uid s
  | .stopcrypto => Sys2Proof.Machine.execStopcrypto s
  | .sectoraddr sector block => Sys2Proof.Machine.execSectoraddr sector block s
  | .readblk a => Sys2Proof.Machine.execReadblk a s
  | .writeblk a data => Sys2Proof.Machine.execWriteblk a data s
  | .rearm => Sys2Proof.Machine.execRearm s
  | .waitcard t => Sys2Proof.Machine.execWaitcard t s
  | .readuid => Sys2Proof.Machine.execReaduid s
  | .readsect uid sector block keyA keyB => Sys2Proof.Machine.execReadsect uid sector block keyA keyB s
  | .writesect uid sector block data keyA keyB => Sys2Proof.Machine.execWritesect uid sector block data keyA keyB s

end Sys2Proof.Machine
end

