-- ==== Sys2Proof/Machine/Fetch.lean ====
section
/-! DEFINITION. The host's next call (00_scope.md R16): taken from the queue and decoded. -/

namespace Sys2Proof.Machine

/-- What the next step has to do. -/
inductive NextCall
  /-- The host has called nothing: the block waits (70_reset_and_hazards.md R129). -/
  | idle
  /-- The call is no operation of the block. -/
  | undecodable (s : State)
  /-- The operation to run, and the state without its call. -/
  | run (i : Instr) (s : State)

/-- The state without the host's next call. -/
def State.dropCall (s : State) : State :=
  { s with calls := s.calls.tail }

/-- The state with one more call, to be made next. -/
def State.callFirst (s : State) (c : HostCall) : State :=
  { s with calls := c :: s.calls }

/-- Takes the host's next call. -/
def State.nextCall (s : State) : NextCall :=
  match s.calls with
  | [] => .idle
  | c :: _ =>
    match decodeCall c with
    | .ok i => .run i s.dropCall
    | .error _ => .undecodable s.dropCall

end Sys2Proof.Machine
end

