-- ==== Sys2Proof/Machine/Step.lean ====
section
/-! DEFINITION. One step: the host's next call, run to completion (10_state.md R17). The block fetches no instructions (20_memory.md R63):
where a processor has a program counter, it has the host's queue of calls. -/

namespace Sys2Proof.Machine

/-- One step of the machine. Once `fault` is set there is none (10_state.md R24). -/
def step (s : State) : Host.Outcome State Fault Refusal :=
  match s.fault with
  | some f => .fault (.engineFaulted f)
  | none =>
    match s.nextCall with
    | .idle => .next s
    | .undecodable t => .next t.markRefused
    | .run i t => exec i t

/-- The state with a table word as the host's next call. -/
def State.withFetchWord (s : State) (nbits w : Nat) : State :=
  s.callFirst (.raw (tableWordBytes nbits w))

end Sys2Proof.Machine
end

