-- ==== Sys2Proof/Safety.lean ====
section
/-! DEFINITION. The terms the claims use: what a safe state is, what an uninterrupted and an interrupted run of an operation leave, and the
operations' answer scripts, which restate their rules as relations between the oracle's answers, the events and the result. The scripts are
written from the rules and share no code with the meanings. -/

namespace Sys2Proof.Machine

/-! Events. -/

/-- A read transaction of register `a` answered `r`: bytes `0x80 | ((a << 1) & 0x7E)` and `0x00` (30_encoding.md R67). -/
def rd (a r : Byte) : Event :=
  .xfer .read (a.setWidth 6) ((0x80 : Byte) ||| ((a <<< 1) &&& 0x7E)) 0x00 (some r)

/-- A write transaction of register `a`: bytes `(a << 1) & 0x7E` and the value (30_encoding.md R66). -/
def wr (a v : Byte) : Event :=
  .xfer .write (a.setWidth 6) ((a <<< 1) &&& 0x7E) v none

/-- The events are transactions of the forms of 30_encoding.md R66 and R67, or the sleeps of 45_session.md R110, or the fault event. -/
def eventWf : Event → Bool
  | .xfer .read a b1 b2 r2 => decide (b1 = (0x80 : Byte) ||| ((a.setWidth 8 <<< 1) &&& 0x7E)) && decide (b2 = 0x00) && r2.isSome
  | .xfer .write a b1 _ r2 => decide (b1 = (a.setWidth 8 <<< 1) &&& 0x7E) && r2.isNone
  | .sleep ms => decide (ms = 100)
  | .fault _ => true

/-- The event is a transaction. -/
def isTransaction : Event → Bool
  | .xfer _ _ _ _ _ => true
  | .sleep _ => false
  | .fault _ => false

/-- The event is a sleep. -/
def isSleep : Event → Bool
  | .xfer _ _ _ _ _ => false
  | .sleep _ => true
  | .fault _ => false

/-- The event is a read transaction. -/
def isRead : Event → Bool
  | .xfer .read _ _ _ _ => true
  | .xfer .write _ _ _ _ => false
  | .sleep _ => false
  | .fault _ => false

/-- The faults among the events. -/
def faultsOf : List Event → List FaultInfo
  | [] => []
  | .fault f :: es => f :: faultsOf es
  | .xfer _ _ _ _ _ :: es => faultsOf es
  | .sleep _ :: es => faultsOf es

/-- How many transactions the events hold: the model's measure of cost (70_reset_and_hazards.md R139). -/
def transactions (evs : List Event) : Nat :=
  evs.countP isTransaction

/-- How many sleeps the events hold. -/
def sleeps (evs : List Event) : Nat :=
  evs.countP isSleep

/-- How many reads the events hold. -/
def readsIn (evs : List Event) : Nat :=
  evs.countP isRead

/-- The last value the events write to a register, if they write it. -/
def lastWrite (a : RegAddr) : List Event → Option Byte
  | [] => none
  | e :: es =>
    match lastWrite a es, e with
    | some v, _ => some v
    | none, .xfer .write a' _ v _ => if a' = a then some v else none
    | none, _ => none

/-! States. -/

/-- The engine may run: no fault, a well-formed configuration (10_state.md R24, 00_scope.md R10). -/
abbrev State.Ready (s : State) : Prop :=
  s.fault = none ∧ s.config.wf = true

/-- The channel fails none of the next `n` transactions. -/
abbrev State.Quiet (s : State) (n : Nat) : Prop :=
  s.config.channelCanFault = false ∨ (n ≤ s.failures.length ∧ ∀ f ∈ s.failures.take n, f = false)

/-- The invariant of the engine between two calls: chip-select is deasserted (10_state.md R22); the trace holds only what the block emits
(30_encoding.md R69); a fault event stands in the trace exactly if the mark is set, once and last (10_state.md R24, 60_exceptions.md R119); and
none arose on a channel that cannot fault. -/
abbrev State.Inv (s : State) : Prop :=
  s.cs = false ∧ (∀ e ∈ s.trace, eventWf e = true) ∧ faultsOf s.trace = s.fault.toList ∧
    (s.fault = none ∨ s.trace.getLast? = s.fault.map Event.fault) ∧
    (s.config.channelCanFault = false → s.fault = none)

/-- A run that no refusal and no fault has touched. -/
abbrev State.Safe (s : State) : Prop :=
  s.Inv ∧ s.Ready ∧ s.refused = false

/-- What a run leaves that has made these events, used these answers and was not interrupted. -/
def State.after (s : State) (evs : List Event) (rest : List Byte) : State :=
  { s with
    cs := if transactions evs = 0 then s.cs else false
    trace := s.trace ++ evs
    answers := rest
    failures := s.failures.drop (transactions evs)
    draws := s.draws + transactions evs }

/-- The events before the `n`-th transaction (counted from 0), and the fault its failure is. -/
def cutAt : List Event → Nat → Option (List Event × FaultInfo)
  | [], _ => none
  | .xfer dir a _ _ _ :: _, 0 => some ([], .channelFault a dir)
  | .xfer dir a b1 b2 r2 :: es, n + 1 => (cutAt es n).map fun p => (.xfer dir a b1 b2 r2 :: p.1, p.2)
  | .sleep ms :: es, n => (cutAt es n).map fun p => (.sleep ms :: p.1, p.2)
  | .fault f :: es, n => (cutAt es n).map fun p => (.fault f :: p.1, p.2)

/-- What a run leaves that made the events `pre` and was ended by the failure `f` of the transaction after them
(60_exceptions.md R119). `later` is what stays of the scripted failures. -/
def State.interrupted (s : State) (pre : List Event) (f : FaultInfo) (later : List Bool) : State :=
  { s with
    cs := false
    trace := s.trace ++ pre ++ [.fault f]
    fault := some f
    answers := s.answers.drop (readsIn pre)
    failures := later
    draws := s.draws + transactions pre + 1 }

/-- In a ready state whose oracle answers `ans`, the operation makes exactly the events `evs`, gives the host `r` and changes nothing else;
and if the channel fails its `n`-th transaction, it makes the events before it and the fault event, and returns nothing. -/
def Performs (i : Instr) (s : State) (ans : List Byte) (evs : List Event) (r : OpResult) : Prop :=
  s.Ready → ∀ rest, s.answers = ans ++ rest →
    (s.Quiet (transactions evs) → exec i s = .next ((s.after evs rest).returnResult r)) ∧
    (∀ n pre f later, cutAt evs n = some (pre, f) → s.config.channelCanFault = true →
      s.failures = List.replicate n false ++ true :: later → exec i s = .next (s.interrupted pre f later))

/-- A refused call: the mark, and nothing else (10_state.md R25). -/
def Refuses (i : Instr) (s : State) : Prop :=
  s.Ready → exec i s = .next s.markRefused

/-- The state of a stage. -/
def Stage.state {α : Type} : Stage α → State
  | .at _ s => s
  | .ended r => r.state

/-- The events `evs` write register `a` only with a value just read from it, with the bits of `m` set or cleared. -/
def TouchesOnlyBits (a m : Byte) (evs : List Event) : Prop :=
  ∀ pre post b1 v r2, evs = pre ++ .xfer .write (a.setWidth 6) b1 v r2 :: post →
    ∃ pre' r, pre = pre' ++ [rd a r] ∧ (v = r ||| m ∨ v = r &&& ~~~m)

/-! Answer scripts. -/

/-- A bounded poll (42_command_executor.md R91, 41_crc.md R83): the answers read, whether one had a bit of `stop`, and the last one. A hit on
the last read of the budget is a hit (D9). -/
inductive PollScript (stop : Byte) (budget : Nat) : List Byte → Bool → Byte → Prop
  | hit (misses : List Byte) (n : Byte) : misses.length < budget → (∀ m ∈ misses, m &&& stop = 0) → n &&& stop ≠ 0 →
      PollScript stop budget (misses ++ [n]) true n
  | exhausted (misses : List Byte) (n : Byte) : misses.length + 1 = budget → (∀ m ∈ misses, m &&& stop = 0) → n &&& stop = 0 →
      PollScript stop budget (misses ++ [n]) false n

/-- CalcCRC (41_crc.md R83, R84). -/
inductive CrcScript (c : Config) (bytes : List Byte) : List Byte → List Event → CrcResult → Prop
  | run (flag level lo hi n : Byte) (polls : List Byte) (done : Bool) : PollScript c.crcIrq c.pollBudgetCrc polls done n →
      CrcScript c bytes
        (flag :: level :: (polls ++ [lo, hi]))
        ([rd c.regCrcIrq flag, wr c.regCrcIrq (flag &&& ~~~c.crcIrq), rd c.regFifoLevel level, wr c.regFifoLevel (level ||| c.fifoFlush)] ++
          bytes.map (wr c.regFifoData) ++ [wr c.regCommand c.cmdCalcCrc] ++ polls.map (rd c.regCrcIrq) ++
          [rd c.regCrcResultL lo, rd c.regCrcResultH hi])
        ⟨lo, hi, done⟩

/-- The valid-bit count of 42_command_executor.md R95. -/
def bitCount (count control : Byte) : Int :=
  if control &&& 0x07 ≠ 0 then ((count.toNat : Int) - 1) * 8 + ((control &&& 0x07).toNat : Int) else (count.toNat : Int) * 8

/-- ToCard steps 7 to 9 (42_command_executor.md R90, R93 to R97), after a poll that ended with `hit` and `n`. -/
inductive OutcomeScript (c : Config) (ien n : Byte) : ExecKind → Bool → List Byte → List Event → ExecResult → Prop
  | timeout (kind : ExecKind) : OutcomeScript c ien n kind false [] [] ⟨.failed .timeout, [], 0⟩
  | errorBits (kind : ExecKind) (e : Byte) : e &&& 0x1B ≠ 0 →
      OutcomeScript c ien n kind true [e] [rd c.regError e] ⟨.failed (.errorReported e), [], 0⟩
  | noTag (kind : ExecKind) (e : Byte) : e &&& 0x1B = 0 → n &&& ien &&& c.noTagIrq ≠ 0 →
      OutcomeScript c ien n kind true [e] [rd c.regError e] ⟨.failed .noTagError, [], 0⟩
  | authenticated (e : Byte) : e &&& 0x1B = 0 → n &&& ien &&& c.noTagIrq = 0 →
      OutcomeScript c ien n .authenticate true [e] [rd c.regError e] ⟨.success, [], 0⟩
  | response (e count control : Byte) (frame : List Byte) : e &&& 0x1B = 0 → n &&& ien &&& c.noTagIrq = 0 →
      frame.length = min count.toNat c.rxCapacity →
      OutcomeScript c ien n .transceive true (e :: count :: control :: frame)
        ([rd c.regError e, rd c.regFifoLevel count, rd c.regControl control] ++ frame.map (rd c.regFifoData))
        ⟨.success, frame, bitCount count control⟩

/-- ToCard steps 1 to 3 (42_command_executor.md R90). -/
def loadEvents (c : Config) (ien irq level : Byte) (send : List Byte) : List Event :=
  [wr c.regIrqEnable (ien ||| c.ienWriteOr), rd c.regIrqStatus irq, wr c.regIrqStatus (irq &&& ~~~c.irqClearMask), rd c.regFifoLevel level,
    wr c.regFifoLevel (level ||| c.fifoFlush), wr c.regCommand c.cmdIdle] ++ send.map (wr c.regFifoData)

/-- ToCard (42_command_executor.md R89 to R97). -/
inductive ToCardScript (c : Config) (send : List Byte) : ExecKind → List Byte → List Event → ExecResult → Prop
  | transceive (irq level framing n framing' : Byte) (polls tailAns : List Byte) (hit : Bool) (tailEvs : List Event) (r : ExecResult) :
      PollScript (c.timerIrq ||| c.waitTransceive) c.pollBudgetCmd polls hit n →
      OutcomeScript c c.ienTransceive n .transceive hit tailAns tailEvs r →
      ToCardScript c send .transceive
        (irq :: level :: framing :: (polls ++ framing' :: tailAns))
        (loadEvents c c.ienTransceive irq level send ++
          [wr c.regCommand c.cmdTransceive, rd c.regBitFraming framing, wr c.regBitFraming (framing ||| c.startSend)] ++
          polls.map (rd c.regIrqStatus) ++ [rd c.regBitFraming framing', wr c.regBitFraming (framing' &&& ~~~c.startSend)] ++ tailEvs)
        r
  | authenticate (irq level n framing' : Byte) (polls tailAns : List Byte) (hit : Bool) (tailEvs : List Event) (r : ExecResult) :
      PollScript (c.timerIrq ||| c.waitAuth) c.pollBudgetCmd polls hit n →
      OutcomeScript c c.ienAuth n .authenticate hit tailAns tailEvs r →
      ToCardScript c send .authenticate
        (irq :: level :: (polls ++ framing' :: tailAns))
        (loadEvents c c.ienAuth irq level send ++ [wr c.regCommand c.cmdAuthenticate] ++
          polls.map (rd c.regIrqStatus) ++ [rd c.regBitFraming framing', wr c.regBitFraming (framing' &&& ~~~c.startSend)] ++ tailEvs)
        r

/-- A frame sent with its CRC appended, low byte then high (20_memory.md R52, 41_crc.md R87). -/
inductive FrameScript (c : Config) (buf : List Byte) : List Byte → List Event → ExecResult → Prop
  | send (crcAns ans : List Byte) (crcEvs evs : List Event) (crc : CrcResult) (r : ExecResult) :
      CrcScript c buf crcAns crcEvs crc → ToCardScript c (buf ++ [crc.lo, crc.hi]) .transceive ans evs r →
      FrameScript c buf (crcAns ++ ans) (crcEvs ++ evs) r

/-- Request, by its presence answer (43_anticollision_select.md R99). -/
inductive RequestScript (c : Config) : List Byte → List Event → RequestResult → Prop
  | detected (ans : List Byte) (evs : List Event) (frame : List Byte) :
      ToCardScript c [c.piccReq] .transceive ans evs ⟨.success, frame, 16⟩ →
      RequestScript c ans (wr c.regBitFraming c.framingShort :: evs) .detected
  | noCard (ans : List Byte) (evs : List Event) (r : ExecResult) :
      ToCardScript c [c.piccReq] .transceive ans evs r → ¬(r.status = .success ∧ r.validBits = 16) →
      RequestScript c ans (wr c.regBitFraming c.framingShort :: evs) .noCard

/-- Anticollision (43_anticollision_select.md R100): status, then byte count, then BCC. -/
inductive AnticollScript (c : Config) : List Byte → List Event → AnticollResult → Prop
  | uid (ans : List Byte) (evs : List Event) (u0 u1 u2 u3 : Byte) (vb : Int) :
      ToCardScript c [0x93, 0x20] .transceive ans evs ⟨.success, [u0, u1, u2, u3, u0 ^^^ u1 ^^^ u2 ^^^ u3], vb⟩ →
      AnticollScript c ans (wr c.regBitFraming c.framingFull :: evs) (.ok [u0, u1, u2, u3, u0 ^^^ u1 ^^^ u2 ^^^ u3])
  | mismatch (ans : List Byte) (evs : List Event) (u0 u1 u2 u3 u4 : Byte) (vb : Int) :
      ToCardScript c [0x93, 0x20] .transceive ans evs ⟨.success, [u0, u1, u2, u3, u4], vb⟩ → u4 ≠ u0 ^^^ u1 ^^^ u2 ^^^ u3 →
      AnticollScript c ans (wr c.regBitFraming c.framingFull :: evs) (.failed (.checksumMismatch [u0, u1, u2, u3, u4]))
  | wrongLength (ans : List Byte) (evs : List Event) (frame : List Byte) (vb : Int) :
      ToCardScript c [0x93, 0x20] .transceive ans evs ⟨.success, frame, vb⟩ → frame.length ≠ 5 →
      AnticollScript c ans (wr c.regBitFraming c.framingFull :: evs) (.failed (.wrongLength frame.length))
  | execFailed (ans : List Byte) (evs : List Event) (f : ExecFailure) (frame : List Byte) (vb : Int) :
      ToCardScript c [0x93, 0x20] .transceive ans evs ⟨.failed f, frame, vb⟩ →
      AnticollScript c ans (wr c.regBitFraming c.framingFull :: evs) (.failed (.execFailed f))

/-- The mode byte of a key variant (44_auth_blockio.md R104). -/
def modeByte (c : Config) : KeyVariant → Byte
  | .A => c.authModeA
  | .B => c.authModeB

/-- Authentication (44_auth_blockio.md R104). -/
inductive AuthScript (c : Config) (variant : KeyVariant) (blk : Byte) (key uid : List Byte) : List Byte → List Event → AuthResult → Prop
  | ok (ans : List Byte) (evs : List Event) (frame : List Byte) (vb : Int) :
      ToCardScript c ((modeByte c variant :: blk :: key) ++ uid.take 4) .authenticate ans evs
        ⟨.success, frame, vb⟩ →
      AuthScript c variant blk key uid ans evs .authOk
  | failed (ans : List Byte) (evs : List Event) (f : ExecFailure) (frame : List Byte) (vb : Int) :
      ToCardScript c ((modeByte c variant :: blk :: key) ++ uid.take 4) .authenticate ans evs
        ⟨.failed f, frame, vb⟩ →
      AuthScript c variant blk key uid ans evs .authFailed

/-- ReadBlock (44_auth_blockio.md R107). -/
inductive ReadScript (c : Config) (a : Byte) : List Byte → List Event → ReadResult → Prop
  | data (ans : List Byte) (evs : List Event) (frame : List Byte) (vb : Int) :
      FrameScript c [0x30, a] ans evs ⟨.success, frame, vb⟩ → frame.length = 16 → ReadScript c a ans evs (.data frame)
  | error (ans : List Byte) (evs : List Event) (r : ExecResult) :
      FrameScript c [0x30, a] ans evs r → ¬(r.status = .success ∧ r.frame.length = 16) → ReadScript c a ans evs .readError

/-- ToCard's result is an acknowledge: Success and one byte of low nibble 0x0A (44_auth_blockio.md R108). -/
def IsAck (r : ExecResult) : Prop :=
  r.status = .success ∧ ∃ b : Byte, r.frame = [b] ∧ b &&& 0x0F = 0x0A

/-- WriteBlock (44_auth_blockio.md R108). -/
inductive WriteScript (c : Config) (a : Byte) (data : List Byte) : List Byte → List Event → WriteResult → Prop
  | rejectedFirst (ans : List Byte) (evs : List Event) (r : ExecResult) :
      FrameScript c [0xA0, a] ans evs r → ¬IsAck r → WriteScript c a data ans evs (.writeRejected .one)
  | rejectedSecond (ans ans' : List Byte) (evs evs' : List Event) (r r' : ExecResult) :
      FrameScript c [0xA0, a] ans evs r → IsAck r → FrameScript c data ans' evs' r' → ¬IsAck r' →
      WriteScript c a data (ans ++ ans') (evs ++ evs') (.writeRejected .two)
  | written (ans ans' : List Byte) (evs evs' : List Event) (r r' : ExecResult) :
      FrameScript c [0xA0, a] ans evs r → IsAck r → FrameScript c data ans' evs' r' → IsAck r' →
      WriteScript c a data (ans ++ ans') (evs ++ evs') .written

/-- A re-arm sequence (45_session.md R111). -/
inductive RearmScript : List RearmItem → List Byte → List Event → Prop
  | nil : RearmScript [] [] []
  | write (a v : Byte) (items : List RearmItem) (ans : List Byte) (evs : List Event) :
      RearmScript items ans evs → RearmScript (.write a v :: items) ans (wr a v :: evs)
  | set (a m r : Byte) (items : List RearmItem) (ans : List Byte) (evs : List Event) :
      RearmScript items ans evs → RearmScript (.set a m :: items) (r :: ans) (rd a r :: wr a (r ||| m) :: evs)
  | clear (a m r : Byte) (items : List RearmItem) (ans : List Byte) (evs : List Event) :
      RearmScript items ans evs → RearmScript (.clear a m :: items) (r :: ans) (rd a r :: wr a (r &&& ~~~m) :: evs)

/-- WaitForCard from an elapsed count on (45_session.md R112): the loop of the rule, which nothing bounds but its own test. -/
inductive WaitScript (c : Config) (t : Int) : Nat → List Byte → List Event → WaitResult → Prop
  | detected (elapsed : Nat) (ans ans' : List Byte) (evs evs' : List Event) :
      RearmScript c.rearmSeq ans evs → RequestScript c ans' evs' .detected →
      WaitScript c t elapsed (ans ++ ans') (evs ++ evs') .detected
  | timeout (elapsed : Nat) (ans ans' : List Byte) (evs evs' : List Event) :
      RearmScript c.rearmSeq ans evs → RequestScript c ans' evs' .noCard → ((elapsed + 100 : Nat) : Int) ≥ t →
      WaitScript c t elapsed (ans ++ ans') (evs ++ evs' ++ [.sleep 100]) .timeout
  | again (elapsed : Nat) (ans ans' ans'' : List Byte) (evs evs' evs'' : List Event) (r : WaitResult) :
      RearmScript c.rearmSeq ans evs → RequestScript c ans' evs' .noCard → ((elapsed + 100 : Nat) : Int) < t →
      WaitScript c t (elapsed + 100) ans'' evs'' r →
      WaitScript c t elapsed (ans ++ ans' ++ ans'') (evs ++ evs' ++ [.sleep 100] ++ evs'') r

/-- The key a session uses: A if supplied, else B (45_session.md R114, C9). -/
inductive KeyChosen : Option (List Byte) → Option (List Byte) → KeyVariant → List Byte → Prop
  | a (k : List Byte) (keyB : Option (List Byte)) : KeyChosen (some k) keyB .A k
  | b (k : List Byte) : KeyChosen none (some k) .B k

/-! Bounds (70_reset_and_hazards.md R139). -/

/-- CalcCRC of `m` bytes. -/
def crcBound (c : Config) (m : Nat) : Nat :=
  7 + m + c.pollBudgetCrc

/-- ToCard of `m` bytes. -/
def toCardBound (c : Config) (m : Nat) : Nat :=
  14 + m + c.pollBudgetCmd + c.rxCapacity

/-- A frame of `m` bytes with its CRC. -/
def frameBound (c : Config) (m : Nat) : Nat :=
  crcBound c m + toCardBound c (m + 2)

/-- The most transactions an operation makes. -/
def maxTransactions (c : Config) : Instr → Nat
  | .wreg _ _ => 1
  | .rreg _ => 1
  | .setb _ _ => 2
  | .clrb _ _ => 2
  | .calccrc bytes => crcBound c bytes.length
  | .tocardTrx send => toCardBound c send.length
  | .tocardAuth send => toCardBound c send.length
  | .bcc _ => 0
  | .request => 1 + toCardBound c 1
  | .anticoll => 1 + toCardBound c 2
  | .select uid => frameBound c (2 + min 5 uid.length)
  | .auth _ _ _ _ => toCardBound c 12
  | .stopcrypto => 2
  | .sectoraddr _ _ => 0
  | .readblk _ => frameBound c 2
  | .writeblk _ _ => frameBound c 2 + frameBound c 16
  | .rearm => 2 * c.rearmSeq.length
  | .waitcard t => (max 1 ((t + 99) / 100)).toNat * (2 * c.rearmSeq.length + 1 + toCardBound c 1)
  | .readuid => 1 + toCardBound c 2
  | .readsect _ _ _ _ _ => toCardBound c 12 + frameBound c 2
  | .writesect _ _ _ _ _ _ => toCardBound c 12 + frameBound c 2 + frameBound c 16

/-! What each operation may write, by its own rule: the register address and the value. A read-modify-write leaves the bits it sets or clears so,
and the others as the chip answered. -/

/-- CalcCRC (41_crc.md R83). -/
def CrcWrites (c : Config) (bytes : List Byte) (a v : Byte) : Prop :=
  (a = c.regCrcIrq ∧ v &&& c.crcIrq = 0) ∨ (a = c.regFifoLevel ∧ v ||| c.fifoFlush = v) ∨ (a = c.regFifoData ∧ v ∈ bytes) ∨
    (a = c.regCommand ∧ v = c.cmdCalcCrc)

/-- ToCard steps 1 to 3 and 6, and the command write of step 4 (42_command_executor.md R90). -/
def CommandWrites (c : Config) (ien cmd : Byte) (send : List Byte) (a v : Byte) : Prop :=
  (a = c.regIrqEnable ∧ v = ien ||| c.ienWriteOr) ∨ (a = c.regIrqStatus ∧ v &&& c.irqClearMask = 0) ∨
    (a = c.regFifoLevel ∧ v ||| c.fifoFlush = v) ∨ (a = c.regCommand ∧ (v = c.cmdIdle ∨ v = cmd)) ∨ (a = c.regFifoData ∧ v ∈ send) ∨
    (a = c.regBitFraming ∧ v &&& c.startSend = 0)

/-- ToCard of kind Transceive, which sets "start send" as well (42_command_executor.md R90). -/
def TransceiveWrites (c : Config) (send : List Byte) (a v : Byte) : Prop :=
  CommandWrites c c.ienTransceive c.cmdTransceive send a v ∨ (a = c.regBitFraming ∧ v ||| c.startSend = v)

/-- A frame with its CRC, whatever the CRC bytes (41_crc.md R87). -/
def FrameWrites (c : Config) (buf : List Byte) (a v : Byte) : Prop :=
  CrcWrites c buf a v ∨ ∃ lo hi, TransceiveWrites c (buf ++ [lo, hi]) a v

/-- Authentication (44_auth_blockio.md R104). -/
def AuthWrites (c : Config) (variant : KeyVariant) (blk : Byte) (key uid : List Byte) (a v : Byte) : Prop :=
  CommandWrites c c.ienAuth c.cmdAuthenticate ((modeByte c variant :: blk :: key) ++ uid.take 4) a v

/-- A re-arm sequence (45_session.md R111). -/
def RearmWrites (items : List RearmItem) (a v : Byte) : Prop :=
  .write a v ∈ items ∨ (∃ m, .set a m ∈ items ∧ v ||| m = v) ∨ (∃ m, .clear a m ∈ items ∧ v &&& m = 0)

/-- Request (43_anticollision_select.md R99). -/
def RequestWrites (c : Config) (a v : Byte) : Prop :=
  (a = c.regBitFraming ∧ v = c.framingShort) ∨ TransceiveWrites c [c.piccReq] a v

/-- Anticollision (43_anticollision_select.md R100). -/
def AnticollWrites (c : Config) (a v : Byte) : Prop :=
  (a = c.regBitFraming ∧ v = c.framingFull) ∨ TransceiveWrites c [0x93, 0x20] a v

/-- The authentication of a session's block under the key chosen (45_session.md R114). -/
def SectorAuthWrites (c : Config) (uid : List Byte) (blk : Byte) (keyA keyB : Option (List Byte)) (a v : Byte) : Prop :=
  ∃ variant key, KeyChosen keyA keyB variant key ∧ AuthWrites c variant blk key uid a v

/-- The writes of an operation. -/
def Writes (c : Config) : Instr → Byte → Byte → Prop
  | .wreg r x, a, v => a = r.addr c ∧ v = x
  | .rreg _, _, _ => False
  | .setb r m, a, v => a = r.addr c ∧ v ||| m = v
  | .clrb r m, a, v => a = r.addr c ∧ v &&& m = 0
  | .calccrc bytes, a, v => CrcWrites c bytes a v
  | .tocardTrx send, a, v => TransceiveWrites c send a v
  | .tocardAuth send, a, v => CommandWrites c c.ienAuth c.cmdAuthenticate send a v
  | .bcc _, _, _ => False
  | .request, a, v => RequestWrites c a v
  | .anticoll, a, v => AnticollWrites c a v
  | .select uid, a, v => FrameWrites c ([0x93, 0x70] ++ uid.take 5) a v
  | .auth variant blk key uid, a, v => AuthWrites c variant blk key uid a v
  | .stopcrypto, a, v => a = c.regStatus2 ∧ v &&& c.crypto1On = 0
  | .sectoraddr _ _, _, _ => False
  | .readblk blk, a, v => FrameWrites c [0x30, blk] a v
  | .writeblk blk data, a, v => FrameWrites c [0xA0, blk] a v ∨ FrameWrites c data a v
  | .rearm, a, v => RearmWrites c.rearmSeq a v
  | .waitcard _, a, v => RearmWrites c.rearmSeq a v ∨ RequestWrites c a v
  | .readuid, a, v => AnticollWrites c a v
  | .readsect uid sector block keyA keyB, a, v =>
    SectorAuthWrites c uid (BitVec.ofNat 8 (sector * 4 + block % 4)) keyA keyB a v ∨
      FrameWrites c [0x30, BitVec.ofNat 8 (sector * 4 + block % 4)] a v
  | .writesect uid sector block data keyA keyB, a, v =>
    SectorAuthWrites c uid (BitVec.ofNat 8 (sector * 4 + block % 4)) keyA keyB a v ∨
      FrameWrites c [0xA0, BitVec.ofNat 8 (sector * 4 + block % 4)] a v ∨ FrameWrites c data a v

/-- The raw operations and those that run the configuration's re-arm sequence, which write where the host or the configuration says. -/
def writesWhereTold : Instr → Bool
  | .wreg _ _ => true
  | .rreg _ => false
  | .setb _ _ => true
  | .clrb _ _ => true
  | .calccrc _ => false
  | .tocardTrx _ => false
  | .tocardAuth _ => false
  | .bcc _ => false
  | .request => false
  | .anticoll => false
  | .select _ => false
  | .auth _ _ _ _ => false
  | .stopcrypto => false
  | .sectoraddr _ _ => false
  | .readblk _ => false
  | .writeblk _ _ => false
  | .rearm => true
  | .waitcard _ => true
  | .readuid => false
  | .readsect _ _ _ _ _ => false
  | .writesect _ _ _ _ _ _ => false

/-- The framing value an operation writes first, if it is one that does (70_reset_and_hazards.md R131). -/
def framingWritten (c : Config) (i : Instr) : Option Byte :=
  if i = .request then some c.framingShort else if i = .anticoll ∨ i = .readuid then some c.framingFull else none

/-! The opcode table. -/

/-- The mask and match of an operation's row of the opcode table: under the default parameters, those of its first transaction
(30_encoding.md R74). The two pure operations have none. -/
def tableRow : Instr → Option (TxnWord × TxnWord)
  | .wreg _ _ => some (0x8100, 0x0000)
  | .rreg _ => some (0x81FF, 0x8000)
  | .setb _ _ => some (0x81FF, 0x8000)
  | .clrb _ _ => some (0x81FF, 0x8000)
  | .calccrc _ => some (0xFFFF, 0x8A00)
  | .tocardTrx _ => some (0xFFFF, 0x04F7)
  | .tocardAuth _ => some (0xFFFF, 0x0492)
  | .bcc _ => none
  | .request => some (0xFFFF, 0x1A07)
  | .anticoll => some (0xFFFF, 0x1A00)
  | .select _ => some (0xFFFF, 0x8A00)
  | .auth _ _ _ _ => some (0xFFFF, 0x0492)
  | .stopcrypto => some (0xFFFF, 0x9000)
  | .sectoraddr _ _ => none
  | .readblk _ => some (0xFFFF, 0x8A00)
  | .writeblk _ _ => some (0xFFFF, 0x8A00)
  | .rearm => some (0xFFFF, 0x020F)
  | .waitcard _ => some (0xFFFF, 0x020F)
  | .readuid => some (0xFFFF, 0x1A00)
  | .readsect _ _ _ _ _ => some (0xFFFF, 0x0492)
  | .writesect _ _ _ _ _ _ => some (0xFFFF, 0x0492)

end Sys2Proof.Machine
end

