-- ==== Sys2Proof/Certificates/Slice0/Obligations.lean ====
section
/-! DEFINITION. The statements for the provers. Each is about every configuration unless it says "default". -/

open Sys2Proof Sys2Proof.Machine

/-! Reset, the step, the marks. -/

/-- 10_state.md R45: the engine state at handle creation; reset is the creation of a handle (70_reset_and_hazards.md R129), which the model
holds in State (log 2). -/
def Obligations.CreationLeavesTheEngineStateOfR45 : Prop :=
  (∀ h : DeviceHandle, (State.create h).cs = false ∧ (State.create h).trace = [] ∧ (State.create h).fault = none ∧
    (State.create h).refused = false ∧ (State.create h).handle = h) ∧
  ∃ h : DeviceHandle, State.reset = State.create h

/-- The invariant holds at the creation of every handle, reset among them. -/
def Obligations.CreationMeetsInvariant : Prop :=
  (∀ h : DeviceHandle, (State.create h).Inv) ∧ State.reset.Inv

/-- Every step keeps the invariant: chip-select deasserted between steps (10_state.md R22), only words the block emits in the trace
(30_encoding.md R69), the fault event once and last exactly when the mark is set (10_state.md R24). -/
def Obligations.StepKeepsInvariant : Prop :=
  ∀ s t : State, s.Inv → step s = .next t → t.Inv

/-- 10_state.md R24: none at reset, the fault information once raised, never cleared, and no further step. That every operation, the pure ones
too, then ends in engineFaulted is the model's reading of it (log 8). -/
def Obligations.FaultMarkIsStickyAndStopsTheEngine : Prop :=
  (∀ h : DeviceHandle, (State.create h).fault = none) ∧
  (∀ (s : State) (f : FaultInfo), s.fault = some f → step s = .fault (.engineFaulted f) ∧ ∀ i, exec i s = .fault (.engineFaulted f)) ∧
  (∀ (i : Instr) (s t : State), exec i s = .next t → ∃ evs, t.trace = s.trace ++ evs ∧ t.fault.toList = faultsOf evs)

/-- A step runs the operation the host's next call decodes to, on the state without that call. -/
def Obligations.StepRunsTheDecodedCall : Prop :=
  ∀ (s : State) (c : HostCall) (rest : List HostCall) (i : Instr), s.fault = none → s.calls = c :: rest → decodeCall c = .ok i →
    step s = exec i { s with calls := rest }

/-- A step runs the operation a table word decodes to. -/
def Obligations.StepRunsTheFetchedWord : Prop :=
  ∀ (s : State) (nbits w : Nat) (i : Instr), s.fault = none → decodeTableWord nbits w = some i →
    step (s.withFetchWord nbits w) = exec i s

/-- A call that is no operation is refused without a transaction, and without a call the block waits (the model's convention, log 10 and
log 11). -/
def Obligations.StepWithoutAnOperation : Prop :=
  (∀ (s : State) (c : HostCall) (rest : List HostCall) (e : CallError), s.fault = none → s.calls = c :: rest → decodeCall c = .error e →
    step s = .next { s with calls := rest, refused := true }) ∧
  (∀ s : State, s.fault = none → s.calls = [] → step s = .next s)

/-- 00_scope.md R10: the checks of a configuration, and the refusal of one that fails them, in the model's form: each operation under it is a
refused call (log 9). -/
def Obligations.IllFormedConfigurationIsRefused : Prop :=
  (∀ c : Config, c.wf = true ↔ (∀ r : Role, (c.addr r).toNat ≤ 63) ∧ 1 ≤ c.pollBudgetCrc ∧ 1 ≤ c.pollBudgetCmd) ∧
  (∀ (i : Instr) (s : State), s.fault = none → s.config.wf = false → exec i s = .next s.markRefused)

/-! Encodings. -/

/-- 20_memory.md R47: only address bits 5..0 reach the chip, so aliased addresses behave alike; and a well-formed configuration's roles do not
depend on it. -/
def Obligations.AliasedAddressesBehaveAlike : Prop :=
  (∀ (a a' v : Byte) (s : State), a.toNat % 64 = a'.toNat % 64 →
    exec (.wreg (.num a) v) s = exec (.wreg (.num a') v) s ∧ exec (.rreg (.num a)) s = exec (.rreg (.num a')) s ∧
    exec (.setb (.num a) v) s = exec (.setb (.num a') v) s ∧ exec (.clrb (.num a) v) s = exec (.clrb (.num a') v) s) ∧
  (∀ (c : Config) (r : Role), c.wf = true → (c.addr r).toNat ≤ 63)

/-- 30_encoding.md R69 with R66 and R67: the decoder reads a write, a read, or refuses; and every word the engine emits is a write or a
read. -/
def Obligations.EmittedWordsDecodeAndOthersAreRefused : Prop :=
  (∀ w : TxnWord, w &&& 0x8100 = 0 → ∃ a v, decodeWord w = .ok (.wreg (.num a) v) ∧ writeWord a v = w ∧ a.toNat ≤ 63) ∧
  (∀ w : TxnWord, w &&& 0x81FF = 0x8000 → ∃ a, decodeWord w = .ok (.rreg (.num a)) ∧ readWord a = w ∧ a.toNat ≤ 63) ∧
  (∀ w : TxnWord, w &&& 0x8100 ≠ 0 → w &&& 0x81FF ≠ 0x8000 → ∃ e, decodeWord w = .error e) ∧
  (∀ bytes : List Byte, bytes.length ≠ 2 → decodeBytes bytes = .error (.notTwoBytes bytes.length)) ∧
  (∀ (i : Instr) (s t : State), exec i s = .next t → ∃ evs, t.trace = s.trace ++ evs ∧
    ∀ e ∈ evs, ∀ w, e.word = some w → w &&& 0x8100 = 0 ∨ w &&& 0x81FF = 0x8000)

/-- Decode and encode agree on the channel, both ways: no address bit and no data bit is dropped. -/
def Obligations.WordDecodeAndEncodeAgree : Prop :=
  (∀ (c : Config) (i : Instr) (w : TxnWord), decodeWord w = .ok i → encodeWords c i = some [w]) ∧
  (∀ (c : Config) (a v : Byte), a.toNat ≤ 63 →
    (∃ w, encodeWords c (.wreg (.num a) v) = some [w] ∧ decodeWord w = .ok (.wreg (.num a) v)) ∧
    (∃ w, encodeWords c (.rreg (.num a)) = some [w] ∧ decodeWord w = .ok (.rreg (.num a))))

/-- Every operation, with every operand the textual form admits, is read back from the line written for it (30_encoding.md R75). -/
def Obligations.LineDecodeAndEncodeAgree : Prop :=
  ∀ i : Instr, i.writable = true → parseLine (encodeLine i) = .ok i

/-- Words and lines the spec writes out (V-TR-2, 30_encoding.md R66, R67, programs P1 to P4). -/
def Obligations.SpecWordsAndLinesDecode : Prop :=
  decodeWord 0x1A07 = .ok (.wreg (.num 0x0D) 0x07) ∧ decodeWord 0x7EFF = .ok (.wreg (.num 0x3F) 0xFF) ∧
  decodeWord 0x8800 = .ok (.rreg (.num 0x04)) ∧ decodeWord 0x1B07 = .error .addressBitZeroSet ∧
  decodeWord 0x8801 = .error (.nonzeroDummy 0x01) ∧
  parseLine "WREG BIT_FRAMING, 0x07".toList = .ok (.wreg (.role .bitFraming) 0x07) ∧
  parseLine "SELECT [04 11 22 33 04]".toList = .ok (.select [0x04, 0x11, 0x22, 0x33, 0x04]) ∧
  parseLine "READSECT [04 11 22 33], 1, 0, A [FF FF FF FF FF FF]".toList =
    .ok (.readsect [0x04, 0x11, 0x22, 0x33] 1 0 (some [0xFF, 0xFF, 0xFF, 0xFF, 0xFF, 0xFF]) none)

/-- 30_encoding.md R74: under the default parameters the first transaction of an operation matches its row of the opcode table, and the pure
operations make none. -/
def Obligations.FirstTransactionMatchesTheTableRow : Prop :=
  (∀ (i : Instr) (s t : State) (mask m w : TxnWord) (e : Event) (evs : List Event), s.config = defaultConfig → exec i s = .next t →
    tableRow i = some (mask, m) → t.trace = s.trace ++ e :: evs → e.word = some w → w &&& mask = m) ∧
  (∀ (i : Instr) (s t : State), exec i s = .next t → tableRow i = none → t.trace = s.trace)

/-! Transport. -/

/-- 40_transport.md R77. -/
def Obligations.WregSendsOneWrite : Prop :=
  ∀ (s : State) (r : RegRef) (v : Byte), Performs (.wreg r v) s [] [wr (r.addr s.config) v] .unit

/-- 40_transport.md R78. -/
def Obligations.RregReturnsTheSecondByte : Prop :=
  ∀ (s : State) (r : RegRef) (b : Byte), Performs (.rreg r) s [b] [rd (r.addr s.config) b] (.byte b)

/-- 40_transport.md R79. -/
def Obligations.SetbReadsThenWritesWithTheBits : Prop :=
  ∀ (s : State) (r : RegRef) (m v : Byte),
    Performs (.setb r m) s [v] [rd (r.addr s.config) v, wr (r.addr s.config) (v ||| m)] .unit

/-- 40_transport.md R80. -/
def Obligations.ClrbReadsThenWritesWithoutTheBits : Prop :=
  ∀ (s : State) (r : RegRef) (m v : Byte),
    Performs (.clrb r m) s [v] [rd (r.addr s.config) v, wr (r.addr s.config) (v &&& ~~~m)] .unit

/-- Where no answer is scripted, a read returns the free value of the oracle at the trace so far (10_state.md R21; the model's form of it,
log 5). -/
def Obligations.UnscriptedReadTakesTheOracle : Prop :=
  ∀ (s : State) (r : RegRef), s.Ready → s.Quiet 1 → s.answers = [] →
    exec (.rreg r) s = .next ((s.after
      [rd (r.addr s.config) (Config.oracle s.trace ((r.addr s.config).setWidth 6) s.draws)] []).returnResult
      (.byte (Config.oracle s.trace ((r.addr s.config).setWidth 6) s.draws)))

/-! CRC. -/

/-- 41_crc.md R83 and R84, with R83's transaction count: the poll reads run to the first with the bit, or to the budget. -/
def Obligations.CalccrcDrivesTheCoprocessor : Prop :=
  ∀ (s : State) (bytes ans : List Byte) (evs : List Event) (r : CrcResult), CrcScript s.config bytes ans evs r →
    Performs (.calccrc bytes) s ans evs (.crc r) ∧
    ∃ before polls n after, evs = before ++ polls.map (rd s.config.regCrcIrq) ++ after ∧
      PollScript s.config.crcIrq s.config.pollBudgetCrc polls r.done n ∧ 1 ≤ polls.length ∧ polls.length ≤ s.config.pollBudgetCrc ∧
      transactions before = 5 + bytes.length ∧ after = [rd s.config.regCrcResultL r.lo, rd s.config.regCrcResultH r.hi] ∧
      transactions evs = 7 + bytes.length + polls.length

/-- The byte-wise form of `CRC_A` is the bit-wise form (41_crc.md R85, which marks both as general knowledge). -/
def Obligations.CrcFormsAgree : Prop :=
  ∀ bytes : List Byte, crcAFast bytes = crcA bytes

/-! ToCard. -/

/-- 42_command_executor.md R90 with R91 to R97, for both kinds. -/
def Obligations.TocardRunsTheCommand : Prop :=
  (∀ (s : State) (send ans : List Byte) (evs : List Event) (r : ExecResult), ToCardScript s.config send .transceive ans evs r →
    Performs (.tocardTrx send) s ans evs (.exec r)) ∧
  (∀ (s : State) (send ans : List Byte) (evs : List Event) (r : ExecResult), ToCardScript s.config send .authenticate ans evs r →
    Performs (.tocardAuth send) s ans evs (.exec r))

/-- No answers are left out: on answers of any content, long enough, each kind of ToCard runs some script of 42_command_executor.md R90 that
they begin with, within the bound. -/
def Obligations.EveryAnswerListIsAScript : Prop :=
  ∀ (s : State) (i : Instr) (kind : ExecKind) (send : List Byte),
    (kind = .transceive ∧ i = .tocardTrx send) ∨ (kind = .authenticate ∧ i = .tocardAuth send) →
    s.Ready → s.Quiet (toCardBound s.config send.length) → toCardBound s.config send.length ≤ s.answers.length →
    ∃ ans rest evs r, s.answers = ans ++ rest ∧ ToCardScript s.config send kind ans evs r ∧
      transactions evs ≤ toCardBound s.config send.length ∧ exec i s = .next ((s.after evs rest).returnResult (.exec r))

/-- The transaction counts of 42_command_executor.md R90's table, of the events each kind of ToCard appends when no channel fault ends it. The
poll's reads stand after the events of steps 1 to 4 and run to the first with a bit of the poll's mask, or to the budget (R91). -/
def Obligations.TocardTransactionCounts : Prop :=
  (∀ (s t : State) (send : List Byte), s.Ready → exec (.tocardTrx send) s = .next t → t.fault = none →
    ∃ before polls hit n after r, t.trace = s.trace ++ (before ++ polls.map (rd s.config.regIrqStatus) ++ after) ∧
      t.results = s.results ++ [.exec r] ∧ transactions before = 9 + send.length ∧
      PollScript (s.config.timerIrq ||| s.config.waitTransceive) s.config.pollBudgetCmd polls hit n ∧
      (hit = false ↔ r.status = .failed .timeout) ∧ 1 ≤ polls.length ∧ polls.length ≤ s.config.pollBudgetCmd ∧
      match r.status with
      | .failed .timeout => polls.length = s.config.pollBudgetCmd ∧
          transactions (before ++ polls.map (rd s.config.regIrqStatus) ++ after) = 11 + send.length + polls.length
      | .failed _ => transactions (before ++ polls.map (rd s.config.regIrqStatus) ++ after) = 12 + send.length + polls.length
      | .success => transactions (before ++ polls.map (rd s.config.regIrqStatus) ++ after) =
          14 + send.length + polls.length + r.frame.length) ∧
  (∀ (s t : State) (send : List Byte), s.Ready → exec (.tocardAuth send) s = .next t → t.fault = none →
    ∃ before polls hit n after r, t.trace = s.trace ++ (before ++ polls.map (rd s.config.regIrqStatus) ++ after) ∧
      t.results = s.results ++ [.exec r] ∧ transactions before = 7 + send.length ∧
      PollScript (s.config.timerIrq ||| s.config.waitAuth) s.config.pollBudgetCmd polls hit n ∧
      (hit = false ↔ r.status = .failed .timeout) ∧ 1 ≤ polls.length ∧ polls.length ≤ s.config.pollBudgetCmd ∧
      match r.status with
      | .failed .timeout => polls.length = s.config.pollBudgetCmd ∧
          transactions (before ++ polls.map (rd s.config.regIrqStatus) ++ after) = 9 + send.length + polls.length
      | .failed _ => transactions (before ++ polls.map (rd s.config.regIrqStatus) ++ after) = 10 + send.length + polls.length
      | .success => transactions (before ++ polls.map (rd s.config.regIrqStatus) ++ after) = 10 + send.length + polls.length)

/-- 42_command_executor.md R89: ToCard of another kind is refused; of the two admitted kinds it is TOCARD.TRX and TOCARD.AUTH. -/
def Obligations.TocardOfAnotherKindIsRefused : Prop :=
  ∀ (s : State) (rest : List HostCall) (send : List Byte), s.fault = none →
    (∀ kind, kind = .idle ∨ kind = .calculateCrc ∨ kind = .reset → s.calls = .tocard kind send :: rest →
      step s = .next { s with calls := rest, refused := true }) ∧
    (s.calls = .tocard .transceive send :: rest → step s = exec (.tocardTrx send) { s with calls := rest }) ∧
    (s.calls = .tocard .authenticate send :: rest → step s = exec (.tocardAuth send) { s with calls := rest })

/-- 42_command_executor.md R95: the range of the bit count, when it is a multiple of 8, and the only counts the acceptance tests take. -/
def Obligations.ValidBitsRange : Prop :=
  ∀ c control : Byte, -7 ≤ validBits c control ∧ validBits c control ≤ 2040 ∧
    (control &&& 0x07 = 0 → validBits c control = 8 * (c.toNat : Int)) ∧
    (control &&& 0x07 ≠ 0 → validBits c control = 8 * ((c.toNat : Int) - 1) + ((control &&& 0x07).toNat : Int)) ∧
    (validBits c control = 16 ↔ c = 2 ∧ control &&& 0x07 = 0) ∧ (validBits c control = 24 ↔ c = 3 ∧ control &&& 0x07 = 0) ∧
    (validBits c control < 0 ↔ c = 0 ∧ control &&& 0x07 ≠ 0)

/-- 42_command_executor.md R93: exactly the bits of 0x1B are tested, so a CRC error alone is not reported. -/
def Obligations.ErrorTestReadsFourBits : Prop :=
  ∀ e : Byte, errorReported e = (e.getLsbD 4 || e.getLsbD 3 || e.getLsbD 1 || e.getLsbD 0)

/-- 42_command_executor.md R92: in every ToCard that no fault ends, whatever its outcome and whatever the chip answers, "start send" is
cleared by a read-modify-write after which bit-framing is not written again. -/
def Obligations.StartSendIsClearedUnconditionally : Prop :=
  ∀ (i : Instr) (send : List Byte) (s t : State), i = .tocardTrx send ∨ i = .tocardAuth send → s.Ready → exec i s = .next t →
    t.fault = none → ∃ pre r post, t.trace = s.trace ++ pre ++
      [rd s.config.regBitFraming r, wr s.config.regBitFraming (r &&& ~~~s.config.startSend)] ++ post ∧
      lastWrite (s.config.regBitFraming.setWidth 6) post = none

/-- 70_reset_and_hazards.md R133, under the default parameters: a poll ended by the timer bit alone, with no tested error bit, is AuthOk. -/
def Obligations.AuthOkOnTheTimerBit : Prop :=
  ∀ (s : State) (variant : KeyVariant) (blk irq level framing e : Byte) (key uid rest : List Byte), s.fault = none →
    s.config = defaultConfig → s.Quiet 23 → key.length = 6 → 4 ≤ uid.length → e &&& 0x1B = 0 →
    s.answers = [irq, level, 0x01, framing, e] ++ rest →
    ∃ t, exec (.auth variant blk key uid) s = .next t ∧ t.results = s.results ++ [.auth .authOk] ∧ t.answers = rest

/-! The framer. -/

/-- 43_anticollision_select.md R98. -/
def Obligations.BccIsTheXorOfFourBytes : Prop :=
  (∀ (s : State) (u0 u1 u2 u3 : Byte), Performs (.bcc [u0, u1, u2, u3]) s [] [] (.byte (u0 ^^^ u1 ^^^ u2 ^^^ u3))) ∧
  (∀ (s : State) (u : List Byte), u.length ≠ 4 → Refuses (.bcc u) s) ∧
  (∀ u0 u1 u2 u3 u4 : Byte, u4 = bccOf u0 u1 u2 u3 ↔ xorFold [u0, u1, u2, u3, u4] = 0)

/-- 43_anticollision_select.md R99. -/
def Obligations.RequestDetectsSixteenBits : Prop :=
  ∀ (s : State) (ans : List Byte) (evs : List Event) (r : RequestResult), RequestScript s.config ans evs r →
    Performs .request s ans evs (.request r)

/-- 43_anticollision_select.md R100. -/
def Obligations.AnticollResolvesTheUid : Prop :=
  ∀ (s : State) (ans : List Byte) (evs : List Event) (r : AnticollResult), AnticollScript s.config ans evs r →
    Performs .anticoll s ans evs (.anticoll r)

/-- 43_anticollision_select.md R102. -/
def Obligations.SelectTakesThreeBytesAndTwentyFourBits : Prop :=
  ∀ (s : State) (uid ans : List Byte) (evs : List Event) (r : ExecResult), FrameScript s.config ([0x93, 0x70] ++ uid.take 5) ans evs r →
    Performs (.select uid) s ans evs
      (.select (if r.status = .success ∧ r.frame.length = 3 ∧ r.validBits = 24 then .ok r.frame else .selectFailed))

/-! Authentication and block I/O. -/

/-- 44_auth_blockio.md R104. -/
def Obligations.AuthSendsKeyAndUid : Prop :=
  (∀ (s : State) (variant : KeyVariant) (blk : Byte) (key uid ans : List Byte) (evs : List Event) (r : AuthResult), key.length = 6 →
    4 ≤ uid.length → AuthScript s.config variant blk key uid ans evs r → Performs (.auth variant blk key uid) s ans evs (.auth r)) ∧
  (∀ (s : State) (variant : KeyVariant) (blk : Byte) (key uid : List Byte), key.length ≠ 6 ∨ uid.length < 4 →
    Refuses (.auth variant blk key uid) s)

/-- 44_auth_blockio.md R105. -/
def Obligations.StopcryptoClearsTheCryptoBit : Prop :=
  ∀ (s : State) (v : Byte), Performs .stopcrypto s [v]
    [rd s.config.regStatus2 v, wr s.config.regStatus2 (v &&& ~~~s.config.crypto1On)] .unit

/-- 44_auth_blockio.md R106. -/
def Obligations.SectoraddrIsPureAndBounded : Prop :=
  ∀ (s : State) (sector block : Nat), Performs (.sectoraddr sector block) s [] []
    (.sectorAddr (if sector * 4 + block % 4 ≤ 63 then .block (sector * 4 + block % 4) else .blockOutOfRange))

/-- 44_auth_blockio.md R107. -/
def Obligations.ReadblkReturnsSixteenBytes : Prop :=
  ∀ (s : State) (a : Byte) (ans : List Byte) (evs : List Event) (r : ReadResult), ReadScript s.config a ans evs r →
    Performs (.readblk a) s ans evs (.readBlock r)

/-- 44_auth_blockio.md R108. -/
def Obligations.WriteblkNeedsBothAcknowledges : Prop :=
  (∀ (s : State) (a : Byte) (data ans : List Byte) (evs : List Event) (r : WriteResult), data.length = 16 →
    WriteScript s.config a data ans evs r → Performs (.writeblk a data) s ans evs (.writeBlock r)) ∧
  (∀ (s : State) (a : Byte) (data : List Byte), data.length ≠ 16 → Refuses (.writeblk a data) s)

/-- 44_auth_blockio.md R109, the loopback premise being in the answers: a block written and then answered back is read back. -/
def Obligations.LoopbackReadsBackWhatWasWritten : Prop :=
  ∀ (s : State) (a : Byte) (data ansW ansR rest : List Byte) (evsW evsR : List Event) (vb : Int), data.length = 16 → s.Ready →
    WriteScript s.config a data ansW evsW .written → FrameScript s.config [0x30, a] ansR evsR ⟨.success, data, vb⟩ →
    s.answers = ansW ++ ansR ++ rest → s.Quiet (transactions evsW + transactions evsR) →
    ∃ t u, exec (.writeblk a data) s = .next t ∧ exec (.readblk a) t = .next u ∧
      u.results = s.results ++ [.writeBlock .written, .readBlock (.data data)]

/-! The session. -/

/-- 45_session.md R111; the last clause is the default sequence, which the spec marks as general knowledge. -/
def Obligations.RearmRunsTheSequence : Prop :=
  (∀ (s : State) (ans : List Byte) (evs : List Event), RearmScript s.config.rearmSeq ans evs → Performs .rearm s ans evs .unit) ∧
  (∀ r : Byte, RearmScript defaultConfig.rearmSeq [r]
    [wr 0x01 0x0F, wr 0x2A 0x8D, wr 0x2B 0x3E, wr 0x2D 0x1E, wr 0x2C 0x00, wr 0x15 0x40, wr 0x11 0x3D, rd 0x14 r, wr 0x14 (r ||| 0x03)])

/-- 45_session.md R112: the loop, and by its termination note (derived there; log 19) its attempts: on Timeout `N` sleeps reach the deadline,
on Detected fewer, within the deadline. -/
def Obligations.WaitcardRepeatsUntilTheDeadline : Prop :=
  ∀ (s : State) (t : Int) (ans : List Byte) (evs : List Event) (r : WaitResult), WaitScript s.config t 0 ans evs r →
    Performs (.waitcard t) s ans evs (.waitCard r) ∧
    (r = .timeout → (sleeps evs : Int) = max 1 ((t + 99) / 100) ∧ (100 * sleeps evs : Int) ≥ t) ∧
    (r = .detected → (sleeps evs : Int) < max 1 ((t + 99) / 100) ∧ (sleeps evs = 0 ∨ (100 * sleeps evs : Int) < t))

/-- 45_session.md R113: the digit of a nibble is taken from "0123456789abcdef". -/
def Obligations.ReaduidFormatsFourBytes : Prop :=
  (∀ (s : State) (ans : List Byte) (evs : List Event) (u0 u1 u2 u3 u4 : Byte),
    AnticollScript s.config ans evs (.ok [u0, u1, u2, u3, u4]) →
    ∃ text, Performs .readuid s ans evs (.readUid (.uid text)) ∧
      text.map some = [u0, u1, u2, u3].flatMap fun b =>
        ["0123456789abcdef".toList[b.toNat / 16]?, "0123456789abcdef".toList[b.toNat % 16]?]) ∧
  (∀ (s : State) (ans : List Byte) (evs : List Event) (f : AnticollFailure), AnticollScript s.config ans evs (.failed f) →
    Performs .readuid s ans evs (.readUid (.uidError f)))

/-- 45_session.md R114: key, range, authentication, read, in that order. A bad key length or a short UID is refused where Auth is reached, after
the range check: the model's reading (log 22). -/
def Obligations.ReadsectChecksThenReads : Prop :=
  ∀ (s : State) (uid : List Byte) (sector block : Nat),
    Performs (.readsect uid sector block none none) s [] [] (.readSector (.failed .noKey)) ∧
    ∀ (keyA keyB : Option (List Byte)) (variant : KeyVariant) (key : List Byte), KeyChosen keyA keyB variant key →
      (sector * 4 + block % 4 > 63 → Performs (.readsect uid sector block keyA keyB) s [] [] (.readSector (.failed .blockOutOfRange))) ∧
      (sector * 4 + block % 4 ≤ 63 → (key.length ≠ 6 ∨ uid.length < 4) → Refuses (.readsect uid sector block keyA keyB) s) ∧
      (sector * 4 + block % 4 ≤ 63 → key.length = 6 → 4 ≤ uid.length → ∀ a : Byte, a = BitVec.ofNat 8 (sector * 4 + block % 4) →
        (∀ ans evs, AuthScript s.config variant a key uid ans evs .authFailed →
          Performs (.readsect uid sector block keyA keyB) s ans evs (.readSector (.failed .authFailed))) ∧
        (∀ ans evs ans' evs' data, AuthScript s.config variant a key uid ans evs .authOk → ReadScript s.config a ans' evs' (.data data) →
          Performs (.readsect uid sector block keyA keyB) s (ans ++ ans') (evs ++ evs') (.readSector (.data data))) ∧
        (∀ ans evs ans' evs', AuthScript s.config variant a key uid ans evs .authOk → ReadScript s.config a ans' evs' .readError →
          Performs (.readsect uid sector block keyA keyB) s (ans ++ ans') (evs ++ evs') (.readSector (.failed .readError))))

/-- 45_session.md R115: data length, key, range, authentication, write, in that order. A bad key length or a short UID is refused where Auth is
reached, after the range check: the model's reading (log 22). -/
def Obligations.WritesectChecksThenWrites : Prop :=
  ∀ (s : State) (uid : List Byte) (sector block : Nat) (data : List Byte),
    (data.length ≠ 16 → ∀ keyA keyB, Refuses (.writesect uid sector block data keyA keyB) s) ∧
    (data.length = 16 → Performs (.writesect uid sector block data none none) s [] [] (.writeSector (.failed .noKey))) ∧
    ∀ (keyA keyB : Option (List Byte)) (variant : KeyVariant) (key : List Byte), data.length = 16 → KeyChosen keyA keyB variant key →
      (sector * 4 + block % 4 > 63 →
        Performs (.writesect uid sector block data keyA keyB) s [] [] (.writeSector (.failed .blockOutOfRange))) ∧
      (sector * 4 + block % 4 ≤ 63 → (key.length ≠ 6 ∨ uid.length < 4) → Refuses (.writesect uid sector block data keyA keyB) s) ∧
      (sector * 4 + block % 4 ≤ 63 → key.length = 6 → 4 ≤ uid.length → ∀ a : Byte, a = BitVec.ofNat 8 (sector * 4 + block % 4) →
        (∀ ans evs, AuthScript s.config variant a key uid ans evs .authFailed →
          Performs (.writesect uid sector block data keyA keyB) s ans evs (.writeSector (.failed .authFailed))) ∧
        (∀ ans evs ans' evs', AuthScript s.config variant a key uid ans evs .authOk →
          WriteScript s.config a data ans' evs' .written →
          Performs (.writesect uid sector block data keyA keyB) s (ans ++ ans') (evs ++ evs') (.writeSector .written)) ∧
        (∀ ans evs ans' evs' phase, AuthScript s.config variant a key uid ans evs .authOk →
          WriteScript s.config a data ans' evs' (.writeRejected phase) →
          Performs (.writesect uid sector block data keyA keyB) s (ans ++ ans') (evs ++ evs')
            (.writeSector (.failed (.writeRejected phase)))))

/-! All operations. -/

/-- Every operation with well-formed operands completes: in every ready state whose channel fails none of its transactions, whatever the
chip answers, scripted or not, it returns one result and touches neither mark. -/
def Obligations.WellFormedCallsComplete : Prop :=
  ∀ (i : Instr) (s : State), i.wf = true → s.Ready → s.Quiet (maxTransactions s.config i) →
    ∃ t r, exec i s = .next t ∧ t.results = s.results ++ [r] ∧ t.fault = none ∧ t.refused = s.refused ∧ t.handle = s.handle

/-- The frame of every operation, and the three ways it ends: with one result; refused, with the mark alone changed; or at a channel fault,
with the fault event last and no result. -/
def Obligations.CallsEndInOneOfThreeWays : Prop :=
  ∀ (i : Instr) (s t : State), exec i s = .next t →
    s.fault = none ∧ t.handle = s.handle ∧ t.calls = s.calls ∧
    ∃ evs, t.trace = s.trace ++ evs ∧ t.answers = s.answers.drop (readsIn evs) ∧
      ((∃ r, t.results = s.results ++ [r] ∧ t.fault = none ∧ t.refused = s.refused ∧ faultsOf evs = [] ∧
          t.draws = s.draws + transactions evs ∧ t.failures = s.failures.drop (transactions evs) ∧
          t.cs = if transactions evs = 0 then s.cs else false) ∨
        (t = s.markRefused ∧ evs = []) ∨
        (∃ f pre, evs = pre ++ [.fault f] ∧ faultsOf pre = [] ∧ t.fault = some f ∧ t.results = s.results ∧ t.refused = s.refused ∧
          t.cs = false ∧ s.config.channelCanFault = true ∧ t.draws = s.draws + transactions pre + 1 ∧
          t.failures = s.failures.drop (transactions pre + 1)))

/-- An operation whose operands have the lengths the spec asks for is never refused (10_state.md R25). -/
def Obligations.WellFormedCallsAreNeverRefused : Prop :=
  ∀ (i : Instr) (s t : State), i.wf = true → s.Ready → exec i s = .next t → t.refused = s.refused

/-- No operation makes more transactions than its bound (70_reset_and_hazards.md R139), and under the default parameters the bounds of a
read and a write are those of its table. -/
def Obligations.TransactionsAreBounded : Prop :=
  (∀ (i : Instr) (s t : State), exec i s = .next t → ∃ evs, t.trace = s.trace ++ evs ∧ transactions evs ≤ maxTransactions s.config i) ∧
  (∀ a data, maxTransactions defaultConfig (.readblk a) = 2298 ∧ maxTransactions defaultConfig (.writeblk a data) = 4624)

/-- Sleep occurs only in WAITCARD, and always for 100 ms (45_session.md R110). -/
def Obligations.OnlyWaitcardSleeps : Prop :=
  ∀ (i : Instr) (s t : State), exec i s = .next t → ∃ evs, t.trace = s.trace ++ evs ∧
    (∀ ms, .sleep ms ∈ evs → ms = 100) ∧ ((∀ n, i ≠ .waitcard n) → sleeps evs = 0)

/-- 70_reset_and_hazards.md R131, where the configuration gives bit-framing an address of its own. Beyond "start send" only these change
bit-framing: REQUEST, ANTICOLL and READUID, by one write before all else; REARM and WAITCARD, which run the configuration's sequence; and WREG,
SETB and CLRB of bit-framing itself. -/
def Obligations.FramingPersists : Prop :=
  ∀ (i : Instr) (s t : State), s.Ready →
    (∀ r : Role, r = .irqEnable ∨ r = .irqStatus ∨ r = .crcIrq ∨ r = .fifoLevel ∨ r = .fifoData ∨ r = .command →
      s.config.addr r ≠ s.config.regBitFraming) →
    (i = .stopcrypto → s.config.regStatus2 ≠ s.config.regBitFraming) → exec i s = .next t →
    ∃ evs, t.trace = s.trace ++ evs ∧
      (writesWhereTold i = false → framingWritten s.config i = none →
        TouchesOnlyBits s.config.regBitFraming s.config.startSend evs) ∧
      (∀ v, framingWritten s.config i = some v → ∃ first later, evs = first :: later ∧
        (first = wr s.config.regBitFraming v ∨ first = .fault (.channelFault (s.config.regBitFraming.setWidth 6) .write)) ∧
        TouchesOnlyBits s.config.regBitFraming s.config.startSend later) ∧
      (∀ r v, i = .wreg r v ∨ i = .setb r v ∨ i = .clrb r v →
        ((r.addr s.config).setWidth 6 : RegAddr) ≠ s.config.regBitFraming.setWidth 6 →
        lastWrite (s.config.regBitFraming.setWidth 6) evs = none)

/-- 30_encoding.md R70 and 70_reset_and_hazards.md R132, and the "State written" of every rule: an operation writes only the registers, and to
them only the values, of its own rule; so status2 (the crypto session), where it has an address of its own, is written only by STOPCRYPTO, by a
raw operation, and by a re-arm sequence. -/
def Obligations.OperationsWriteOnlyTheirRegisters : Prop :=
  ∀ (i : Instr) (s t : State), exec i s = .next t → ∃ evs, t.trace = s.trace ++ evs ∧
    (∀ a6 b1 v r2, .xfer .write a6 b1 v r2 ∈ evs → ∃ a : Byte, a6 = a.setWidth 6 ∧ Writes s.config i a v) ∧
    ((∀ r : Role, r = .command ∨ r = .irqEnable ∨ r = .irqStatus ∨ r = .crcIrq ∨ r = .fifoLevel ∨ r = .fifoData ∨ r = .bitFraming →
        ((s.config.addr r).setWidth 6 : RegAddr) ≠ s.config.regStatus2.setWidth 6) →
      i ≠ .stopcrypto → writesWhereTold i = false → lastWrite (s.config.regStatus2.setWidth 6) evs = none)

/-- 60_exceptions.md R116: the code of every outcome. -/
def Obligations.FailureCodesAreThoseOfTheTable : Prop :=
  (∀ (addr : RegAddr) (dir : Direction), (FaultInfo.channelFault addr dir).code = 1) ∧
  OpResult.unit.code = 0 ∧ (∀ b, (OpResult.byte b).code = 0) ∧ (∀ r, (OpResult.crc r).code = 0) ∧ (OpResult.request .detected).code = 0 ∧
  (∀ u, (OpResult.anticoll (.ok u)).code = 0) ∧ (∀ sak, (OpResult.select (.ok sak)).code = 0) ∧ (OpResult.auth .authOk).code = 0 ∧
  (∀ a, (OpResult.sectorAddr (.block a)).code = 0) ∧ (∀ d, (OpResult.readBlock (.data d)).code = 0) ∧
  (OpResult.writeBlock .written).code = 0 ∧ (∀ text, (OpResult.readUid (.uid text)).code = 0) ∧
  (∀ d, (OpResult.readSector (.data d)).code = 0) ∧ (OpResult.writeSector .written).code = 0 ∧
  (∀ frame vb, (OpResult.exec ⟨.success, frame, vb⟩).code = 0 ∧ (OpResult.exec ⟨.failed .timeout, frame, vb⟩).code = 2 ∧
    (OpResult.exec ⟨.failed .noTagError, frame, vb⟩).code = 3 ∧ ∀ e, (OpResult.exec ⟨.failed (.errorReported e), frame, vb⟩).code = 4) ∧
  (OpResult.waitCard .timeout).code = 2 ∧ (OpResult.waitCard .detected).code = 0 ∧
  (∀ frame, (OpResult.anticoll (.failed (.checksumMismatch frame))).code = 5) ∧
  (∀ n, (OpResult.anticoll (.failed (.wrongLength n))).code = 11) ∧
  (∀ f frame vb, (OpResult.anticoll (.failed (.execFailed f))).code = (OpResult.exec ⟨.failed f, frame, vb⟩).code) ∧
  (∀ f, (OpResult.readUid (.uidError f)).code = (OpResult.anticoll (.failed f)).code) ∧
  (OpResult.select .selectFailed).code = 6 ∧ (OpResult.auth .authFailed).code = 7 ∧ (OpResult.readBlock .readError).code = 8 ∧
  (∀ phase, (OpResult.writeBlock (.writeRejected phase)).code = 9) ∧ (OpResult.request .noCard).code = 10 ∧
  (OpResult.sectorAddr .blockOutOfRange).code = 13 ∧
  (OpResult.readSector (.failed .authFailed)).code = 7 ∧ (OpResult.readSector (.failed .readError)).code = 8 ∧
  (OpResult.readSector (.failed .noKey)).code = 12 ∧ (OpResult.readSector (.failed .blockOutOfRange)).code = 13 ∧
  (OpResult.writeSector (.failed .authFailed)).code = 7 ∧ (∀ phase, (OpResult.writeSector (.failed (.writeRejected phase))).code = 9) ∧
  (OpResult.writeSector (.failed .noKey)).code = 12 ∧ (OpResult.writeSector (.failed .blockOutOfRange)).code = 13

/-- No value survives from one operation to the next inside the engine (10_state.md R17, R28): two engines of one handle with the same answers
and failures ahead of them make the same events and return the same, whatever they did before. -/
def Obligations.OperationsDependOnlyOnTheAnswers : Prop :=
  ∀ (i : Instr) (s s' t t' : State), s.handle = s'.handle → s.answers = s'.answers → s.failures = s'.failures →
    maxTransactions s.config i ≤ s.answers.length →
    (s.config.channelCanFault = false ∨ maxTransactions s.config i ≤ s.failures.length) →
    exec i s = .next t → exec i s' = .next t' →
    ∃ evs res, t.trace = s.trace ++ evs ∧ t'.trace = s'.trace ++ evs ∧ t.results = s.results ++ res ∧ t'.results = s'.results ++ res ∧
      t.fault = t'.fault ∧ t.answers = t'.answers

/-- 10_state.md R17: an operation as one function and as a step relation over events agree; and one step of the engine is at most one
event. -/
def Obligations.EventStepsAgreeWithTheRun : Prop :=
  ∀ (α : Type) (p : Prog α) (s : State),
    Stage.steps ((p.run s).state.trace.length - s.trace.length + 1) (.at p s) = .ended (p.run s) ∧
    ∀ g : Stage α, g.next.state.trace.length ≤ g.state.trace.length + 1
end

