-- ==== Sys2Proof/Laws/State.lean ====
section
/-! SUPPORT. One lemma per field per update of State, so that no later proof unfolds a record update; and what a transaction does. -/

namespace Sys2Proof.Machine

@[simp] theorem State.config_mk (h : DeviceHandle) (cs : Bool) (trace : List Event) (fault : Option FaultInfo) (refused : Bool)
    (answers : List Byte) (failures : List Bool) (draws : Nat) (calls : List HostCall) (results : List OpResult) :
    (State.mk h cs trace fault refused answers failures draws calls results).config = h.config := rfl

section Updates
variable (s : State) (e : Event) (f : FaultInfo) (r : OpResult) (c : HostCall)

@[simp] theorem State.selectChip_handle : s.selectChip.handle = s.handle := rfl
@[simp] theorem State.selectChip_config : s.selectChip.config = s.config := rfl
@[simp] theorem State.selectChip_cs : s.selectChip.cs = true := rfl
@[simp] theorem State.selectChip_trace : s.selectChip.trace = s.trace := rfl
@[simp] theorem State.selectChip_fault : s.selectChip.fault = s.fault := rfl
@[simp] theorem State.selectChip_refused : s.selectChip.refused = s.refused := rfl
@[simp] theorem State.selectChip_answers : s.selectChip.answers = s.answers := rfl
@[simp] theorem State.selectChip_failures : s.selectChip.failures = s.failures := rfl
@[simp] theorem State.selectChip_draws : s.selectChip.draws = s.draws := rfl
@[simp] theorem State.selectChip_calls : s.selectChip.calls = s.calls := rfl
@[simp] theorem State.selectChip_results : s.selectChip.results = s.results := rfl

@[simp] theorem State.deselectChip_handle : s.deselectChip.handle = s.handle := rfl
@[simp] theorem State.deselectChip_config : s.deselectChip.config = s.config := rfl
@[simp] theorem State.deselectChip_cs : s.deselectChip.cs = false := rfl
@[simp] theorem State.deselectChip_trace : s.deselectChip.trace = s.trace := rfl
@[simp] theorem State.deselectChip_fault : s.deselectChip.fault = s.fault := rfl
@[simp] theorem State.deselectChip_refused : s.deselectChip.refused = s.refused := rfl
@[simp] theorem State.deselectChip_answers : s.deselectChip.answers = s.answers := rfl
@[simp] theorem State.deselectChip_failures : s.deselectChip.failures = s.failures.tail := rfl
@[simp] theorem State.deselectChip_draws : s.deselectChip.draws = s.draws + 1 := rfl
@[simp] theorem State.deselectChip_calls : s.deselectChip.calls = s.calls := rfl
@[simp] theorem State.deselectChip_results : s.deselectChip.results = s.results := rfl

@[simp] theorem State.dropAnswer_handle : s.dropAnswer.handle = s.handle := rfl
@[simp] theorem State.dropAnswer_config : s.dropAnswer.config = s.config := rfl
@[simp] theorem State.dropAnswer_cs : s.dropAnswer.cs = s.cs := rfl
@[simp] theorem State.dropAnswer_trace : s.dropAnswer.trace = s.trace := rfl
@[simp] theorem State.dropAnswer_fault : s.dropAnswer.fault = s.fault := rfl
@[simp] theorem State.dropAnswer_refused : s.dropAnswer.refused = s.refused := rfl
@[simp] theorem State.dropAnswer_answers : s.dropAnswer.answers = s.answers.tail := rfl
@[simp] theorem State.dropAnswer_failures : s.dropAnswer.failures = s.failures := rfl
@[simp] theorem State.dropAnswer_draws : s.dropAnswer.draws = s.draws := rfl
@[simp] theorem State.dropAnswer_calls : s.dropAnswer.calls = s.calls := rfl
@[simp] theorem State.dropAnswer_results : s.dropAnswer.results = s.results := rfl

@[simp] theorem State.record_handle : (s.record e).handle = s.handle := rfl
@[simp] theorem State.record_config : (s.record e).config = s.config := rfl
@[simp] theorem State.record_cs : (s.record e).cs = s.cs := rfl
@[simp] theorem State.record_trace : (s.record e).trace = s.trace ++ [e] := rfl
@[simp] theorem State.record_fault : (s.record e).fault = s.fault := rfl
@[simp] theorem State.record_refused : (s.record e).refused = s.refused := rfl
@[simp] theorem State.record_answers : (s.record e).answers = s.answers := rfl
@[simp] theorem State.record_failures : (s.record e).failures = s.failures := rfl
@[simp] theorem State.record_draws : (s.record e).draws = s.draws := rfl
@[simp] theorem State.record_calls : (s.record e).calls = s.calls := rfl
@[simp] theorem State.record_results : (s.record e).results = s.results := rfl

@[simp] theorem State.raiseFault_handle : (s.raiseFault f).handle = s.handle := rfl
@[simp] theorem State.raiseFault_config : (s.raiseFault f).config = s.config := rfl
@[simp] theorem State.raiseFault_cs : (s.raiseFault f).cs = s.cs := rfl
@[simp] theorem State.raiseFault_trace : (s.raiseFault f).trace = s.trace ++ [.fault f] := rfl
@[simp] theorem State.raiseFault_fault : (s.raiseFault f).fault = some f := rfl
@[simp] theorem State.raiseFault_refused : (s.raiseFault f).refused = s.refused := rfl
@[simp] theorem State.raiseFault_answers : (s.raiseFault f).answers = s.answers := rfl
@[simp] theorem State.raiseFault_failures : (s.raiseFault f).failures = s.failures := rfl
@[simp] theorem State.raiseFault_draws : (s.raiseFault f).draws = s.draws := rfl
@[simp] theorem State.raiseFault_calls : (s.raiseFault f).calls = s.calls := rfl
@[simp] theorem State.raiseFault_results : (s.raiseFault f).results = s.results := rfl

@[simp] theorem State.markRefused_handle : s.markRefused.handle = s.handle := rfl
@[simp] theorem State.markRefused_config : s.markRefused.config = s.config := rfl
@[simp] theorem State.markRefused_cs : s.markRefused.cs = s.cs := rfl
@[simp] theorem State.markRefused_trace : s.markRefused.trace = s.trace := rfl
@[simp] theorem State.markRefused_fault : s.markRefused.fault = s.fault := rfl
@[simp] theorem State.markRefused_refused : s.markRefused.refused = true := rfl
@[simp] theorem State.markRefused_answers : s.markRefused.answers = s.answers := rfl
@[simp] theorem State.markRefused_failures : s.markRefused.failures = s.failures := rfl
@[simp] theorem State.markRefused_draws : s.markRefused.draws = s.draws := rfl
@[simp] theorem State.markRefused_calls : s.markRefused.calls = s.calls := rfl
@[simp] theorem State.markRefused_results : s.markRefused.results = s.results := rfl

@[simp] theorem State.returnResult_handle : (s.returnResult r).handle = s.handle := rfl
@[simp] theorem State.returnResult_config : (s.returnResult r).config = s.config := rfl
@[simp] theorem State.returnResult_cs : (s.returnResult r).cs = s.cs := rfl
@[simp] theorem State.returnResult_trace : (s.returnResult r).trace = s.trace := rfl
@[simp] theorem State.returnResult_fault : (s.returnResult r).fault = s.fault := rfl
@[simp] theorem State.returnResult_refused : (s.returnResult r).refused = s.refused := rfl
@[simp] theorem State.returnResult_answers : (s.returnResult r).answers = s.answers := rfl
@[simp] theorem State.returnResult_failures : (s.returnResult r).failures = s.failures := rfl
@[simp] theorem State.returnResult_draws : (s.returnResult r).draws = s.draws := rfl
@[simp] theorem State.returnResult_calls : (s.returnResult r).calls = s.calls := rfl
@[simp] theorem State.returnResult_results : (s.returnResult r).results = s.results ++ [r] := rfl

@[simp] theorem State.dropCall_handle : s.dropCall.handle = s.handle := rfl
@[simp] theorem State.dropCall_config : s.dropCall.config = s.config := rfl
@[simp] theorem State.dropCall_cs : s.dropCall.cs = s.cs := rfl
@[simp] theorem State.dropCall_trace : s.dropCall.trace = s.trace := rfl
@[simp] theorem State.dropCall_fault : s.dropCall.fault = s.fault := rfl
@[simp] theorem State.dropCall_refused : s.dropCall.refused = s.refused := rfl
@[simp] theorem State.dropCall_answers : s.dropCall.answers = s.answers := rfl
@[simp] theorem State.dropCall_failures : s.dropCall.failures = s.failures := rfl
@[simp] theorem State.dropCall_draws : s.dropCall.draws = s.draws := rfl
@[simp] theorem State.dropCall_calls : s.dropCall.calls = s.calls.tail := rfl
@[simp] theorem State.dropCall_results : s.dropCall.results = s.results := rfl

@[simp] theorem State.callFirst_calls : (s.callFirst c).calls = c :: s.calls := rfl
@[simp] theorem State.callFirst_fault : (s.callFirst c).fault = s.fault := rfl
@[simp] theorem State.callFirst_config : (s.callFirst c).config = s.config := rfl
@[simp] theorem State.callFirst_dropCall : (s.callFirst c).dropCall = s := rfl

end Updates

end Sys2Proof.Machine
end

