-- ==== Sys2Proof/Laws/Run.lean ====
section
/-! SUPPORT. What the run of a program does: by its paths (answers, events, return value), uninterrupted and interrupted; and the
inversion of `perform`, which every instruction's meaning is. -/

namespace Sys2Proof.Machine

variable {α β : Type}

/-! Programs compose. -/

@[simp] theorem Prog.bind_ret (a : α) (f : α → Prog β) : (Prog.ret a).bind f = f a := rfl

@[simp] theorem Prog.map_ret (f : α → β) (a : α) : (Prog.ret a).map f = .ret (f a) := rfl

/-- The run of a composed program is the run of its second part from where the first ends. -/
theorem Prog.run_bind (p : Prog α) (f : α → Prog β) (s : State) :
    (p.bind f).run s =
      match p.run s with
      | .done a t => (f a).run t
      | .refused why t => .refused why t
      | .faulted i t => .faulted i t := by
  induction p generalizing s with
  | ret a => rfl
  | refuse why => rfl
  | read a k ih =>
    simp only [Prog.bind, Prog.run]
    cases xferRead a s with
    | completed r2 t => exact ih r2 t
    | failed i t => rfl
  | write a v k ih =>
    simp only [Prog.bind, Prog.run]
    cases xferWrite a v s with
    | completed r2 t => exact ih t
    | failed i t => rfl
  | sleep ms k ih => exact ih _

/-! Paths: one answer list and the events and value it leads to. -/

/-- A way through a program: the answers it uses, the events it makes, the value it returns. -/
inductive Prog.Path : Prog α → List Byte → List Event → α → Prop
  | ret (a : α) : Path (.ret a) [] [] a
  | read (a r : Byte) (k : Byte → Prog α) (ans : List Byte) (evs : List Event) (x : α) :
      Path (k r) ans evs x → Path (.read a k) (r :: ans) (rd a r :: evs) x
  | write (a v : Byte) (k : Prog α) (ans : List Byte) (evs : List Event) (x : α) :
      Path k ans evs x → Path (.write a v k) ans (wr a v :: evs) x
  | sleep (ms : Nat) (k : Prog α) (ans : List Byte) (evs : List Event) (x : α) :
      Path k ans evs x → Path (.sleep ms k) ans (.sleep ms :: evs) x

theorem Prog.Path.bind {p : Prog α} {f : α → Prog β} {ans ans' : List Byte} {evs evs' : List Event} {a : α} {b : β}
    (h : p.Path ans evs a) (h' : (f a).Path ans' evs' b) : (p.bind f).Path (ans ++ ans') (evs ++ evs') b := by
  induction h with
  | ret a => exact h'
  | read a r k ans evs x _ ih => exact .read a r _ _ _ _ (ih h')
  | write a v k ans evs x _ ih => exact .write a v _ _ _ _ (ih h')
  | sleep ms k ans evs x _ ih => exact .sleep ms _ _ _ _ (ih h')

theorem Prog.Path.andThen {p : Prog α} {q : Prog β} {ans ans' : List Byte} {evs evs' : List Event} {a : α} {b : β}
    (h : p.Path ans evs a) (h' : q.Path ans' evs' b) : (p.andThen q).Path (ans ++ ans') (evs ++ evs') b :=
  h.bind (f := fun _ => q) h'

theorem Prog.Path.map {p : Prog α} (f : α → β) {ans : List Byte} {evs : List Event} {a : α} (h : p.Path ans evs a) :
    (p.map f).Path ans evs (f a) := by
  have := h.bind (f := fun a => .ret (f a)) (.ret (f a))
  simpa [Prog.map] using this

/-- A path followed by a return. -/
theorem Prog.Path.bind_done {p : Prog α} {f : α → Prog β} {ans : List Byte} {evs : List Event} {a : α} {b : β}
    (h : p.Path ans evs a) (h' : f a = .ret b) : (p.bind f).Path ans evs b := by
  have := h.bind (f := f) (h' ▸ Prog.Path.ret b)
  simpa using this

/-! One transaction. -/

@[simp] theorem transactions_nil : transactions [] = 0 := rfl
@[simp] theorem transactions_rd (a r : Byte) (evs : List Event) : transactions (rd a r :: evs) = transactions evs + 1 := by
  simp [transactions, rd, isTransaction, List.countP_cons]
@[simp] theorem transactions_wr (a v : Byte) (evs : List Event) : transactions (wr a v :: evs) = transactions evs + 1 := by
  simp [transactions, wr, isTransaction, List.countP_cons]
@[simp] theorem transactions_sleep (ms : Nat) (evs : List Event) : transactions (.sleep ms :: evs) = transactions evs := by
  simp [transactions, isTransaction]
@[simp] theorem transactions_append (evs evs' : List Event) :
    transactions (evs ++ evs') = transactions evs + transactions evs' := by
  simp [transactions]

theorem State.Quiet.mono {s : State} {m n : Nat} (h : s.Quiet n) (hmn : m ≤ n) : s.Quiet m := by
  rcases h with h | ⟨hlen, hall⟩
  · exact .inl h
  · refine .inr ⟨by omega, fun f hf => hall f ?_⟩
    rw [← Nat.min_eq_left hmn, ← List.take_take] at hf
    exact List.mem_of_mem_take hf

/-- A quiet channel does not fail the next transaction. -/
theorem State.Quiet.not_xferFails {s : State} {n : Nat} (h : s.Quiet (n + 1)) (dir : Direction) (a : RegAddr) :
    s.selectChip.xferFails dir a = false := by
  rcases h with h | ⟨hlen, hall⟩
  · simp [State.xferFails, h]
  · cases hf : s.failures with
    | nil => simp [hf] at hlen
    | cons b l =>
      have : b = false := hall b (by simp [hf])
      simp [State.xferFails, hf, this]

/-- After a transaction the channel is quiet for one transaction less. -/
theorem State.Quiet.deselectChip {s : State} {n : Nat} (h : s.Quiet (n + 1)) : s.selectChip.deselectChip.Quiet n := by
  rcases h with h | ⟨hlen, hall⟩
  · exact .inl h
  · refine .inr ?_
    cases hf : s.failures with
    | nil => simp [hf] at hlen
    | cons b l =>
      simp only [State.deselectChip_failures, State.selectChip_failures, hf, List.tail_cons]
      rw [hf] at hlen hall
      exact ⟨by simpa using hlen, fun f hf' => hall f (by simp [hf'])⟩

theorem xferRead_quiet {s : State} {n : Nat} (h : s.Quiet (n + 1)) {a r : Byte} {rest : List Byte} (ha : s.answers = r :: rest) :
    xferRead a s = .completed r (s.selectChip.deselectChip.dropAnswer.record (rd a r)) := by
  simp [xferRead, h.not_xferFails, State.chipByte, ha, rd, chipAddr, addressByte, dummyByte]

theorem xferWrite_quiet {s : State} {n : Nat} (h : s.Quiet (n + 1)) (a v : Byte) :
    xferWrite a v s = .completed 0 (s.selectChip.deselectChip.record (wr a v)) := by
  simp [xferWrite, h.not_xferFails, wr, chipAddr, addressByte]

@[simp] theorem readsIn_nil : readsIn [] = 0 := rfl
@[simp] theorem readsIn_rd (a r : Byte) (evs : List Event) : readsIn (rd a r :: evs) = readsIn evs + 1 := by
  simp [readsIn, rd, isRead, List.countP_cons]
@[simp] theorem readsIn_wr (a v : Byte) (evs : List Event) : readsIn (wr a v :: evs) = readsIn evs := by
  simp [readsIn, wr, isRead]
@[simp] theorem readsIn_sleep (ms : Nat) (evs : List Event) : readsIn (.sleep ms :: evs) = readsIn evs := by
  simp [readsIn, isRead]

@[simp] theorem cutAt_rd_zero (a r : Byte) (evs : List Event) :
    cutAt (rd a r :: evs) 0 = some ([], .channelFault (chipAddr a) .read) := rfl
@[simp] theorem cutAt_rd_succ (a r : Byte) (evs : List Event) (n : Nat) :
    cutAt (rd a r :: evs) (n + 1) = (cutAt evs n).map fun p => (rd a r :: p.1, p.2) := rfl
@[simp] theorem cutAt_wr_zero (a v : Byte) (evs : List Event) :
    cutAt (wr a v :: evs) 0 = some ([], .channelFault (chipAddr a) .write) := rfl
@[simp] theorem cutAt_wr_succ (a v : Byte) (evs : List Event) (n : Nat) :
    cutAt (wr a v :: evs) (n + 1) = (cutAt evs n).map fun p => (wr a v :: p.1, p.2) := rfl

/-! Runs along a path. -/

theorem State.after_nil {s : State} {rest : List Byte} (h : s.answers = rest) : s.after [] rest = s := by
  subst h; simp [State.after]

theorem State.after_rd (s : State) (a r : Byte) (evs : List Event) (rest : List Byte) :
    (s.selectChip.deselectChip.dropAnswer.record (rd a r)).after evs rest = s.after (rd a r :: evs) rest := by
  simp [State.after, State.selectChip, State.deselectChip, State.dropAnswer, State.record, Nat.add_assoc, Nat.add_comm]

theorem State.after_wr (s : State) (a v : Byte) (evs : List Event) (rest : List Byte) :
    (s.selectChip.deselectChip.record (wr a v)).after evs rest = s.after (wr a v :: evs) rest := by
  simp [State.after, State.selectChip, State.deselectChip, State.record, Nat.add_assoc, Nat.add_comm]

theorem State.after_sleep (s : State) (ms : Nat) (evs : List Event) (rest : List Byte) :
    (s.record (.sleep ms)).after evs rest = s.after (.sleep ms :: evs) rest := by
  simp [State.after, State.record]

/-- Along a path, on a quiet channel, a program makes the path's events and returns its value. -/
theorem Prog.Path.run {p : Prog α} {ans : List Byte} {evs : List Event} {a : α} (h : p.Path ans evs a) {s : State} {rest : List Byte}
    (hq : s.Quiet (transactions evs)) (ha : s.answers = ans ++ rest) : p.run s = .done a (s.after evs rest) := by
  induction h generalizing s with
  | ret a => rw [State.after_nil (by simpa using ha)]; rfl
  | read a r k ans evs x _ ih =>
    rw [transactions_rd] at hq
    have ha' : s.answers = r :: (ans ++ rest) := by simpa using ha
    rw [Prog.run, xferRead_quiet hq ha']
    exact (ih (s := s.selectChip.deselectChip.dropAnswer.record (rd a r)) hq.deselectChip (by simp [ha'])).trans
      (by rw [State.after_rd])
  | write a v k ans evs x _ ih =>
    rw [transactions_wr] at hq
    rw [Prog.run, xferWrite_quiet hq]
    exact (ih (s := s.selectChip.deselectChip.record (wr a v)) hq.deselectChip (by simpa using ha)).trans (by rw [State.after_wr])
  | sleep ms k ans evs x _ ih =>
    rw [transactions_sleep] at hq
    rw [Prog.run]
    exact (ih (s := s.record (.sleep ms)) hq (by simpa using ha)).trans (by rw [State.after_sleep])

/-- Along a path whose `n`-th transaction the channel fails, a program makes the events before it and the fault event. -/
theorem Prog.Path.run_interrupted {p : Prog α} {ans : List Byte} {evs : List Event} {a : α} (h : p.Path ans evs a) {s : State}
    {rest : List Byte} {n : Nat} {pre : List Event} {f : FaultInfo} {later : List Bool} (hcut : cutAt evs n = some (pre, f))
    (hcan : s.config.channelCanFault = true) (hf : s.failures = List.replicate n false ++ true :: later)
    (ha : s.answers = ans ++ rest) : p.run s = .faulted f (s.interrupted pre f later) := by
  induction h generalizing s n pre with
  | ret a => simp [cutAt] at hcut
  | read a r k ans evs x _ ih =>
    have ha' : s.answers = r :: (ans ++ rest) := by simpa using ha
    cases n with
    | zero =>
      simp only [cutAt_rd_zero, Option.some.injEq, Prod.mk.injEq] at hcut
      obtain ⟨rfl, rfl⟩ := hcut
      have hx : xferRead a s = .failed (.channelFault (chipAddr a) .read)
          (s.selectChip.deselectChip.raiseFault (.channelFault (chipAddr a) .read)) := by
        simp [xferRead, State.xferFails, hcan, hf]
      rw [Prog.run, hx]
      simp [State.interrupted, State.selectChip, State.deselectChip, State.raiseFault, hf]
    | succ m =>
      simp only [cutAt_rd_succ, Option.map_eq_some_iff] at hcut
      obtain ⟨⟨pre', f'⟩, hcut, heq⟩ := hcut
      simp only [Prod.mk.injEq] at heq
      obtain ⟨rfl, rfl⟩ := heq
      have hx : xferRead a s = .completed r (s.selectChip.deselectChip.dropAnswer.record (rd a r)) := by
        simp [xferRead, State.xferFails, hf, List.replicate_succ, State.chipByte, ha', rd, chipAddr, addressByte, dummyByte]
      rw [Prog.run, hx]
      refine (ih (s := s.selectChip.deselectChip.dropAnswer.record (rd a r)) hcut hcan (by simp [hf, List.replicate_succ])
        (by simp [ha'])).trans ?_
      simp [State.interrupted, State.selectChip, State.deselectChip, State.dropAnswer, State.record, ha']
      omega
  | write a v k ans evs x _ ih =>
    cases n with
    | zero =>
      simp only [cutAt_wr_zero, Option.some.injEq, Prod.mk.injEq] at hcut
      obtain ⟨rfl, rfl⟩ := hcut
      have hx : xferWrite a v s = .failed (.channelFault (chipAddr a) .write)
          (s.selectChip.deselectChip.raiseFault (.channelFault (chipAddr a) .write)) := by
        simp [xferWrite, State.xferFails, hcan, hf]
      rw [Prog.run, hx]
      simp [State.interrupted, State.selectChip, State.deselectChip, State.raiseFault, hf]
    | succ m =>
      simp only [cutAt_wr_succ, Option.map_eq_some_iff] at hcut
      obtain ⟨⟨pre', f'⟩, hcut, heq⟩ := hcut
      simp only [Prod.mk.injEq] at heq
      obtain ⟨rfl, rfl⟩ := heq
      have hx : xferWrite a v s = .completed 0 (s.selectChip.deselectChip.record (wr a v)) := by
        simp [xferWrite, State.xferFails, hf, List.replicate_succ, wr, chipAddr, addressByte]
      rw [Prog.run, hx]
      refine (ih (s := s.selectChip.deselectChip.record (wr a v)) hcut hcan (by simp [hf, List.replicate_succ])
        (by simpa using ha)).trans ?_
      simp [State.interrupted, State.selectChip, State.deselectChip, State.record, Nat.add_assoc, Nat.add_comm]
  | sleep ms k ans evs x _ ih =>
    simp only [cutAt, Option.map_eq_some_iff] at hcut
    obtain ⟨⟨pre', f'⟩, hcut, heq⟩ := hcut
    simp only [Prod.mk.injEq] at heq
    obtain ⟨rfl, rfl⟩ := heq
    rw [Prog.run]
    refine (ih (s := s.record (.sleep ms)) hcut hcan (by simpa using hf) (by simpa using ha)).trans ?_
    simp [State.interrupted, State.record]

/-! One operation. -/

/-- A ready state performs the run of its program. -/
theorem perform_ready {p : Config → Prog OpResult} {s : State} (h : s.Ready) : perform p s = .next ((p s.config).run s).settle := by
  simp [perform, h.1, guardConfig, h.2]

/-- Once `fault` is set no operation is performed (10_state.md R24). -/
theorem perform_faulted {p : Config → Prog OpResult} {s : State} {f : FaultInfo} (h : s.fault = some f) :
    perform p s = .fault (.engineFaulted f) := by
  simp [perform, h]

/-- What a meaning that is `perform` of a program with a path does. -/
theorem performs_of_path {i : Instr} {p : Config → Prog OpResult} {s : State} {ans : List Byte} {evs : List Event} {r : OpResult}
    (hexec : ∀ s, exec i s = perform p s) (h : (p s.config).Path ans evs r) : Performs i s ans evs r := by
  intro hready rest ha
  refine ⟨fun hq => ?_, fun n pre f later hcut hcan hf => ?_⟩
  · rw [hexec, perform_ready hready, h.run hq ha]; rfl
  · rw [hexec, perform_ready hready, h.run_interrupted hcut hcan hf ha]; rfl

end Sys2Proof.Machine
end

