-- ==== Sys2Proof/Laws/Inversion.lean ====
section
/-! SUPPORT. Inversion: everything the run of a program can do, said once. A run ends at a return, at a refusal, or at a failed transaction,
along some way through the program; what it leaves is `State.after` or `State.interrupted` of the events of that way. -/

namespace Sys2Proof.Machine

variable {α β : Type}

/-- A way from a program to a position in it: the answers it uses and the events it makes. -/
inductive Prog.Along : Prog α → List Byte → List Event → Prog α → Prop
  | here (p : Prog α) : Along p [] [] p
  | read (a r : Byte) (k : Byte → Prog α) (ans : List Byte) (evs : List Event) (q : Prog α) :
      Along (k r) ans evs q → Along (.read a k) (r :: ans) (rd a r :: evs) q
  | write (a v : Byte) (k : Prog α) (ans : List Byte) (evs : List Event) (q : Prog α) :
      Along k ans evs q → Along (.write a v k) ans (wr a v :: evs) q
  | sleep (ms : Nat) (k : Prog α) (ans : List Byte) (evs : List Event) (q : Prog α) :
      Along k ans evs q → Along (.sleep ms k) ans (.sleep ms :: evs) q

/-- A path is a way to a return. -/
theorem Prog.along_ret_iff {p : Prog α} {ans : List Byte} {evs : List Event} {a : α} : p.Along ans evs (.ret a) ↔ p.Path ans evs a := by
  constructor
  · intro h
    generalize hq : Prog.ret a = q at h
    induction h with
    | here p => subst hq; exact .ret a
    | read a r k ans evs q _ ih => exact .read _ _ _ _ _ _ (ih hq)
    | write a v k ans evs q _ ih => exact .write _ _ _ _ _ _ (ih hq)
    | sleep ms k ans evs q _ ih => exact .sleep _ _ _ _ _ (ih hq)
  · intro h
    induction h with
    | ret a => exact .here _
    | read a r k ans evs x _ ih => exact .read _ _ _ _ _ _ ih
    | write a v k ans evs x _ ih => exact .write _ _ _ _ _ _ ih
    | sleep ms k ans evs x _ ih => exact .sleep _ _ _ _ _ ih

/-- A way through a composed program ends in its first part, or goes through it and ends in the second. -/
theorem Prog.along_bind {p : Prog α} {f : α → Prog β} {ans : List Byte} {evs : List Event} {q : Prog β} (h : (p.bind f).Along ans evs q) :
    (∃ p', p.Along ans evs p' ∧ q = p'.bind f) ∨
    ∃ ans₁ ans₂ evs₁ evs₂ a, ans = ans₁ ++ ans₂ ∧ evs = evs₁ ++ evs₂ ∧ p.Path ans₁ evs₁ a ∧ (f a).Along ans₂ evs₂ q := by
  induction p generalizing ans evs with
  | ret a => exact .inr ⟨[], ans, [], evs, a, rfl, rfl, .ret a, h⟩
  | refuse why =>
    cases h
    exact .inl ⟨_, .here _, rfl⟩
  | read a k ih =>
    cases h with
    | here => exact .inl ⟨_, .here _, rfl⟩
    | read _ r _ ans evs _ h =>
      rcases ih r h with ⟨p', hp, rfl⟩ | ⟨ans₁, ans₂, evs₁, evs₂, x, rfl, rfl, h, h'⟩
      · exact .inl ⟨p', .read _ _ _ _ _ _ hp, rfl⟩
      · exact .inr ⟨r :: ans₁, ans₂, rd a r :: evs₁, evs₂, x, rfl, rfl, .read _ _ _ _ _ _ h, h'⟩
  | write a v k ih =>
    cases h with
    | here => exact .inl ⟨_, .here _, rfl⟩
    | write _ _ _ ans evs _ h =>
      rcases ih h with ⟨p', hp, rfl⟩ | ⟨ans₁, ans₂, evs₁, evs₂, x, rfl, rfl, h, h'⟩
      · exact .inl ⟨p', .write _ _ _ _ _ _ hp, rfl⟩
      · exact .inr ⟨ans₁, ans₂, wr a v :: evs₁, evs₂, x, rfl, rfl, .write _ _ _ _ _ _ h, h'⟩
  | sleep ms k ih =>
    cases h with
    | here => exact .inl ⟨_, .here _, rfl⟩
    | sleep _ _ ans evs _ h =>
      rcases ih h with ⟨p', hp, rfl⟩ | ⟨ans₁, ans₂, evs₁, evs₂, x, rfl, rfl, h, h'⟩
      · exact .inl ⟨p', .sleep _ _ _ _ _ hp, rfl⟩
      · exact .inr ⟨ans₁, ans₂, .sleep ms :: evs₁, evs₂, x, rfl, rfl, .sleep _ _ _ _ _ h, h'⟩

/-- A path through a composed program is one through each part. -/
theorem Prog.path_bind_inv {p : Prog α} {f : α → Prog β} {ans : List Byte} {evs : List Event} {b : β} (h : (p.bind f).Path ans evs b) :
    ∃ ans₁ ans₂ evs₁ evs₂ a, ans = ans₁ ++ ans₂ ∧ evs = evs₁ ++ evs₂ ∧ p.Path ans₁ evs₁ a ∧ (f a).Path ans₂ evs₂ b := by
  rcases Prog.along_bind (Prog.along_ret_iff.2 h) with ⟨p', h1, h2⟩ | ⟨ans₁, ans₂, evs₁, evs₂, a, rfl, rfl, h1, h2⟩
  · cases p' with
    | ret a => exact ⟨ans, [], evs, [], a, by simp, by simp, Prog.along_ret_iff.1 h1, by rw [← Prog.bind_ret a f, ← h2]; exact .ret b⟩
    | refuse why => cases h2
    | read a k => cases h2
    | write a v k => cases h2
    | sleep ms k => cases h2
  · exact ⟨ans₁, ans₂, evs₁, evs₂, a, rfl, rfl, h1, Prog.along_ret_iff.1 h2⟩

/-! The events of a way. -/

@[simp] theorem faultsOf_append (evs evs' : List Event) : faultsOf (evs ++ evs') = faultsOf evs ++ faultsOf evs' := by
  induction evs with
  | nil => rfl
  | cons e es ih => cases e <;> simp [faultsOf, ih]

/-- The address byte of an address is that of its six bits. -/
theorem addressField_chip : ∀ a : Byte, ((a.setWidth 6).setWidth 8 <<< 1) &&& (0x7E : Byte) = (a <<< 1) &&& 0x7E := by decide

theorem rd_eventWf (a r : Byte) : eventWf (rd a r) = true := by
  simp only [rd, eventWf, addressField_chip a, Option.isSome, decide_true, Bool.and_self]

theorem wr_eventWf (a v : Byte) : eventWf (wr a v) = true := by
  simp only [wr, eventWf, addressField_chip a, Option.isNone, decide_true, Bool.and_self]

/-- No fault event on a way. -/
theorem Prog.Along.faultsOf_eq {p q : Prog α} {ans : List Byte} {evs : List Event} (h : p.Along ans evs q) : faultsOf evs = [] := by
  induction h with
  | here p => rfl
  | read a r k ans evs q _ ih => exact ih
  | write a v k ans evs q _ ih => exact ih
  | sleep ms k ans evs q _ ih => exact ih

/-- Every transaction on a way is one the block emits. -/
theorem Prog.Along.eventWf {p q : Prog α} {ans : List Byte} {evs : List Event} (h : p.Along ans evs q) :
    ∀ e ∈ evs, isSleep e = false → eventWf e = true := by
  induction h with
  | here p => simp
  | read a r k ans evs q _ ih =>
    intro e he _
    rcases List.mem_cons.1 he with rfl | he
    · exact rd_eventWf a r
    · exact ih e he ‹_›
  | write a v k ans evs q _ ih =>
    intro e he _
    rcases List.mem_cons.1 he with rfl | he
    · exact wr_eventWf a v
    · exact ih e he ‹_›
  | sleep ms k ans evs q _ ih =>
    intro e he hs
    rcases List.mem_cons.1 he with rfl | he
    · simp [isSleep] at hs
    · exact ih e he hs

/-! One transaction, every way it can go. -/

/-- A read completes with the chip's byte, or the channel, which then can fault, fails it. -/
theorem xferRead_cases (a : Byte) (s : State) :
    (∃ r, (∀ b rest, s.answers = b :: rest → r = b) ∧
      xferRead a s = .completed r (s.selectChip.deselectChip.dropAnswer.record (rd a r))) ∨
    (s.config.channelCanFault = true ∧ ¬ s.Quiet 1 ∧ xferRead a s = .failed (.channelFault (chipAddr a) .read)
      (s.selectChip.deselectChip.raiseFault (.channelFault (chipAddr a) .read))) := by
  cases hx : s.selectChip.xferFails .read (chipAddr a) with
  | false =>
    refine .inl ⟨s.selectChip.chipByte (chipAddr a), fun b rest h => by simp [State.chipByte, h], ?_⟩
    simp only [xferRead, hx]
    rfl
  | true =>
    refine .inr ⟨by simp [State.xferFails] at hx; exact hx.1, fun hq => ?_, by simp [xferRead, hx]⟩
    simp [hq.not_xferFails] at hx

/-- A write completes, or the channel, which then can fault, fails it. -/
theorem xferWrite_cases (a v : Byte) (s : State) :
    xferWrite a v s = .completed 0 (s.selectChip.deselectChip.record (wr a v)) ∨
    (s.config.channelCanFault = true ∧ ¬ s.Quiet 1 ∧ xferWrite a v s = .failed (.channelFault (chipAddr a) .write)
      (s.selectChip.deselectChip.raiseFault (.channelFault (chipAddr a) .write))) := by
  cases hx : s.selectChip.xferFails .write (chipAddr a) with
  | false => exact .inl (by simp only [xferWrite, hx]; rfl)
  | true =>
    refine .inr ⟨by simp [State.xferFails] at hx; exact hx.1, fun hq => ?_, by simp [xferWrite, hx]⟩
    simp [hq.not_xferFails] at hx

/-- A state is quiet as far as its successor is, one transaction further. -/
theorem State.Quiet.of_deselectChip {s : State} {n : Nat} (h1 : s.Quiet 1) (h : s.selectChip.deselectChip.Quiet n) :
    s.Quiet (n + 1) := by
  rcases h1 with h1 | ⟨hlen1, hall1⟩
  · exact .inl h1
  · rcases h with h | ⟨hlen, hall⟩
    · exact .inl h
    · refine .inr ?_
      cases hf : s.failures with
      | nil => simp [hf] at hlen1
      | cons b l =>
        simp [hf] at hlen hall hall1
        refine ⟨by simpa using hlen, fun f hm => ?_⟩
        simp only [List.take_succ_cons, List.mem_cons] at hm
        rcases hm with rfl | hm
        · simpa using hall1
        · cases f with
          | false => rfl
          | true => exact absurd hm hall

/-! The run. -/

/-- The next transaction of a position, as the fault its failure is. -/
def Prog.pending : Prog α → Option FaultInfo
  | .ret _ => none
  | .refuse _ => none
  | .read a _ => some (.channelFault (chipAddr a) .read)
  | .write a _ _ => some (.channelFault (chipAddr a) .write)
  | .sleep _ _ => none

/-- The answers a run uses begin with the scripted ones. -/
abbrev State.Gives (s : State) (ans : List Byte) : Prop :=
  ans.take s.answers.length = s.answers.take ans.length

/-- Everything a run can do. -/
theorem Prog.run_cases (p : Prog α) (s : State) :
    ∃ ans evs q, p.Along ans evs q ∧ s.Gives ans ∧ ans.length = readsIn evs ∧
      ((∃ a, q = .ret a ∧ p.run s = .done a (s.after evs (s.answers.drop (readsIn evs)))) ∨
       (∃ why, q = .refuse why ∧ p.run s = .refused why (s.after evs (s.answers.drop (readsIn evs))).markRefused) ∨
       (∃ f, q.pending = some f ∧ s.config.channelCanFault = true ∧ ¬ s.Quiet (transactions evs + 1) ∧
          p.run s = .faulted f (s.interrupted evs f (s.failures.drop (transactions evs + 1))))) := by
  induction p generalizing s with
  | ret a => exact ⟨[], [], _, .here _, by simp [State.Gives], rfl, .inl ⟨a, rfl, by rw [State.after_nil (by simp)]; rfl⟩⟩
  | refuse why =>
    exact ⟨[], [], _, .here _, by simp [State.Gives], rfl, .inr (.inl ⟨why, rfl, by rw [State.after_nil (by simp)]; rfl⟩)⟩
  | read a k ih =>
    rcases xferRead_cases a s with ⟨r, hr, hx⟩ | ⟨hcan, hnq, hx⟩
    · obtain ⟨ans, evs, q, hal, hg, hlen, h⟩ := ih r (s.selectChip.deselectChip.dropAnswer.record (rd a r))
      refine ⟨r :: ans, rd a r :: evs, q, .read _ _ _ _ _ _ hal, ?_, by simp [hlen], ?_⟩
      · cases ha : s.answers with
        | nil => simp [State.Gives, ha]
        | cons b rest =>
          obtain rfl := hr b rest ha
          simpa [State.Gives, ha] using hg
      · rcases h with ⟨x, rfl, h⟩ | ⟨why, rfl, h⟩ | ⟨f, hp, hcan, hnq, h⟩
        · refine .inl ⟨x, rfl, ?_⟩
          rw [Prog.run, hx]
          refine h.trans ?_
          rw [State.after_rd]; simp [List.drop_tail, Nat.add_comm]
        · refine .inr (.inl ⟨why, rfl, ?_⟩)
          rw [Prog.run, hx]
          refine h.trans ?_
          rw [State.after_rd]; simp [List.drop_tail, Nat.add_comm]
        · refine .inr (.inr ⟨f, hp, hcan, fun hq => hnq ?_, ?_⟩)
          · rw [transactions_rd] at hq; exact hq.deselectChip
          · rw [Prog.run, hx]
            refine h.trans ?_
            simp [State.interrupted, State.selectChip, State.deselectChip, State.dropAnswer, State.record, Nat.add_assoc, Nat.add_comm]
    · refine ⟨[], [], _, .here _, by simp [State.Gives], rfl, .inr (.inr ⟨_, rfl, hcan, by simpa using hnq, ?_⟩)⟩
      rw [Prog.run, hx]
      simp [State.interrupted, State.selectChip, State.deselectChip, State.raiseFault]
  | write a v k ih =>
    rcases xferWrite_cases a v s with hx | ⟨hcan, hnq, hx⟩
    · obtain ⟨ans, evs, q, hal, hg, hlen, h⟩ := ih (s.selectChip.deselectChip.record (wr a v))
      refine ⟨ans, wr a v :: evs, q, .write _ _ _ _ _ _ hal, hg, by simp [hlen], ?_⟩
      rcases h with ⟨x, rfl, h⟩ | ⟨why, rfl, h⟩ | ⟨f, hp, hcan, hnq, h⟩
      · refine .inl ⟨x, rfl, ?_⟩
        rw [Prog.run, hx]
        refine h.trans ?_
        rw [State.after_wr]; simp
      · refine .inr (.inl ⟨why, rfl, ?_⟩)
        rw [Prog.run, hx]
        refine h.trans ?_
        rw [State.after_wr]; simp
      · refine .inr (.inr ⟨f, hp, hcan, fun hq => hnq ?_, ?_⟩)
        · rw [transactions_wr] at hq; exact hq.deselectChip
        · rw [Prog.run, hx]
          refine h.trans ?_
          simp [State.interrupted, State.selectChip, State.deselectChip, State.record, Nat.add_assoc, Nat.add_comm]
    · refine ⟨[], [], _, .here _, by simp [State.Gives], rfl, .inr (.inr ⟨_, rfl, hcan, by simpa using hnq, ?_⟩)⟩
      rw [Prog.run, hx]
      simp [State.interrupted, State.selectChip, State.deselectChip, State.raiseFault]
  | sleep ms k ih =>
    obtain ⟨ans, evs, q, hal, hg, hlen, h⟩ := ih (s.record (.sleep ms))
    refine ⟨ans, .sleep ms :: evs, q, .sleep _ _ _ _ _ hal, hg, by simp [hlen], ?_⟩
    rcases h with ⟨x, rfl, h⟩ | ⟨why, rfl, h⟩ | ⟨f, hp, hcan, hnq, h⟩
    · refine .inl ⟨x, rfl, ?_⟩
      rw [Prog.run]
      refine h.trans ?_
      rw [State.after_sleep]; simp
    · refine .inr (.inl ⟨why, rfl, ?_⟩)
      rw [Prog.run]
      refine h.trans ?_
      rw [State.after_sleep]; simp
    · refine .inr (.inr ⟨f, hp, hcan, fun hq => hnq ?_, ?_⟩)
      · rw [transactions_sleep] at hq; exact hq
      · rw [Prog.run]
        refine h.trans ?_
        simp [State.interrupted, State.record]

/-! One operation. -/

/-- The program an operation performs under a configuration. -/
def progOf (c : Config) : Instr → Prog OpResult
  | .wreg r v => (writeReg (r.addr c) v).map fun _ => .unit
  | .rreg r => (readReg (r.addr c)).map .byte
  | .setb r m => (setBits (r.addr c) m).map fun _ => .unit
  | .clrb r m => (clearBits (r.addr c) m).map fun _ => .unit
  | .calccrc bytes => (calcCrc c bytes).map .crc
  | .tocardTrx send => (toCard c .transceive send).map .exec
  | .tocardAuth send => (toCard c .authenticate send).map .exec
  | .bcc u => (bccOp u).map .byte
  | .request => (requestOp c).map .request
  | .anticoll => (anticollOp c).map .anticoll
  | .select uid => (selectOp c uid).map .select
  | .auth variant blk key uid => (authOp c variant blk key uid).map .auth
  | .stopcrypto => (clearBits c.regStatus2 c.crypto1On).map fun _ => .unit
  | .sectoraddr sector block => .ret (.sectorAddr (sectorAddr sector block))
  | .readblk a => (readBlockOp c a).map .readBlock
  | .writeblk a data => (writeBlockOp c a data).map .writeBlock
  | .rearm => (rearmOp c).map fun _ => .unit
  | .waitcard t => (waitOp c t).map .waitCard
  | .readuid => (anticollOp c).map fun r => .readUid (uidDecode r)
  | .readsect uid sector block keyA keyB => (readSectorOp c uid sector block keyA keyB).map .readSector
  | .writesect uid sector block data keyA keyB => (writeSectorOp c uid sector block data keyA keyB).map .writeSector

/-- Every arm of exec performs its program. -/
theorem exec_eq_perform (i : Instr) (s : State) : exec i s = perform (fun c => progOf c i) s := by
  cases i <;> rfl

/-- Everything an operation that gives a next state can have done. -/
theorem exec_next_cases {i : Instr} {s t : State} (h : exec i s = .next t) :
    s.fault = none ∧
      ((s.config.wf = false ∧ t = s.markRefused) ∨
       (s.config.wf = true ∧ ∃ ans evs q, (progOf s.config i).Along ans evs q ∧ s.Gives ans ∧ ans.length = readsIn evs ∧
          ((∃ r, q = .ret r ∧ t = (s.after evs (s.answers.drop (readsIn evs))).returnResult r) ∨
           (∃ why, q = .refuse why ∧ t = (s.after evs (s.answers.drop (readsIn evs))).markRefused) ∨
           (∃ f, q.pending = some f ∧ s.config.channelCanFault = true ∧ ¬ s.Quiet (transactions evs + 1) ∧
              t = s.interrupted evs f (s.failures.drop (transactions evs + 1)))))) := by
  rw [exec_eq_perform] at h
  cases hf : s.fault with
  | some f => simp [perform, hf] at h
  | none =>
    refine ⟨rfl, ?_⟩
    cases hwf : s.config.wf with
    | false =>
      simp [perform, hf, guardConfig, hwf, Prog.run, Run.settle] at h
      exact .inl ⟨rfl, h.symm⟩
    | true =>
      rw [perform_ready ⟨hf, hwf⟩] at h
      obtain ⟨ans, evs, q, hal, hg, hlen, hc⟩ := (progOf s.config i).run_cases s
      refine .inr ⟨rfl, ans, evs, q, hal, hg, hlen, ?_⟩
      rcases hc with ⟨r, hq, hr⟩ | ⟨why, hq, hr⟩ | ⟨f, hp, hcan, hnq, hr⟩
      · rw [hr] at h; exact .inl ⟨r, hq, by simpa [Run.settle] using h.symm⟩
      · rw [hr] at h; exact .inr (.inl ⟨why, hq, by simpa [Run.settle] using h.symm⟩)
      · rw [hr] at h; exact .inr (.inr ⟨f, hp, hcan, hnq, by simpa [Run.settle] using h.symm⟩)

/-- Everything a step that gives a next state can have done: waited, refused a call that is no operation, or run one. -/
theorem step_next_cases {s t : State} (h : step s = .next t) :
    s.fault = none ∧
      ((s.calls = [] ∧ t = s) ∨
       (∃ c rest e, s.calls = c :: rest ∧ decodeCall c = .error e ∧ t = s.dropCall.markRefused) ∨
       (∃ c rest i, s.calls = c :: rest ∧ decodeCall c = .ok i ∧ exec i s.dropCall = .next t)) := by
  unfold step at h
  split at h
  · cases h
  · next hf =>
    refine ⟨hf, ?_⟩
    unfold State.nextCall at h
    cases hc : s.calls with
    | nil =>
      simp only [hc, Host.Outcome.next.injEq] at h
      exact .inl ⟨rfl, h.symm⟩
    | cons c rest =>
      simp only [hc] at h
      cases hd : decodeCall c with
      | ok i => exact .inr (.inr ⟨c, rest, i, rfl, hd, by simpa [hd] using h⟩)
      | error e => exact .inr (.inl ⟨c, rest, e, rfl, hd, by simpa [hd] using h.symm⟩)

end Sys2Proof.Machine
end

