-- ==== Sys2Proof/Laws/Bounds.lean ====
section
/-! SUPPORT. How long an operation can get: one bound per shared operation on its transactions over all answers, with its refusals (none
after the first event) and its sleeps. -/

namespace Sys2Proof.Machine

variable {α β : Type}

/-- On every way the program refuses nothing, makes at most `n` transactions, and sleeps only if `naps`, for 100 ms at a time. -/
def Prog.Within (naps : Bool) : Nat → Prog α → Prop
  | _, .ret _ => True
  | _, .refuse _ => False
  | n, .read _ k => 1 ≤ n ∧ ∀ b, (k b).Within naps (n - 1)
  | n, .write _ _ k => 1 ≤ n ∧ k.Within naps (n - 1)
  | n, .sleep ms k => naps = true ∧ ms = 100 ∧ k.Within naps n

theorem Prog.Within.mono {naps : Bool} {m n : Nat} {p : Prog α} (h : p.Within naps m) (hmn : m ≤ n) : p.Within naps n := by
  induction p generalizing m n with
  | ret a => trivial
  | refuse why => exact h
  | read a k ih => exact ⟨by have := h.1; omega, fun b => ih b (h.2 b) (by omega)⟩
  | write a v k ih => exact ⟨by have := h.1; omega, ih h.2 (by omega)⟩
  | sleep ms k ih => exact ⟨h.1, h.2.1, ih h.2.2 hmn⟩

theorem Prog.Within.nap {naps : Bool} {n : Nat} {p : Prog α} (h : p.Within false n) : p.Within naps n := by
  induction p generalizing n with
  | ret a => trivial
  | refuse why => exact h
  | read a k ih => exact ⟨h.1, fun b => ih b (h.2 b)⟩
  | write a v k ih => exact ⟨h.1, ih h.2⟩
  | sleep ms k ih => cases h.1

theorem Prog.Within.bind {naps : Bool} {m n : Nat} {p : Prog α} {f : α → Prog β} (h : p.Within naps m)
    (h' : ∀ a, (f a).Within naps n) : (p.bind f).Within naps (m + n) := by
  induction p generalizing m with
  | ret a => exact (h' a).mono (by omega)
  | refuse why => exact h
  | read a k ih =>
    have := h.1
    exact ⟨by omega, fun b => (ih b (h.2 b)).mono (by omega)⟩
  | write a v k ih =>
    have := h.1
    exact ⟨by omega, (ih h.2).mono (by omega)⟩
  | sleep ms k ih => exact ⟨h.1, h.2.1, ih h.2.2⟩

theorem Prog.Within.andThen {naps : Bool} {m n : Nat} {p : Prog α} {q : Prog β} (h : p.Within naps m) (h' : q.Within naps n) :
    (p.andThen q).Within naps (m + n) :=
  h.bind fun _ => h'

theorem Prog.Within.map {naps : Bool} {n : Nat} {p : Prog α} (f : α → β) (h : p.Within naps n) : (p.map f).Within naps n :=
  h.bind (n := 0) fun _ => trivial

/-- What a bound says of a way through the program. -/
theorem Prog.Within.along {naps : Bool} {n : Nat} {p q : Prog α} {ans : List Byte} {evs : List Event} (h : p.Within naps n)
    (hal : p.Along ans evs q) :
    transactions evs ≤ n ∧ q.Within naps (n - transactions evs) ∧ (∀ ms, .sleep ms ∈ evs → naps = true ∧ ms = 100) := by
  induction hal generalizing n with
  | here p => simpa using h
  | read a r k ans evs q _ ih =>
    obtain ⟨h1, h2, h3⟩ := ih (h.2 r)
    have := h.1
    refine ⟨by simp; omega, ?_, fun ms hm => h3 ms (by simpa [rd] using hm)⟩
    rwa [transactions_rd, Nat.add_comm, ← Nat.sub_sub]
  | write a v k ans evs q _ ih =>
    obtain ⟨h1, h2, h3⟩ := ih h.2
    have := h.1
    refine ⟨by simp; omega, ?_, fun ms hm => h3 ms (by simpa [wr] using hm)⟩
    rwa [transactions_wr, Nat.add_comm, ← Nat.sub_sub]
  | sleep ms k ans evs q _ ih =>
    obtain ⟨h1, h2, h3⟩ := ih h.2.2
    refine ⟨by simpa using h1, by simpa using h2, fun ms' hm => ?_⟩
    rcases List.mem_cons.1 hm with heq | hm
    · cases heq; exact ⟨h.1, h.2.1⟩
    · exact h3 ms' hm

/-- A bound leaves room for a pending transaction. -/
theorem Prog.Within.pending {naps : Bool} {n : Nat} {q : Prog α} (h : q.Within naps n) {f : FaultInfo} (hp : q.pending = some f) :
    1 ≤ n := by
  cases q with
  | ret a => simp [Prog.pending] at hp
  | refuse why => exact h.elim
  | read a k => exact h.1
  | write a v k => exact h.1
  | sleep ms k => simp [Prog.pending] at hp

/-! The shared operations. -/

theorem readReg_within (a : Byte) : (readReg a).Within false 1 := ⟨le_refl 1, fun _ => trivial⟩

theorem writeReg_within (a v : Byte) : (writeReg a v).Within false 1 := ⟨le_refl 1, trivial⟩

theorem setBits_within (a m : Byte) : (setBits a m).Within false 2 := (readReg_within a).bind fun _ => writeReg_within _ _

theorem clearBits_within (a m : Byte) : (clearBits a m).Within false 2 := (readReg_within a).bind fun _ => writeReg_within _ _

theorem pushAll_within (c : Config) (bytes : List Byte) : (pushAll c bytes).Within false bytes.length := by
  induction bytes with
  | nil => trivial
  | cons b bs ih => exact ((writeReg_within _ _).andThen ih).mono (by simp [Nat.add_comm])

theorem drain_within (c : Config) (k : Nat) : (drain c k).Within false k := by
  induction k with
  | zero => trivial
  | succ k ih => exact ((readReg_within _).bind fun b => ih.map (b :: ·)).mono (by omega)

theorem pollReg_within (a stop : Byte) (k : Nat) (n : Byte) : (pollReg a stop k n).Within false k := by
  induction k generalizing n with
  | zero => trivial
  | succ k ih =>
    rw [pollReg]
    refine ((readReg_within _).bind (n := k) fun m => ?_).mono (by omega)
    split
    · trivial
    · exact ih m

theorem calcCrc_within (c : Config) (bytes : List Byte) : (calcCrc c bytes).Within false (crcBound c bytes.length) := by
  refine ((clearBits_within _ _).andThen <| (setBits_within _ _).andThen <| (pushAll_within _ _).andThen <|
    (writeReg_within _ _).andThen <| (pollReg_within _ _ _ _).bind fun _ => (readReg_within _).bind fun _ =>
    (readReg_within _).map _).mono ?_
  simp only [crcBound]; omega

theorem takeResponse_within (c : Config) : (takeResponse c).Within false (2 + c.rxCapacity) := by
  refine ((readReg_within _).bind fun count => (readReg_within _).bind fun _ =>
    ((drain_within _ _).mono (Nat.min_le_right _ _)).map _).mono ?_
  omega

theorem decodeOutcome_within (c : Config) (kind : ExecKind) (hit : Bool) (n : Byte) :
    (decodeOutcome c kind hit n).Within false (3 + c.rxCapacity) := by
  unfold decodeOutcome
  split
  · refine ((readReg_within _).bind (n := 2 + c.rxCapacity) fun e => ?_).mono (by omega)
    split
    · trivial
    · split
      · trivial
      · cases kind with
        | authenticate => trivial
        | transceive => exact takeResponse_within c
  · trivial

theorem runCommand_within (c : Config) (kind : ExecKind) (send : List Byte) :
    (runCommand c kind send).Within false (toCardBound c send.length) := by
  have hstart : (startCommand c kind).Within false 3 := by
    refine ((writeReg_within _ _).andThen (n := 2) ?_).mono (by omega)
    cases kind with
    | transceive => exact setBits_within _ _
    | authenticate => trivial
  have harm : (armAndLoad c kind send).Within false (6 + send.length) :=
    ((writeReg_within _ _).andThen <| (clearBits_within _ _).andThen <| (setBits_within _ _).andThen <|
      (writeReg_within _ _).andThen <| pushAll_within _ _).mono (by omega)
  refine (harm.andThen <| hstart.andThen <| (pollReg_within _ _ _ _).bind fun _ => (clearBits_within _ _).andThen <|
    decodeOutcome_within _ _ _ _).mono ?_
  simp only [toCardBound]; omega

theorem sendWithCrc_within (c : Config) (buf : List Byte) : (sendWithCrc c buf).Within false (frameBound c buf.length) :=
  (calcCrc_within c buf).bind fun crc => by simpa [toCard, CommandKind.admitted] using runCommand_within c .transceive (buf ++ [crc.lo, crc.hi])

theorem requestOp_within (c : Config) : (requestOp c).Within false (1 + toCardBound c 1) :=
  (writeReg_within _ _).andThen ((runCommand_within c .transceive [c.piccReq]).map _)

theorem anticollOp_within (c : Config) : (anticollOp c).Within false (1 + toCardBound c 2) :=
  (writeReg_within _ _).andThen ((runCommand_within c .transceive [selCl1, nvbAnticoll]).map _)

theorem selectOp_within (c : Config) (uid : List Byte) : (selectOp c uid).Within false (frameBound c (2 + min 5 uid.length)) := by
  have hlen : (selectBuf uid).length = 2 + min 5 uid.length := by simp [selectBuf]; omega
  exact hlen ▸ (sendWithCrc_within c (selectBuf uid)).map selectDecode

theorem authOp_within (c : Config) (variant : KeyVariant) (blk : Byte) {key uid : List Byte} (hkey : key.length = 6)
    (huid : 4 ≤ uid.length) : (authOp c variant blk key uid).Within false (toCardBound c 12) := by
  have := (runCommand_within c .authenticate (authBuf c variant blk key uid)).map authDecode
  simpa [authOp, hkey, huid, keyLen, uidLen, toCard, CommandKind.admitted, authBuf] using this

theorem readBlockOp_within (c : Config) (a : Byte) : (readBlockOp c a).Within false (frameBound c 2) :=
  (sendWithCrc_within c [piccRead, a]).map _

theorem writeBlockOp_within (c : Config) (a : Byte) {data : List Byte} (h : data.length = 16) :
    (writeBlockOp c a data).Within false (frameBound c 2 + frameBound c 16) := by
  simp only [writeBlockOp, h, blockSize, if_true]
  refine (sendWithCrc_within c [piccWrite, a]).bind fun r1 => ?_
  split
  · have := sendWithCrc_within c data
    rw [h] at this
    exact this.bind (n := 0) fun r2 => by split <;> trivial
  · trivial

theorem rearmAll_within (items : List RearmItem) : (rearmAll items).Within false (2 * items.length) := by
  induction items with
  | nil => trivial
  | cons item items ih =>
    have h : (rearmItem item).Within false 2 := by
      cases item with
      | write a v => exact (writeReg_within a v).mono (by omega)
      | set a m => exact setBits_within a m
      | clear a m => exact clearBits_within a m
    exact (h.andThen ih).mono (by simp; omega)

theorem waitLoop_within (c : Config) (t : Int) (n elapsed : Nat) :
    (waitLoop c t n elapsed).Within true (n * (2 * c.rearmSeq.length + 1 + toCardBound c 1)) := by
  induction n generalizing elapsed with
  | zero => trivial
  | succ n ih =>
    rw [waitLoop]
    refine ((rearmAll_within _).nap.andThen <| (requestOp_within c).nap.bind
      (n := n * (2 * c.rearmSeq.length + 1 + toCardBound c 1)) fun r => ?_).mono (by rw [Nat.add_mul n 1]; omega)
    cases r with
    | detected => trivial
    | noCard =>
      refine ⟨rfl, rfl, ?_⟩
      split
      · trivial
      · exact ih _

/-- A block number of a session is authenticated and accessed within the bounds of the two. -/
theorem withSector_within {c : Config} {uid : List Byte} {sector block n : Nat} {keyA keyB : Option (List Byte)}
    {failed : SessionError → α} {access : Byte → Prog α} (huid : 4 ≤ uid.length) (hA : keyWf keyA = true) (hB : keyWf keyB = true)
    (h : ∀ a, (access a).Within false n) : (withSector c uid sector block keyA keyB failed access).Within false (toCardBound c 12 + n) := by
  unfold withSector
  split
  · trivial
  · next variant key hk =>
    have hkey : key.length = 6 := by
      cases keyA with
      | some k => simp only [chooseKey, Option.some.injEq, Prod.mk.injEq] at hk; simpa [keyWf, hk.2] using hA
      | none =>
        cases keyB with
        | some k => simp only [chooseKey, Option.some.injEq, Prod.mk.injEq] at hk; simpa [keyWf, hk.2] using hB
        | none => simp [chooseKey] at hk
    split
    · trivial
    · next a ha =>
      refine (authOp_within c variant (blockByte a) hkey huid).bind fun r => ?_
      cases r with
      | authFailed => trivial
      | authOk => exact h _

/-- The one operation that sleeps (45_session.md R110). -/
def napsIn : Instr → Bool
  | .waitcard _ => true
  | _ => false

/-- An operation with well-formed operands stays within its bound. -/
theorem progOf_within (c : Config) (i : Instr) (h : i.wf = true) :
    (progOf c i).Within (napsIn i) (maxTransactions c i) := by
  cases i with
  | wreg r v => exact (writeReg_within _ _).map _
  | rreg r => exact (readReg_within _).map _
  | setb r m => exact (setBits_within _ _).map _
  | clrb r m => exact (clearBits_within _ _).map _
  | calccrc bytes => exact (calcCrc_within _ _).map _
  | tocardTrx send => exact (runCommand_within c .transceive send).map _
  | tocardAuth send => exact (runCommand_within c .authenticate send).map _
  | bcc u =>
    simp only [Instr.wf, decide_eq_true_eq] at h
    match u, h with
    | [_, _, _, _], _ => trivial
  | request => exact (requestOp_within c).map _
  | anticoll => exact (anticollOp_within c).map _
  | select uid => exact (selectOp_within c uid).map _
  | auth variant blk key uid =>
    simp only [Instr.wf, Bool.and_eq_true, decide_eq_true_eq] at h
    exact (authOp_within c variant blk h.1 h.2).map _
  | stopcrypto => exact (clearBits_within _ _).map _
  | sectoraddr sector block => trivial
  | readblk a => exact (readBlockOp_within c a).map _
  | writeblk a data =>
    simp only [Instr.wf, decide_eq_true_eq] at h
    exact (writeBlockOp_within c a h).map _
  | rearm => exact (rearmAll_within _).map _
  | waitcard t =>
    refine ((waitLoop_within c t (waitAttempts t) 0).map _).mono ?_
    have : waitAttempts t = (max 1 ((t + 99) / 100)).toNat := by simp only [waitAttempts, pollIntervalMs]; omega
    simp only [maxTransactions, this, le_refl]
  | readuid => exact (anticollOp_within c).map _
  | readsect uid sector block keyA keyB =>
    simp only [Instr.wf, Bool.and_eq_true, decide_eq_true_eq] at h
    exact (withSector_within h.1.1 h.1.2 h.2 fun a => (readBlockOp_within c a).map _).map _
  | writesect uid sector block data keyA keyB =>
    simp only [Instr.wf, Bool.and_eq_true, decide_eq_true_eq] at h
    obtain ⟨⟨⟨huid, hdata⟩, hA⟩, hB⟩ := h
    have := (withSector_within (c := c) (sector := sector) (block := block) (failed := WriteSectorResult.failed) huid hA hB
      fun a => (writeBlockOp_within c a hdata).map writeSectorDecode).map OpResult.writeSector
    simpa [progOf, writeSectorOp, hdata, blockSize, maxTransactions, napsIn, Nat.add_assoc] using this

/-- Whatever its operands: an operation refuses before its first event, or not at all. -/
theorem progOf_cases (c : Config) (i : Instr) :
    (∃ why, progOf c i = .refuse why) ∨
    (progOf c i).Within (napsIn i) (maxTransactions c i) := by
  have hauth : ∀ (variant : KeyVariant) (blk : Byte) (key uid : List Byte), ¬ (key.length = 6 ∧ 4 ≤ uid.length) →
      authOp c variant blk key uid = .refuse .authNeedsKeyAndUid := by
    intro variant blk key uid hn
    simp only [authOp, keyLen, uidLen]; exact if_neg hn
  have hsect : ∀ {α : Type} (uid : List Byte) (sector block n : Nat) (keyA keyB : Option (List Byte)) (failed : SessionError → α)
      (access : Byte → Prog α), (∀ a, (access a).Within false n) →
      (∃ why, withSector c uid sector block keyA keyB failed access = .refuse why) ∨
        (withSector c uid sector block keyA keyB failed access).Within false (toCardBound c 12 + n) := by
    intro α uid sector block n keyA keyB failed access h
    unfold withSector
    split
    · exact .inr trivial
    · next variant key hk =>
      split
      · exact .inr trivial
      · next a ha =>
        by_cases hl : key.length = 6 ∧ 4 ≤ uid.length
        · refine .inr ((authOp_within c variant (blockByte a) hl.1 hl.2).bind fun r => ?_)
          cases r with
          | authFailed => trivial
          | authOk => exact h _
        · exact .inl ⟨.authNeedsKeyAndUid, by rw [hauth _ _ _ _ hl]; rfl⟩
  by_cases h : i.wf = true
  · exact .inr (progOf_within c i h)
  cases i with
  | wreg r v => exact .inr ((writeReg_within _ _).map _)
  | rreg r => exact .inr ((readReg_within _).map _)
  | setb r m => exact .inr ((setBits_within _ _).map _)
  | clrb r m => exact .inr ((clearBits_within _ _).map _)
  | calccrc bytes => exact absurd rfl h
  | tocardTrx send => exact absurd rfl h
  | tocardAuth send => exact absurd rfl h
  | bcc u =>
    refine .inl ⟨.bccNeedsFourBytes, ?_⟩
    simp only [Instr.wf, decide_eq_true_eq] at h
    match u, h with
    | [], _ => rfl
    | [_], _ => rfl
    | [_, _], _ => rfl
    | [_, _, _], _ => rfl
    | [_, _, _, _], h => exact absurd rfl h
    | _ :: _ :: _ :: _ :: _ :: _, _ => rfl
  | request => exact absurd rfl h
  | anticoll => exact absurd rfl h
  | select uid => exact absurd rfl h
  | auth variant blk key uid =>
    simp only [Instr.wf, Bool.and_eq_true, decide_eq_true_eq] at h
    exact .inl ⟨_, by simp only [progOf]; rw [hauth _ _ _ _ h]; rfl⟩
  | stopcrypto => exact absurd rfl h
  | sectoraddr sector block => exact absurd rfl h
  | readblk a => exact absurd rfl h
  | writeblk a data =>
    simp only [Instr.wf, decide_eq_true_eq] at h
    exact .inl ⟨.writeBlockNeedsSixteenBytes, by simp [progOf, writeBlockOp, blockSize, h, Prog.map, Prog.bind]⟩
  | rearm => exact absurd rfl h
  | waitcard t => exact absurd rfl h
  | readuid => exact absurd rfl h
  | readsect uid sector block keyA keyB =>
    rcases hsect uid sector block _ keyA keyB .failed _ (fun a => (readBlockOp_within c a).map readSectorDecode) with ⟨why, hw⟩ | hw
    · exact .inl ⟨why, by simp only [progOf, readSectorOp]; rw [hw]; rfl⟩
    · exact .inr (hw.map _)
  | writesect uid sector block data keyA keyB =>
    by_cases hd : data.length = 16
    · rcases hsect uid sector block _ keyA keyB .failed _ (fun a => (writeBlockOp_within c a hd).map writeSectorDecode) with ⟨why, hw⟩ | hw
      · exact .inl ⟨why, by simp [progOf, writeSectorOp, blockSize, hd, hw]; rfl⟩
      · refine .inr ?_
        have := hw.map OpResult.writeSector
        simpa [progOf, writeSectorOp, hd, blockSize, maxTransactions, napsIn, Nat.add_assoc] using this
    · exact .inl ⟨.writeSectorNeedsSixteenBytes, by simp [progOf, writeSectorOp, blockSize, hd, Prog.map, Prog.bind]⟩

/-- Everything an operation that gives a next state can have done: refused with nothing else changed; or made, within its bound, the events of
a way through its program, to its return or to a failed transaction. -/
theorem exec_next_within {i : Instr} {s t : State} (h : exec i s = .next t) :
    s.fault = none ∧
      (t = s.markRefused ∨
       (s.config.wf = true ∧ ∃ ans evs q, (progOf s.config i).Along ans evs q ∧ s.Gives ans ∧ ans.length = readsIn evs ∧
          transactions evs ≤ maxTransactions s.config i ∧ (∀ ms, .sleep ms ∈ evs → napsIn i = true ∧ ms = 100) ∧
          ((∃ r, q = .ret r ∧ t = (s.after evs (s.answers.drop (readsIn evs))).returnResult r) ∨
           (∃ f, q.pending = some f ∧ s.config.channelCanFault = true ∧ ¬ s.Quiet (transactions evs + 1) ∧
              transactions evs + 1 ≤ maxTransactions s.config i ∧
              t = s.interrupted evs f (s.failures.drop (transactions evs + 1)))))) := by
  obtain ⟨hf, h⟩ := exec_next_cases h
  refine ⟨hf, ?_⟩
  rcases h with ⟨_, h⟩ | ⟨hw, ans, evs, q, hal, hg, hlen, h⟩
  · exact .inl h
  rcases progOf_cases s.config i with ⟨why, hp⟩ | hp
  · rw [hp] at hal
    cases hal
    rcases h with ⟨r, hq, _⟩ | ⟨why, hq, ht⟩ | ⟨f, hq, _⟩
    · cases hq
    · exact .inl (by rw [ht, State.after_nil (by simp)])
    · cases hq
  · obtain ⟨h1, h2, h3⟩ := hp.along hal
    refine .inr ⟨hw, ans, evs, q, hal, hg, hlen, h1, h3, ?_⟩
    rcases h with h | ⟨why, rfl, _⟩ | ⟨f, hq, hc, hnq, ht⟩
    · exact .inl h
    · exact h2.elim
    · exact .inr ⟨f, hq, hc, hnq, by have := h2.pending hq; omega, ht⟩

end Sys2Proof.Machine
end

