-- ==== Sys2Proof/Laws/Paths.lean ====
section
/-! SUPPORT. The paths of the shared operations: every answer script of Safety.lean is a path of the operation it describes. The provers cite
these instead of unfolding an operation. -/

namespace Sys2Proof.Machine

/-! The primitives. -/

theorem readReg_path (a r : Byte) : (readReg a).Path [r] [rd a r] r :=
  .read a r _ _ _ _ (.ret r)

theorem writeReg_path (a v : Byte) : (writeReg a v).Path [] [wr a v] () :=
  .write a v _ _ _ _ (.ret ())

theorem setBits_path (a m r : Byte) : (setBits a m).Path [r] [rd a r, wr a (r ||| m)] () :=
  (readReg_path a r).bind (writeReg_path a (r ||| m))

theorem clearBits_path (a m r : Byte) : (clearBits a m).Path [r] [rd a r, wr a (r &&& ~~~m)] () :=
  (readReg_path a r).bind (writeReg_path a (r &&& ~~~m))

theorem pushAll_path (c : Config) (bytes : List Byte) : (pushAll c bytes).Path [] (bytes.map (wr c.regFifoData)) () := by
  induction bytes with
  | nil => exact .ret ()
  | cons b bs ih => exact (writeReg_path _ b).andThen ih

theorem drain_path (c : Config) (frame : List Byte) :
    (drain c frame.length).Path frame (frame.map (rd c.regFifoData)) frame := by
  induction frame with
  | nil => exact .ret []
  | cons b bs ih => exact (readReg_path _ b).bind (ih.map (b :: ·))

/-- A poll over answers none of which has a bit of the mask goes on with what is left of the budget. -/
theorem pollReg_misses (a stop : Byte) (k : Nat) (misses : List Byte) (hmiss : ∀ m ∈ misses, m &&& stop = 0) (n0 : Byte)
    {ans : List Byte} {evs : List Event} {x : Bool × Byte}
    (h : ∀ n, (misses = [] → n = n0) → (pollReg a stop k n).Path ans evs x) :
    (pollReg a stop (misses.length + k) n0).Path (misses ++ ans) (misses.map (rd a) ++ evs) x := by
  induction misses generalizing n0 with
  | nil => simpa using h n0 (fun _ => rfl)
  | cons m ms ih =>
    have hm : m &&& stop = 0 := hmiss m (by simp)
    rw [List.length_cons, Nat.add_right_comm, pollReg]
    refine (readReg_path a m).bind (ans' := ms ++ ans) (evs' := ms.map (rd a) ++ evs) ?_
    simp only [hm, ne_eq, not_true_eq_false, if_false]
    exact ih (fun m' hm' => hmiss m' (by simp [hm'])) m fun n hn => h n (by simp)

theorem pollReg_path {a stop : Byte} {budget : Nat} {polls : List Byte} {hit : Bool} {n : Byte} (n0 : Byte)
    (h : PollScript stop budget polls hit n) : (pollReg a stop budget n0).Path polls (polls.map (rd a)) (hit, n) := by
  cases h with
  | hit misses _ hlen hmiss hn =>
    obtain ⟨k, rfl⟩ := Nat.exists_eq_add_of_lt hlen
    rw [Nat.add_assoc, List.map_append]
    refine pollReg_misses a stop (k + 1) misses hmiss n0 fun n' _ => ?_
    rw [pollReg]
    refine (readReg_path a n).bind (ans' := []) (evs' := []) ?_
    simp only [hn, ne_eq, not_false_eq_true, if_true]
    exact .ret _
  | exhausted misses _ hlen hmiss hn =>
    subst hlen
    rw [List.map_append]
    refine pollReg_misses a stop 1 misses hmiss n0 fun n' _ => ?_
    rw [pollReg]
    refine (readReg_path a n).bind (ans' := []) (evs' := []) ?_
    simp only [hn, ne_eq, not_true_eq_false, if_false, pollReg]
    exact .ret _

/-! CalcCRC and ToCard. -/

theorem calcCrc_path {c : Config} {bytes ans : List Byte} {evs : List Event} {r : CrcResult} (h : CrcScript c bytes ans evs r) :
    (calcCrc c bytes).Path ans evs r := by
  cases h with
  | run flag level lo hi n polls done hp =>
    have h3 : ((readReg c.regCrcResultL).bind fun lo => (readReg c.regCrcResultH).bind fun hi => .ret (CrcResult.mk lo hi done)).Path
        [lo, hi] [rd c.regCrcResultL lo, rd c.regCrcResultH hi] ⟨lo, hi, done⟩ :=
      (readReg_path c.regCrcResultL lo).bind ((readReg_path c.regCrcResultH hi).bind_done rfl)
    have h2 := (pollReg_path (a := c.regCrcIrq) 0 hp).bind (f := fun poll => (readReg c.regCrcResultL).bind fun lo =>
      (readReg c.regCrcResultH).bind fun hi => .ret (CrcResult.mk lo hi poll.1)) h3
    have := (clearBits_path c.regCrcIrq c.crcIrq flag).andThen <| (setBits_path c.regFifoLevel c.fifoFlush level).andThen <|
      (pushAll_path c bytes).andThen <| (writeReg_path c.regCommand c.cmdCalcCrc).andThen h2
    simpa [calcCrc] using this

/-- The bit count of the script is the model's. -/
theorem bitCount_eq (count control : Byte) : bitCount count control = validBits count control := by
  simp [bitCount, validBits, lastBits, lastBitsMask]

theorem decodeOutcome_path {c : Config} {kind : ExecKind} {hit : Bool} {n : Byte} {ans : List Byte} {evs : List Event} {r : ExecResult}
    (h : OutcomeScript c (c.ien kind) n kind hit ans evs r) : (decodeOutcome c kind hit n).Path ans evs r := by
  cases h with
  | timeout => exact .ret _
  | errorBits _ e he =>
    refine (readReg_path c.regError e).bind (ans' := []) (evs' := []) ?_
    simp only [errorReported, anyBit, errMask, ne_eq, he, not_false_eq_true, decide_true, if_true]
    exact .ret _
  | noTag _ e he hn =>
    refine (readReg_path c.regError e).bind (ans' := []) (evs' := []) ?_
    simp only [errorReported, anyBit, errMask, Config.noTag, ne_eq, he, hn, not_true_eq_false, decide_false, not_false_eq_true,
      decide_true, if_true]
    exact .ret _
  | authenticated e he hn =>
    refine (readReg_path c.regError e).bind (ans' := []) (evs' := []) ?_
    simp only [errorReported, anyBit, errMask, Config.noTag, ne_eq, he, hn, not_true_eq_false, decide_false]
    exact .ret _
  | response e count control frame he hn hlen =>
    refine (readReg_path c.regError e).bind (ans' := count :: control :: frame)
      (evs' := rd c.regFifoLevel count :: rd c.regControl control :: frame.map (rd c.regFifoData)) ?_
    simp only [errorReported, anyBit, errMask, Config.noTag, ne_eq, he, hn, not_true_eq_false, decide_false]
    refine (readReg_path c.regFifoLevel count).bind <| (readReg_path c.regControl control).bind ?_
    have hd := drain_path c frame
    rw [hlen] at hd
    rw [bitCount_eq]
    have := hd.bind (f := fun frame => .ret (⟨.success, frame, validBits count control⟩ : ExecResult)) (.ret _)
    simpa [drainCount] using this

theorem runCommand_path {c : Config} {kind : ExecKind} {send ans : List Byte} {evs : List Event} {r : ExecResult}
    (h : ToCardScript c send kind ans evs r) : (runCommand c kind send).Path ans evs r := by
  cases h with
  | transceive irq level framing n framing' polls tailAns hit tailEvs _ hp ho =>
    have h2 := (pollReg_path (a := c.regIrqStatus) 0 hp).bind (f := fun poll => (clearBits c.regBitFraming c.startSend).andThen
      (decodeOutcome c .transceive poll.1 poll.2))
      ((clearBits_path c.regBitFraming c.startSend framing').andThen
        (decodeOutcome_path (c := c) (kind := .transceive) (hit := hit) (n := n) (by simpa [Config.ien] using ho)))
    have := ((writeReg_path c.regIrqEnable (withBits (c.ien .transceive) c.ienWriteOr)).andThen <|
      (clearBits_path c.regIrqStatus c.irqClearMask irq).andThen <| (setBits_path c.regFifoLevel c.fifoFlush level).andThen <|
      (writeReg_path c.regCommand c.cmdIdle).andThen (pushAll_path c send)).andThen <|
      ((writeReg_path c.regCommand (c.execCode .transceive)).andThen (setBits_path c.regBitFraming c.startSend framing)).andThen  h2
    simpa [runCommand, armAndLoad, startCommand, loadEvents, Config.ien, Config.execCode, Config.pollStop, Config.wait, withBits] using this
  | authenticate irq level n framing' polls tailAns hit tailEvs _ hp ho =>
    have h2 := (pollReg_path (a := c.regIrqStatus) 0 hp).bind (f := fun poll => (clearBits c.regBitFraming c.startSend).andThen
      (decodeOutcome c .authenticate poll.1 poll.2))
      ((clearBits_path c.regBitFraming c.startSend framing').andThen
        (decodeOutcome_path (c := c) (kind := .authenticate) (hit := hit) (n := n) (by simpa [Config.ien] using ho)))
    have := ((writeReg_path c.regIrqEnable (withBits (c.ien .authenticate) c.ienWriteOr)).andThen <|
      (clearBits_path c.regIrqStatus c.irqClearMask irq).andThen <| (setBits_path c.regFifoLevel c.fifoFlush level).andThen <|
      (writeReg_path c.regCommand c.cmdIdle).andThen (pushAll_path c send)).andThen <|
      ((writeReg_path c.regCommand (c.execCode .authenticate)).andThen (.ret ())).andThen  h2
    simpa [runCommand, armAndLoad, startCommand, loadEvents, Config.ien, Config.execCode, Config.pollStop, Config.wait, withBits] using this

theorem sendWithCrc_path {c : Config} {buf ans : List Byte} {evs : List Event} {r : ExecResult} (h : FrameScript c buf ans evs r) :
    (sendWithCrc c buf).Path ans evs r := by
  cases h with
  | send crcAns ans crcEvs evs crc _ hc ht => exact (calcCrc_path hc).bind (runCommand_path ht)

/-! The framer. -/

theorem requestOp_path {c : Config} {ans : List Byte} {evs : List Event} {r : RequestResult} (h : RequestScript c ans evs r) :
    (requestOp c).Path ans evs r := by
  cases h with
  | detected evs frame ht =>
    have := (writeReg_path c.regBitFraming c.framingShort).andThen ((runCommand_path ht).map requestDecode)
    simpa [requestOp, toCard, CommandKind.admitted, requestDecode] using this
  | noCard evs r ht hr =>
    have := (writeReg_path c.regBitFraming c.framingShort).andThen ((runCommand_path ht).map requestDecode)
    simpa [requestOp, toCard, CommandKind.admitted, requestDecode, hr] using this

/-- A frame of other than five bytes. -/
theorem anticollFrame_wrongLength {frame : List Byte} (h : frame.length ≠ 5) :
    anticollFrame frame = .failed (.wrongLength frame.length) := by
  unfold anticollFrame
  split
  · simp at h
  · rfl

theorem anticollOp_path {c : Config} {ans : List Byte} {evs : List Event} {r : AnticollResult} (h : AnticollScript c ans evs r) :
    (anticollOp c).Path ans evs r := by
  have key : ∀ {evs : List Event} {x : ExecResult}, ToCardScript c [0x93, 0x20] .transceive ans evs x →
      (anticollOp c).Path ans (wr c.regBitFraming c.framingFull :: evs) (anticollDecode x) := fun ht =>
    (writeReg_path c.regBitFraming c.framingFull).andThen ((runCommand_path ht).map anticollDecode)
  cases h with
  | uid evs u0 u1 u2 u3 vb ht => simpa [anticollDecode, anticollFrame, bccOf] using key ht
  | mismatch evs u0 u1 u2 u3 u4 vb ht hne => simpa [anticollDecode, anticollFrame, bccOf, hne] using key ht
  | wrongLength evs frame vb ht hlen => simpa [anticollDecode, anticollFrame_wrongLength hlen] using key ht
  | execFailed evs f frame vb ht => simpa [anticollDecode] using key ht

/-! Authentication and block I/O. -/

theorem authOp_path {c : Config} {variant : KeyVariant} {blk : Byte} {key uid ans : List Byte} {evs : List Event} {r : AuthResult}
    (hkey : key.length = 6) (huid : 4 ≤ uid.length) (h : AuthScript c variant blk key uid ans evs r) :
    (authOp c variant blk key uid).Path ans evs r := by
  have hbuf : (modeByte c variant :: blk :: key) ++ uid.take 4 =
      authBuf c variant blk key uid := by
    cases variant <;> simp [authBuf, Config.authMode, modeByte, uidLen]
  cases h with
  | ok frame vb ht =>
    rw [hbuf] at ht
    have := (runCommand_path ht).map authDecode
    simpa [authOp, hkey, huid, keyLen, uidLen, toCard, CommandKind.admitted, authDecode] using this
  | failed f frame vb ht =>
    rw [hbuf] at ht
    have := (runCommand_path ht).map authDecode
    simpa [authOp, hkey, huid, keyLen, uidLen, toCard, CommandKind.admitted, authDecode] using this

theorem readBlockOp_path {c : Config} {a : Byte} {ans : List Byte} {evs : List Event} {r : ReadResult} (h : ReadScript c a ans evs r) :
    (readBlockOp c a).Path ans evs r := by
  cases h with
  | data frame vb hf hlen => simpa [readBlockOp, piccRead, readDecode, blockSize, hlen] using (sendWithCrc_path hf).map readDecode
  | error r hf hr => simpa [readBlockOp, piccRead, readDecode, blockSize, hr] using (sendWithCrc_path hf).map readDecode

/-- The block number, by its range (44_auth_blockio.md R106). -/
theorem sectorAddr_eq (sector block : Nat) :
    sectorAddr sector block = if sector * 4 + block % 4 ≤ 63 then .block (sector * 4 + block % 4) else .blockOutOfRange := by
  by_cases h : sector * 4 + block % 4 ≤ 63
  · rw [if_pos h]; exact if_neg (by simp only [absoluteBlock, blocksPerSector, maxBlock]; omega)
  · rw [if_neg h]; exact if_pos (by simp only [absoluteBlock, blocksPerSector, maxBlock]; omega)

/-- The acknowledge test of the script is the model's. -/
theorem ackDecode_iff (r : ExecResult) : ackDecode r = true ↔ IsAck r := by
  obtain ⟨status, frame, vb⟩ := r
  unfold ackDecode IsAck
  split
  · next b hs hf =>
    simp only at hs hf
    subst hs hf
    simp only [ackAccepted, ackNibble, true_and, List.cons.injEq, and_true]
    exact ⟨fun h => ⟨b, rfl, of_decide_eq_true h⟩, fun ⟨_, hb, h⟩ => decide_eq_true (hb ▸ h)⟩
  · next hno =>
    simp only [Bool.false_eq_true, false_iff, not_and, not_exists]
    rintro rfl b rfl _
    exact hno b rfl rfl

theorem writeBlockOp_path {c : Config} {a : Byte} {data ans : List Byte} {evs : List Event} {r : WriteResult} (hlen : data.length = 16)
    (h : WriteScript c a data ans evs r) : (writeBlockOp c a data).Path ans evs r := by
  simp only [writeBlockOp, hlen, blockSize, if_true]
  cases h with
  | rejectedFirst _ _ _ hf hr =>
    have hr' := (Bool.eq_false_iff).2 fun h => hr ((ackDecode_iff _).1 h)
    exact (sendWithCrc_path hf).bind_done (by simp [hr'])
  | rejectedSecond ans ans' evs evs' r r' hf hr hf' hr' =>
    have h1 : ackDecode r = true := (ackDecode_iff r).2 hr
    have h2 : ackDecode r' = false := by simpa [← ackDecode_iff] using hr'
    refine (sendWithCrc_path hf).bind ?_
    simp only [h1, if_true]
    exact (sendWithCrc_path hf').bind_done (by simp [h2])
  | written ans ans' evs evs' r r' hf hr hf' hr' =>
    have h1 : ackDecode r = true := (ackDecode_iff r).2 hr
    have h2 : ackDecode r' = true := (ackDecode_iff r').2 hr'
    refine (sendWithCrc_path hf).bind ?_
    simp only [h1, if_true]
    exact (sendWithCrc_path hf').bind_done (by simp [h2])

/-! The session. -/

theorem rearmAll_path {items : List RearmItem} {ans : List Byte} {evs : List Event} (h : RearmScript items ans evs) :
    (rearmAll items).Path ans evs () := by
  induction h with
  | nil => exact .ret ()
  | write a v items ans evs _ ih => exact (writeReg_path a v).andThen ih
  | set a m r items ans evs _ ih => exact (setBits_path a m r).andThen ih
  | clear a m r items ans evs _ ih => exact (clearBits_path a m r).andThen ih

/-- Attempts enough for what is left of the timeout. -/
theorem waitLoop_path {c : Config} {t : Int} {elapsed n : Nat} {ans : List Byte} {evs : List Event} {r : WaitResult}
    (h : WaitScript c t elapsed ans evs r) (hn : 1 ≤ n) (ht : t ≤ ((elapsed + 100 * n : Nat) : Int)) :
    (waitLoop c t n elapsed).Path ans evs r := by
  induction h generalizing n with
  | detected elapsed ans ans' evs evs' hr hq =>
    obtain ⟨k, rfl⟩ := Nat.exists_eq_add_of_le' hn
    have := (rearmAll_path hr).andThen ((requestOp_path hq).bind (f := fun r => match r with
      | .detected => .ret .detected
      | .noCard => .sleep pollIntervalMs <| if t ≤ ((elapsed + pollIntervalMs : Nat) : Int) then .ret .timeout
        else waitLoop c t k (elapsed + pollIntervalMs)) (ans' := []) (evs' := []) (b := WaitResult.detected) (.ret _))
    simpa using (show (waitLoop c t (k + 1) elapsed).Path _ _ _ from this)
  | timeout elapsed ans ans' evs evs' hr hq hge =>
    obtain ⟨k, rfl⟩ := Nat.exists_eq_add_of_le' hn
    have hle : t ≤ ((elapsed + pollIntervalMs : Nat) : Int) := hge
    have := (rearmAll_path hr).andThen ((requestOp_path hq).bind (f := fun r => match r with
      | .detected => .ret .detected
      | .noCard => .sleep pollIntervalMs <| if t ≤ ((elapsed + pollIntervalMs : Nat) : Int) then .ret .timeout
        else waitLoop c t k (elapsed + pollIntervalMs)) (ans' := []) (evs' := [.sleep 100]) (b := WaitResult.timeout)
        (by simp only [if_pos hle]; exact .sleep _ _ _ _ _ (.ret _)))
    simpa using (show (waitLoop c t (k + 1) elapsed).Path _ _ _ from this)
  | again elapsed ans ans' ans'' evs evs' evs'' r hr hq hlt _ ih =>
    obtain ⟨k, rfl⟩ := Nat.exists_eq_add_of_le' hn
    have hnle : ¬ t ≤ ((elapsed + pollIntervalMs : Nat) : Int) := by simpa [pollIntervalMs] using hlt
    have hk : (waitLoop c t k (elapsed + pollIntervalMs)).Path ans'' evs'' r := by
      refine ih ?_ ?_
      · by_contra h0
        have : k = 0 := by omega
        subst this
        omega
      · omega
    have := (rearmAll_path hr).andThen ((requestOp_path hq).bind (f := fun r => match r with
      | .detected => .ret .detected
      | .noCard => .sleep pollIntervalMs <| if t ≤ ((elapsed + pollIntervalMs : Nat) : Int) then .ret .timeout
        else waitLoop c t k (elapsed + pollIntervalMs)) (ans' := ans'') (evs' := .sleep 100 :: evs'') (b := r)
        (by simp only [if_neg hnle]; exact .sleep _ _ _ _ _ hk))
    simpa using (show (waitLoop c t (k + 1) elapsed).Path _ _ _ from this)

/-- The attempts WAITCARD starts with reach its timeout. -/
theorem waitAttempts_enough (t : Int) : 1 ≤ waitAttempts t ∧ t ≤ ((0 + 100 * waitAttempts t : Nat) : Int) := by
  simp only [waitAttempts, pollIntervalMs]
  omega

theorem waitOp_path {c : Config} {t : Int} {ans : List Byte} {evs : List Event} {r : WaitResult} (h : WaitScript c t 0 ans evs r) :
    (waitOp c t).Path ans evs r :=
  waitLoop_path h (waitAttempts_enough t).1 (waitAttempts_enough t).2

theorem chooseKey_eq {keyA keyB : Option (List Byte)} {variant : KeyVariant} {key : List Byte} (h : KeyChosen keyA keyB variant key) :
    chooseKey keyA keyB = some (variant, key) := by
  cases h <;> rfl

end Sys2Proof.Machine
end

