-- ==== Sys2Proof/Laws/PerInstr.lean ====
section
/-! SUPPORT. Laws stated once per constructor of Instr. -/

namespace Sys2Proof.Laws

/-! LineHead: the first token of an operation's line is a mnemonic the decoder finds, and the rest goes to that mnemonic's operands
(30_encoding.md R75). -/

def LineHead.Statement (i : Instr) : Prop :=
  Mnemonic.ofName i.mnemonic.name = some i.mnemonic ∧ parseToks i.toks = parseOperands i.mnemonic (operandToks i)

theorem LineHead.wreg (r : RegRef) (v : Byte) : LineHead.Statement (.wreg r v) := ⟨rfl, rfl⟩
theorem LineHead.rreg (r : RegRef) : LineHead.Statement (.rreg r) := ⟨rfl, rfl⟩
theorem LineHead.setb (r : RegRef) (m : Byte) : LineHead.Statement (.setb r m) := ⟨rfl, rfl⟩
theorem LineHead.clrb (r : RegRef) (m : Byte) : LineHead.Statement (.clrb r m) := ⟨rfl, rfl⟩
theorem LineHead.calccrc (bytes : List Byte) : LineHead.Statement (.calccrc bytes) := ⟨rfl, rfl⟩
theorem LineHead.tocardTrx (send : List Byte) : LineHead.Statement (.tocardTrx send) := ⟨rfl, rfl⟩
theorem LineHead.tocardAuth (send : List Byte) : LineHead.Statement (.tocardAuth send) := ⟨rfl, rfl⟩
theorem LineHead.bcc (u : List Byte) : LineHead.Statement (.bcc u) := ⟨rfl, rfl⟩
theorem LineHead.request : LineHead.Statement .request := ⟨rfl, rfl⟩
theorem LineHead.anticoll : LineHead.Statement .anticoll := ⟨rfl, rfl⟩
theorem LineHead.select (uid : List Byte) : LineHead.Statement (.select uid) := ⟨rfl, rfl⟩
theorem LineHead.auth (variant : KeyVariant) (blk : Byte) (key : List Byte) (uid : List Byte) : LineHead.Statement (.auth variant blk key uid) := ⟨rfl, rfl⟩
theorem LineHead.stopcrypto : LineHead.Statement .stopcrypto := ⟨rfl, rfl⟩
theorem LineHead.sectoraddr (sector : Nat) (block : Nat) : LineHead.Statement (.sectoraddr sector block) := ⟨rfl, rfl⟩
theorem LineHead.readblk (a : Byte) : LineHead.Statement (.readblk a) := ⟨rfl, rfl⟩
theorem LineHead.writeblk (a : Byte) (data : List Byte) : LineHead.Statement (.writeblk a data) := ⟨rfl, rfl⟩
theorem LineHead.rearm : LineHead.Statement .rearm := ⟨rfl, rfl⟩
theorem LineHead.waitcard (t : Int) : LineHead.Statement (.waitcard t) := ⟨rfl, rfl⟩
theorem LineHead.readuid : LineHead.Statement .readuid := ⟨rfl, rfl⟩
theorem LineHead.readsect (uid : List Byte) (sector : Nat) (block : Nat) (keyA : Option (List Byte)) (keyB : Option (List Byte)) : LineHead.Statement (.readsect uid sector block keyA keyB) := ⟨rfl, rfl⟩
theorem LineHead.writesect (uid : List Byte) (sector : Nat) (block : Nat) (data : List Byte) (keyA : Option (List Byte)) (keyB : Option (List Byte)) : LineHead.Statement (.writesect uid sector block data keyA keyB) := ⟨rfl, rfl⟩

end Sys2Proof.Laws
end

