-- ==== Sys2Proof/Laws/Scripts.lean ====
section
/-! SUPPORT. The converse of Laws/Paths.lean: every path of CalcCRC and of ToCard is an answer script, so the scripts say everything those
operations can do. -/

namespace Sys2Proof.Machine

variable {α β : Type}

/-! The primitives. -/

theorem readReg_path_inv {a x : Byte} {ans : List Byte} {evs : List Event} (h : (readReg a).Path ans evs x) :
    ans = [x] ∧ evs = [rd a x] := by
  cases h with
  | read _ r _ _ _ _ h => cases h; exact ⟨rfl, rfl⟩

theorem writeReg_path_inv {a v : Byte} {x : Unit} {ans : List Byte} {evs : List Event} (h : (writeReg a v).Path ans evs x) :
    ans = [] ∧ evs = [wr a v] := by
  cases h with
  | write _ _ _ _ _ _ h => cases h; exact ⟨rfl, rfl⟩

theorem setBits_path_inv {a m : Byte} {x : Unit} {ans : List Byte} {evs : List Event} (h : (setBits a m).Path ans evs x) :
    ∃ r, ans = [r] ∧ evs = [rd a r, wr a (r ||| m)] := by
  obtain ⟨_, _, _, _, r, rfl, rfl, h1, h2⟩ := Prog.path_bind_inv h
  obtain ⟨rfl, rfl⟩ := readReg_path_inv h1
  obtain ⟨rfl, rfl⟩ := writeReg_path_inv h2
  exact ⟨r, rfl, rfl⟩

theorem clearBits_path_inv {a m : Byte} {x : Unit} {ans : List Byte} {evs : List Event} (h : (clearBits a m).Path ans evs x) :
    ∃ r, ans = [r] ∧ evs = [rd a r, wr a (r &&& ~~~m)] := by
  obtain ⟨_, _, _, _, r, rfl, rfl, h1, h2⟩ := Prog.path_bind_inv h
  obtain ⟨rfl, rfl⟩ := readReg_path_inv h1
  obtain ⟨rfl, rfl⟩ := writeReg_path_inv h2
  exact ⟨r, rfl, rfl⟩

theorem pushAll_path_inv {c : Config} {bytes : List Byte} {x : Unit} {ans : List Byte} {evs : List Event}
    (h : (pushAll c bytes).Path ans evs x) : ans = [] ∧ evs = bytes.map (wr c.regFifoData) := by
  induction bytes generalizing ans evs with
  | nil => cases h; exact ⟨rfl, rfl⟩
  | cons b bs ih =>
    obtain ⟨_, _, _, _, _, rfl, rfl, h1, h2⟩ := Prog.path_bind_inv h
    obtain ⟨rfl, rfl⟩ := writeReg_path_inv h1
    obtain ⟨rfl, rfl⟩ := ih h2
    exact ⟨rfl, rfl⟩

theorem drain_path_inv {c : Config} {k : Nat} {frame ans : List Byte} {evs : List Event} (h : (drain c k).Path ans evs frame) :
    frame.length = k ∧ ans = frame ∧ evs = frame.map (rd c.regFifoData) := by
  induction k generalizing ans evs frame with
  | zero => cases h; exact ⟨rfl, rfl, rfl⟩
  | succ k ih =>
    obtain ⟨_, _, _, _, b, rfl, rfl, h1, h2⟩ := Prog.path_bind_inv h
    obtain ⟨rfl, rfl⟩ := readReg_path_inv h1
    obtain ⟨_, _, _, _, bs, rfl, rfl, h3, h4⟩ := Prog.path_bind_inv h2
    cases h4
    obtain ⟨rfl, rfl, rfl⟩ := ih h3
    exact ⟨rfl, by simp, by simp⟩

/-- A miss before a poll is a miss of the longer poll. -/
theorem PollScript.cons {stop m n : Byte} {budget : Nat} {polls : List Byte} {hit : Bool} (hm : m &&& stop = 0)
    (h : PollScript stop budget polls hit n) : PollScript stop (budget + 1) (m :: polls) hit n := by
  cases h with
  | hit misses n hlen hmiss hn =>
    exact .hit (m :: misses) n (by simpa using hlen) (by simpa [hm] using hmiss) hn
  | exhausted misses n hlen hmiss hn =>
    exact .exhausted (m :: misses) n (by simpa using hlen) (by simpa [hm] using hmiss) hn

/-- A poll reads at least once and at most its budget, which it uses up if no read hits. -/
theorem PollScript.length {stop n : Byte} {budget : Nat} {polls : List Byte} {hit : Bool} (h : PollScript stop budget polls hit n) :
    1 ≤ polls.length ∧ polls.length ≤ budget ∧ (hit = false → polls.length = budget) := by
  cases h <;> simp <;> omega

theorem pollReg_path_inv {a stop : Byte} {k : Nat} {n0 : Byte} {x : Bool × Byte} {ans : List Byte} {evs : List Event}
    (hk : 1 ≤ k) (h : (pollReg a stop k n0).Path ans evs x) : PollScript stop k ans x.1 x.2 ∧ evs = ans.map (rd a) := by
  induction k generalizing n0 ans evs with
  | zero => omega
  | succ k ih =>
    rw [pollReg] at h
    obtain ⟨_, _, _, _, n, rfl, rfl, h1, h2⟩ := Prog.path_bind_inv h
    obtain ⟨rfl, rfl⟩ := readReg_path_inv h1
    split at h2
    · next hn => cases h2; exact ⟨.hit [] n (by simp) (by simp) hn, rfl⟩
    · next hn =>
      have hn : n &&& stop = 0 := not_not.1 hn
      cases k with
      | zero => cases h2; exact ⟨.exhausted [] n (by simp) (by simp) hn, rfl⟩
      | succ k =>
        obtain ⟨hp, rfl⟩ := ih (by omega) h2
        exact ⟨hp.cons hn, rfl⟩

/-! CalcCRC and ToCard. -/

theorem calcCrc_path_inv {c : Config} {bytes ans : List Byte} {evs : List Event} {r : CrcResult} (hb : 1 ≤ c.pollBudgetCrc)
    (h : (calcCrc c bytes).Path ans evs r) : CrcScript c bytes ans evs r := by
  obtain ⟨_, _, _, _, _, rfl, rfl, h1, h⟩ := Prog.path_bind_inv h
  obtain ⟨_, _, _, _, _, rfl, rfl, h2, h⟩ := Prog.path_bind_inv h
  obtain ⟨_, _, _, _, _, rfl, rfl, h3, h⟩ := Prog.path_bind_inv h
  obtain ⟨_, _, _, _, _, rfl, rfl, h4, h⟩ := Prog.path_bind_inv h
  obtain ⟨_, _, _, _, _, rfl, rfl, h5, h⟩ := Prog.path_bind_inv h
  obtain ⟨_, _, _, _, lo, rfl, rfl, h6, h⟩ := Prog.path_bind_inv h
  obtain ⟨_, _, _, _, hi, rfl, rfl, h7, h⟩ := Prog.path_bind_inv h
  cases h
  obtain ⟨flag, rfl, rfl⟩ := clearBits_path_inv h1
  obtain ⟨level, rfl, rfl⟩ := setBits_path_inv h2
  obtain ⟨rfl, rfl⟩ := pushAll_path_inv h3
  obtain ⟨rfl, rfl⟩ := writeReg_path_inv h4
  obtain ⟨hp, rfl⟩ := pollReg_path_inv hb h5
  obtain ⟨rfl, rfl⟩ := readReg_path_inv h6
  obtain ⟨rfl, rfl⟩ := readReg_path_inv h7
  simpa using CrcScript.run (c := c) (bytes := bytes) flag level lo hi _ _ _ hp

theorem decodeOutcome_path_inv {c : Config} {kind : ExecKind} {hit : Bool} {n : Byte} {ans : List Byte} {evs : List Event} {r : ExecResult}
    (h : (decodeOutcome c kind hit n).Path ans evs r) : OutcomeScript c (c.ien kind) n kind hit ans evs r := by
  unfold decodeOutcome at h
  cases hit with
  | false => cases h; exact .timeout kind
  | true =>
    rw [if_pos rfl] at h
    obtain ⟨_, _, _, _, e, rfl, rfl, h1, h'⟩ := Prog.path_bind_inv h
    clear h
    obtain ⟨rfl, rfl⟩ := readReg_path_inv h1
    split at h'
    · next he => cases h'; exact .errorBits kind e (of_decide_eq_true he)
    · next he =>
      have he : e &&& 0x1B = 0 := not_not.1 fun hne => he (decide_eq_true hne)
      split at h'
      · next hn => cases h'; exact .noTag kind e he (by simpa [Config.noTag, anyBit] using hn)
      · next hn =>
        have hn : n &&& c.ien kind &&& c.noTagIrq = 0 := by simpa [Config.noTag, anyBit] using hn
        cases kind with
        | authenticate => cases h'; exact .authenticated e he hn
        | transceive =>
          obtain ⟨_, _, _, _, count, rfl, rfl, h2, h'⟩ := Prog.path_bind_inv h'
          obtain ⟨_, _, _, _, control, rfl, rfl, h3, h'⟩ := Prog.path_bind_inv h'
          obtain ⟨_, _, _, _, frame, rfl, rfl, h4, h'⟩ := Prog.path_bind_inv h'
          cases h'
          obtain ⟨rfl, rfl⟩ := readReg_path_inv h2
          obtain ⟨rfl, rfl⟩ := readReg_path_inv h3
          obtain ⟨hlen, rfl, rfl⟩ := drain_path_inv h4
          rw [← bitCount_eq]
          simpa using OutcomeScript.response (c := c) e count control _ he hn hlen

theorem runCommand_path_inv {c : Config} {kind : ExecKind} {send ans : List Byte} {evs : List Event} {r : ExecResult}
    (hb : 1 ≤ c.pollBudgetCmd) (h : (runCommand c kind send).Path ans evs r) : ToCardScript c send kind ans evs r := by
  obtain ⟨_, _, _, _, _, rfl, rfl, h1, h⟩ := Prog.path_bind_inv h
  obtain ⟨_, _, _, _, _, rfl, rfl, h2, h⟩ := Prog.path_bind_inv h
  obtain ⟨_, _, _, _, _, rfl, rfl, h3, h⟩ := Prog.path_bind_inv h
  obtain ⟨_, _, _, _, _, rfl, rfl, h4, hout⟩ := Prog.path_bind_inv h
  obtain ⟨_, _, _, _, _, rfl, rfl, ha, ht⟩ := Prog.path_bind_inv h1
  obtain ⟨_, _, _, _, _, rfl, rfl, hb', ht⟩ := Prog.path_bind_inv ht
  obtain ⟨_, _, _, _, _, rfl, rfl, hc, ht⟩ := Prog.path_bind_inv ht
  obtain ⟨_, _, _, _, _, rfl, rfl, hd, hpush⟩ := Prog.path_bind_inv ht
  obtain ⟨_, _, _, _, _, rfl, rfl, he, hstart⟩ := Prog.path_bind_inv h2
  obtain ⟨rfl, rfl⟩ := writeReg_path_inv ha
  obtain ⟨irq, rfl, rfl⟩ := clearBits_path_inv hb'
  obtain ⟨level, rfl, rfl⟩ := setBits_path_inv hc
  obtain ⟨rfl, rfl⟩ := writeReg_path_inv hd
  obtain ⟨rfl, rfl⟩ := pushAll_path_inv hpush
  obtain ⟨rfl, rfl⟩ := writeReg_path_inv he
  obtain ⟨hp, rfl⟩ := pollReg_path_inv hb h3
  obtain ⟨framing', rfl, rfl⟩ := clearBits_path_inv h4
  have ho := decodeOutcome_path_inv hout
  cases kind with
  | transceive =>
    obtain ⟨framing, rfl, rfl⟩ := setBits_path_inv hstart
    simpa [loadEvents, Config.ien, Config.execCode, withBits] using
      ToCardScript.transceive (c := c) (send := send) irq level framing _ framing' _ _ _ _ r hp ho
  | authenticate =>
    cases hstart
    simpa [loadEvents, Config.ien, Config.execCode, withBits] using
      ToCardScript.authenticate (c := c) (send := send) irq level _ framing' _ _ _ _ r hp ho

/-- A well-formed configuration polls at least once. -/
theorem Config.budgets_of_wf {c : Config} (h : c.wf = true) : 1 ≤ c.pollBudgetCrc ∧ 1 ≤ c.pollBudgetCmd := by
  simp only [Config.wf, Bool.and_eq_true, decide_eq_true_eq] at h
  omega

/-- A ready ToCard that no channel fault ends is one of its scripts. -/
theorem toCard_next_script {i : Instr} {kind : ExecKind} {send : List Byte} {s t : State}
    (hi : progOf s.config i = (runCommand s.config kind send).map .exec) (hs : s.Ready) (h : exec i s = .next t) (ht : t.fault = none) :
    ∃ ans evs r, ToCardScript s.config send kind ans evs r ∧ s.Gives ans ∧ ans.length = readsIn evs ∧
      t = (s.after evs (s.answers.drop (readsIn evs))).returnResult (.exec r) := by
  rcases (exec_next_cases h).2 with ⟨hw, _⟩ | ⟨_, ans, evs, q, hal, hg, hlen, ⟨r, rfl, rfl⟩ | ⟨why, rfl, rfl⟩ | ⟨f, _, _, _, rfl⟩⟩
  · rw [hs.2] at hw; cases hw
  · rw [hi] at hal
    obtain ⟨_, _, _, _, r, rfl, rfl, hp, h⟩ := Prog.path_bind_inv (Prog.along_ret_iff.1 hal)
    cases h
    exact ⟨_, _, r, by simpa using runCommand_path_inv (Config.budgets_of_wf hs.2).2 hp, by simpa using hg, by simpa using hlen, rfl⟩
  · rw [hi] at hal
    rcases Prog.along_bind hal with ⟨p', hp, hq⟩ | ⟨_, _, _, _, r, rfl, rfl, _, h⟩
    · cases p' with
      | refuse why => exact (((runCommand_within s.config kind send).along hp).2.1).elim
      | ret a => cases hq
      | read a k => cases hq
      | write a v k => cases hq
      | sleep ms k => cases hq
    · cases h
  · simp [State.interrupted] at ht

end Sys2Proof.Machine
end

