-- ==== Sys2Proof/Tests/Slice0.lean ====
section
/-! SUPPORT. The author's tests. Expected values are those of 95_test_vectors.md and of the rules named, never the model's own answers. -/

namespace Sys2Proof.Machine

/-! Helpers. -/

/-- The default handle with these answers ahead and a channel that fails none of its next 120 transactions. -/
def ready (answers : List Byte) : State :=
  { State.reset with answers := answers, failures := List.replicate 120 false }

/-- The words of the transactions an outcome's trace holds. -/
def wordsOf : Host.Outcome State Fault Refusal → List TxnWord
  | .next t => t.trace.filterMap Event.word
  | .fault _ => []
  | .refused _ => []

/-- The results an outcome's state holds. -/
def resultsOf : Host.Outcome State Fault Refusal → List OpResult
  | .next t => t.results
  | .fault _ => []
  | .refused _ => []

/-- The marks, the transaction count and the answers left. -/
def marksOf : Host.Outcome State Fault Refusal → Option (Option FaultInfo × Bool × Nat × List Byte)
  | .next t => some (t.fault, t.refused, transactions t.trace, t.answers)
  | .fault _ => none
  | .refused _ => none

def keyF : List Byte := [0xFF, 0xFF, 0xFF, 0xFF, 0xFF, 0xFF]
def uid4 : List Byte := [0x04, 0x11, 0x22, 0x33]
def data16 : List Byte := [0x00, 0x01, 0x02, 0x03, 0x04, 0x05, 0x06, 0x07, 0x08, 0x09, 0x0A, 0x0B, 0x0C, 0x0D, 0x0E, 0x0F]

/-- A step on the line of text. -/
def runLine (text : String) (answers : List Byte) : Host.Outcome State Fault Refusal :=
  step { ready answers with calls := [.line text.toList] }

/-! WellFormed: each check refuses an ill-formed term (00_scope.md R10, 10_state.md R25, 30_encoding.md R75). -/

theorem test_wf_default_config : defaultConfig.wf = true := by decide

theorem test_wf_refuses_a_register_above_63 :
    ([{ defaultConfig with regCommand := 64 }, { defaultConfig with regIrqEnable := 64 }, { defaultConfig with regIrqStatus := 64 },
      { defaultConfig with regCrcIrq := 64 }, { defaultConfig with regError := 64 }, { defaultConfig with regStatus2 := 64 },
      { defaultConfig with regFifoData := 64 }, { defaultConfig with regFifoLevel := 64 }, { defaultConfig with regControl := 64 },
      { defaultConfig with regBitFraming := 64 }, { defaultConfig with regMode := 64 }, { defaultConfig with regAntenna := 64 },
      { defaultConfig with regTxAsk := 64 }, { defaultConfig with regCrcResultH := 64 }, { defaultConfig with regCrcResultL := 64 },
      { defaultConfig with regTimerMode := 64 }, { defaultConfig with regTimerPrescaler := 64 },
      { defaultConfig with regTimerReloadH := 64 }, { defaultConfig with regTimerReloadL := 64 },
      { defaultConfig with regVersion := 64 }] : List Config).all (fun c => !c.wf) = true := by decide

theorem test_wf_refuses_a_zero_budget :
    ({ defaultConfig with pollBudgetCrc := 0 } : Config).wf = false ∧ ({ defaultConfig with pollBudgetCmd := 0 } : Config).wf = false := by
  decide

theorem test_wf_register_number : RegRef.wf (.num 63) = true ∧ RegRef.wf (.num 64) = false := by decide

theorem test_wf_register_operands :
    Instr.wf (.wreg (.num 64) 0) = false ∧ Instr.wf (.rreg (.num 255)) = false ∧ Instr.wf (.setb (.num 64) 1) = false ∧
      Instr.wf (.clrb (.num 64) 1) = false := by decide

theorem test_wf_bcc : Instr.wf (.bcc [1, 2, 3]) = false ∧ Instr.wf (.bcc [1, 2, 3, 4, 5]) = false ∧ Instr.wf (.bcc uid4) = true := by decide

theorem test_wf_auth :
    Instr.wf (.auth .A 4 [1, 2, 3, 4, 5] uid4) = false ∧ Instr.wf (.auth .A 4 keyF [1, 2, 3]) = false ∧
      Instr.wf (.auth .A 4 keyF uid4) = true := by decide

theorem test_wf_writeblk : Instr.wf (.writeblk 4 [1]) = false ∧ Instr.wf (.writeblk 4 data16) = true := by decide

theorem test_wf_readsect :
    Instr.wf (.readsect [1, 2, 3] 1 0 (some keyF) none) = false ∧ Instr.wf (.readsect uid4 1 0 (some [1]) none) = false ∧
      Instr.wf (.readsect uid4 1 0 none (some [1])) = false ∧ Instr.wf (.readsect uid4 1 0 none none) = true := by decide

theorem test_wf_writesect :
    Instr.wf (.writesect [1, 2, 3] 1 0 data16 (some keyF) none) = false ∧ Instr.wf (.writesect uid4 1 0 [1] (some keyF) none) = false ∧
      Instr.wf (.writesect uid4 1 0 data16 (some [1]) none) = false ∧ Instr.wf (.writesect uid4 1 0 data16 none (some [1])) = false ∧
      Instr.wf (.writesect uid4 1 0 data16 (some keyF) (some keyF)) = true := by decide

theorem test_writable : Instr.writable (.rreg (.num 63)) = true ∧ Instr.writable (.rreg (.num 64)) = false := by decide

/-! Decoding: transaction words (V-TR-1, V-TR-2), the host's table words, and one line of text per operation. -/

theorem test_decode_words :
    decodeWord 0x1A07 = .ok (.wreg (.num 0x0D) 0x07) ∧ decodeWord 0x0000 = .ok (.wreg (.num 0x00) 0x00) ∧
      decodeWord 0x7EFF = .ok (.wreg (.num 0x3F) 0xFF) ∧ decodeWord 0x8800 = .ok (.rreg (.num 0x04)) ∧
      decodeWord 0xFE00 = .ok (.rreg (.num 0x3F)) := by decide

theorem test_decode_refuses_words :
    decodeWord 0x1B07 = .error .addressBitZeroSet ∧ decodeWord 0x8801 = .error (.nonzeroDummy 0x01) ∧
      decodeWord 0x89FF = .error .addressBitZeroSet ∧ decodeWord 0xFFFF = .error .addressBitZeroSet ∧
      decodeBytes [0x1A] = .error (.notTwoBytes 1) ∧ decodeBytes [0x1A, 0x07, 0x00] = .error (.notTwoBytes 3) := by decide

theorem test_decode_table_words :
    decodeTableWord 16 0x1A07 = some (.wreg (.num 0x0D) 0x07) ∧ decodeTableWord 16 0x8800 = some (.rreg (.num 0x04)) ∧
      decodeTableWord 16 0x8801 = none ∧ decodeTableWord 0 0 = none := by decide

theorem test_encode_words :
    writeWord 0x00 0x5A = 0x005A ∧ readWord 0x22 = 0xC400 ∧ writeWord 0x40 0x5A = 0x005A ∧ readWord 0xFF = 0xFE00 := by decide

theorem test_line_wreg : parseLine "WREG BIT_FRAMING, 0x07".toList = .ok (.wreg (.role .bitFraming) 0x07) := by rfl
theorem test_line_rreg : parseLine "RREG 55 ; the version".toList = .ok (.rreg (.num 0x37)) := by rfl
theorem test_line_setb : parseLine "SETB ANTENNA, 0x03".toList = .ok (.setb (.role .antenna) 0x03) := by rfl
theorem test_line_clrb : parseLine "CLRB STATUS2, 8".toList = .ok (.clrb (.role .status2) 0x08) := by rfl
theorem test_line_calccrc : parseLine "CALCCRC [30 04]".toList = .ok (.calccrc [0x30, 0x04]) := by rfl
theorem test_line_tocard_trx : parseLine "TOCARD.TRX [26]".toList = .ok (.tocardTrx [0x26]) := by rfl
theorem test_line_tocard_auth : parseLine "TOCARD.AUTH [60 04]".toList = .ok (.tocardAuth [0x60, 0x04]) := by rfl
theorem test_line_bcc : parseLine "BCC [DE AD BE EF]".toList = .ok (.bcc [0xDE, 0xAD, 0xBE, 0xEF]) := by rfl
theorem test_line_request : parseLine "REQUEST".toList = .ok .request := by rfl
theorem test_line_anticoll : parseLine "ANTICOLL".toList = .ok .anticoll := by rfl
theorem test_line_select : parseLine "SELECT [04 11 22 33 04]".toList = .ok (.select [0x04, 0x11, 0x22, 0x33, 0x04]) := by rfl
theorem test_line_auth : parseLine "AUTH A, 4, [FF FF FF FF FF FF], [04 11 22 33]".toList = .ok (.auth .A 4 keyF uid4) := by rfl
theorem test_line_stopcrypto : parseLine "STOPCRYPTO".toList = .ok .stopcrypto := by rfl
theorem test_line_sectoraddr : parseLine "SECTORADDR 16, 0".toList = .ok (.sectoraddr 16 0) := by rfl
theorem test_line_readblk : parseLine "READBLK 200".toList = .ok (.readblk 200) := by rfl
theorem test_line_writeblk :
    parseLine "WRITEBLK 4, [00 01 02 03 04 05 06 07 08 09 0A 0B 0C 0D 0E 0F]  ; phase 1".toList = .ok (.writeblk 4 data16) := by rfl
theorem test_line_rearm : parseLine "REARM".toList = .ok .rearm := by rfl
theorem test_line_waitcard : parseLine "WAITCARD -50".toList = .ok (.waitcard (-50)) := by rfl
theorem test_line_readuid : parseLine "READUID".toList = .ok .readuid := by rfl
theorem test_line_readsect :
    parseLine "READSECT [04 11 22 33], 1, 0, B [FF FF FF FF FF FF]".toList = .ok (.readsect uid4 1 0 none (some keyF)) := by rfl
theorem test_line_writesect :
    parseLine "WRITESECT [04 11 22 33], 15, 7, [00 01 02 03 04 05 06 07 08 09 0A 0B 0C 0D 0E 0F]".toList =
      .ok (.writesect uid4 15 7 data16 none none) := by rfl

theorem test_line_refused :
    parseLine "NOP".toList = .error (.unknownMnemonic "NOP".toList) ∧ parseLine "RREG 64".toList = .error (.numberOutOfRange 64) ∧
      parseLine "RREG COLOUR".toList = .error (.badRegister "COLOUR".toList) ∧ parseLine "WREG 1, 256".toList = .error (.numberOutOfRange 256) ∧
      parseLine "REARM 1".toList = .error .trailing ∧ parseLine "; only a comment".toList = .error .noOperation := by
  refine ⟨?_, ?_, ?_, ?_, ?_, ?_⟩ <;> rfl

theorem test_call_refused :
    decodeCall (.tocard .idle []) = .error (.kindNotAdmitted .idle) ∧ decodeCall (.raw [0x88]) = .error (.word (.notTwoBytes 1)) := by
  decide

/-! Transport. -/

/-- V-TR-1, R66. -/
theorem test_wreg : wordsOf (exec (.wreg (.role .bitFraming) 0x07) (ready [])) = [0x1A07] := by decide
/-- V-TR-1: a raw call's address 0x40 aliases 0x00. -/
theorem test_wreg_alias : wordsOf (exec (.wreg (.num 0x40) 0x5A) (ready [])) = [0x005A] := by decide
/-- V-TR-7. -/
theorem test_rreg : resultsOf (exec (.rreg (.role .version)) (ready [0x92])) = [.byte 0x92] := by decide
theorem test_rreg_word : wordsOf (exec (.rreg (.role .version)) (ready [0x92])) = [0xEE00] := by decide
/-- V-TR-3. -/
theorem test_setb : wordsOf (exec (.setb (.role .antenna) 0x03) (ready [0x80])) = [0xA800, 0x2883] := by decide
/-- V-TR-5. -/
theorem test_clrb : wordsOf (exec (.clrb (.role .status2) 0x08) (ready [0x09])) = [0x9000, 0x1001] := by decide

/-! CRC. -/

/-- V-CRC-2. -/
theorem test_calccrc :
    resultsOf (exec (.calccrc [0x93, 0x70, 0x04, 0x11, 0x22, 0x33, 0x04]) (ready [0x00, 0x00, 0x00, 0x04, 0xFB, 0x47])) =
      [.crc ⟨0xFB, 0x47, true⟩] := by decide
/-- V-CRC-4. -/
theorem test_calccrc_empty :
    wordsOf (exec (.calccrc []) (ready [0x00, 0x00, 0x04, 0x63, 0x63])) =
      [0x8A00, 0x0A00, 0x9400, 0x1480, 0x0203, 0x8A00, 0xC400, 0xC200] := by decide
/-- V-CRC-1, by the byte-wise form. -/
theorem test_crcA :
    crcAFast [0x00, 0x00] = 0x1EA0 ∧ crcAFast [0x12, 0x34] = 0xCF26 ∧ crcAFast [0x93, 0x70, 0x04, 0x11, 0x22, 0x33] = 0xD711 ∧
      crcLo (crcAFast [0x30, 0x04]) = 0x26 ∧ crcHi (crcAFast [0x30, 0x04]) = 0xEE := by
  refine ⟨?_, ?_, ?_, ?_, ?_⟩ <;> decide
/-- V-CRC-1, the empty input: the seed; and R85's two cases of one bit. -/
theorem test_crcA_bit : crcA [] = 0x6363 ∧ crcBit 0x0001 = 0x8408 ∧ crcBit 0x8002 = 0x4001 := by decide

/-! ToCard. -/

/-- V-EX-3: a collision. -/
theorem test_tocard_trx :
    wordsOf (exec (.tocardTrx [0x93, 0x20]) (ready [0x00, 0x00, 0x00, 0x30, 0x80, 0x08])) =
      [0x04F7, 0x8800, 0x0800, 0x9400, 0x1480, 0x0200, 0x1293, 0x1220, 0x020C, 0x9A00, 0x1A80, 0x8800, 0x9A00, 0x1A00, 0x8C00] := by decide
/-- V-EX-10: the bit count is computed in the integers. -/
theorem test_tocard_trx_negative_bits :
    resultsOf (exec (.tocardTrx [0x26]) (ready [0x00, 0x00, 0x07, 0x30, 0x87, 0x00, 0x00, 0x13])) = [.exec ⟨.success, [], -5⟩] := by decide
/-- V-EX-8: the timer bit alone ends in Success. -/
theorem test_tocard_auth :
    resultsOf (exec (.tocardAuth ([0x60, 0x04] ++ keyF ++ uid4)) (ready [0x00, 0x00, 0x01, 0x00, 0x00])) = [.exec ⟨.success, [], 0⟩] := by
  decide
/-- V-EX-8's channel words. -/
theorem test_tocard_auth_words :
    wordsOf (exec (.tocardAuth ([0x60, 0x04] ++ keyF ++ uid4)) (ready [0x00, 0x00, 0x01, 0x00, 0x00])) =
      [0x0492, 0x8800, 0x0800, 0x9400, 0x1480, 0x0200, 0x1260, 0x1204, 0x12FF, 0x12FF, 0x12FF, 0x12FF, 0x12FF, 0x12FF, 0x1204, 0x1211,
        0x1222, 0x1233, 0x020E, 0x8800, 0x9A00, 0x1A00, 0x8C00] := by decide
/-- V-EX-11. -/
theorem test_validBits :
    validBits 0 0x13 = -5 ∧ validBits 3 0x04 = 20 ∧ validBits 255 0xFF = 2039 ∧ validBits 128 0x00 = 1024 ∧ drainCount 18 16 = 16 ∧
      drainCount 3 16 = 3 := by decide

/-! The framer. -/

/-- V-SEL-1. -/
theorem test_bcc : resultsOf (exec (.bcc [0xDE, 0xAD, 0xBE, 0xEF]) (ready [])) = [.byte 0x22] := by decide
/-- V-TR-9. -/
theorem test_bcc_refused : marksOf (exec (.bcc [0x04, 0x11, 0x22]) (ready [])) = some (none, true, 0, []) := by decide
/-- V-SEL-2. -/
theorem test_request :
    resultsOf (exec .request (ready [0x00, 0x00, 0x07, 0x00, 0x30, 0x87, 0x00, 0x02, 0x00, 0x04, 0x00])) = [.request .detected] := by decide
/-- V-SEL-5. -/
theorem test_request_partial :
    resultsOf (exec .request (ready [0x00, 0x00, 0x07, 0x30, 0x87, 0x00, 0x01, 0x04, 0x04])) = [.request .noCard] := by decide
/-- V-SEL-8. -/
theorem test_anticoll :
    resultsOf (exec .anticoll (ready [0x00, 0x00, 0x00, 0x30, 0x80, 0x00, 0x05, 0x00, 0x04, 0x11, 0x22, 0x33, 0x04])) =
      [.anticoll (.ok [0x04, 0x11, 0x22, 0x33, 0x04])] := by decide
/-- V-SEL-12: the length before the BCC. -/
theorem test_anticoll_length :
    resultsOf (exec .anticoll (ready [0x00, 0x00, 0x00, 0x30, 0x80, 0x00, 0x06, 0x00, 0x04, 0x11, 0x22, 0x33, 0x04, 0x00])) =
      [.anticoll (.failed (.wrongLength 6))] := by decide
/-- V-SEL-14. -/
theorem test_select :
    resultsOf (exec (.select [0x04, 0x11, 0x22, 0x33, 0x04])
      (ready [0x00, 0x00, 0x04, 0xFB, 0x47, 0x00, 0x00, 0x00, 0x30, 0x80, 0x00, 0x03, 0x00, 0x08, 0xB6, 0xDD])) =
      [.select (.ok [0x08, 0xB6, 0xDD])] := by decide
/-- V-SEL-16. -/
theorem test_select_bits :
    resultsOf (exec (.select [0x04, 0x11, 0x22, 0x33, 0x04])
      (ready [0x00, 0x00, 0x04, 0xFB, 0x47, 0x00, 0x00, 0x00, 0x30, 0x80, 0x00, 0x03, 0x04, 0x08, 0xB6, 0xDD])) =
      [.select .selectFailed] := by decide

/-! Authentication and block I/O. -/

/-- V-BIO-2: key B, the fifth UID byte unused, the timer bit. -/
theorem test_auth :
    resultsOf (exec (.auth .B 7 keyF [0x04, 0x11, 0x22, 0x33, 0x04]) (ready [0x00, 0x00, 0x01, 0x00, 0x00])) = [.auth .authOk] := by decide
/-- V-TR-9. -/
theorem test_auth_refused : marksOf (exec (.auth .A 4 [0xFF, 0xFF, 0xFF, 0xFF, 0xFF] uid4) (ready [])) = some (none, true, 0, []) := by decide
/-- V-BIO-5. -/
theorem test_stopcrypto : wordsOf (exec .stopcrypto (ready [0x08])) = [0x9000, 0x1000] := by decide
/-- V-BIO-7. -/
theorem test_sectoraddr :
    resultsOf (exec (.sectoraddr 15 7) (ready [])) = [.sectorAddr (.block 63)] ∧
      resultsOf (exec (.sectoraddr 16 0) (ready [])) = [.sectorAddr .blockOutOfRange] := by decide
/-- V-BIO-8: 18 bytes in the FIFO, 16 drained. -/
theorem test_readblk :
    resultsOf (exec (.readblk 4) (ready ([0x00, 0x00, 0x04, 0x26, 0xEE, 0x00, 0x00, 0x00, 0x30, 0x80, 0x00, 0x12, 0x00] ++ data16))) =
      [.readBlock (.data data16)] := by decide
/-- V-BIO-9. -/
theorem test_readblk_short :
    resultsOf (exec (.readblk 4) (ready ([0x00, 0x00, 0x04, 0x26, 0xEE, 0x00, 0x00, 0x00, 0x30, 0x80, 0x00, 0x0F, 0x00] ++ data16.take 15))) =
      [.readBlock .readError] := by decide
/-- V-BIO-15: only the low nibble is tested. -/
theorem test_writeblk :
    resultsOf (exec (.writeblk 4 data16) (ready [0x00, 0x00, 0x04, 0x7B, 0xF7, 0x00, 0x00, 0x00, 0x30, 0x80, 0x00, 0x01, 0x04, 0xFA, 0x00,
      0x00, 0x04, 0x77, 0xF5, 0x00, 0x00, 0x00, 0x30, 0x80, 0x00, 0x01, 0x04, 0x1A])) = [.writeBlock .written] := by decide
/-- V-BIO-13: no phase 2 after a rejected phase 1. -/
theorem test_writeblk_rejected :
    marksOf (exec (.writeblk 4 data16) (ready [0x00, 0x00, 0x04, 0x7B, 0xF7, 0x00, 0x00, 0x00, 0x30, 0x80, 0x00, 0x01, 0x04, 0x05])) =
      some (none, false, 30, []) := by decide

/-! The session. -/

/-- V-SES-1, R111. -/
theorem test_rearm :
    wordsOf (exec .rearm (ready [0x80])) = [0x020F, 0x548D, 0x563E, 0x5A1E, 0x5800, 0x2A40, 0x223D, 0xA800, 0x2883] := by decide
/-- V-SES-4: a negative timeout makes one attempt. -/
theorem test_waitcard :
    resultsOf (exec (.waitcard (-50)) (ready [0x80, 0x00, 0x00, 0x07, 0x01, 0x87, 0x00])) = [.waitCard .timeout] := by decide
/-- V-SES-2, cut to its second attempt: 24 + 28 transactions. -/
theorem test_waitcard_detected :
    marksOf (exec (.waitcard 250) (ready [0x80, 0x00, 0x00, 0x07, 0x01, 0x87, 0x00, 0x80, 0x00, 0x00, 0x07, 0x30, 0x87, 0x00, 0x02, 0x00,
      0x04, 0x00])) = some (none, false, 52, []) := by decide
/-- V-SES-7. -/
theorem test_readuid :
    resultsOf (exec .readuid (ready [0x00, 0x00, 0x00, 0x30, 0x80, 0x00, 0x05, 0x00, 0x00, 0x01, 0x0A, 0xFF, 0xF4])) =
      [.readUid (.uid "00010aff".toList)] := by decide
/-- V-SES-8. -/
theorem test_readuid_mismatch :
    resultsOf (exec .readuid (ready [0x00, 0x00, 0x00, 0x30, 0x80, 0x00, 0x05, 0x00, 0x04, 0x11, 0x22, 0x33, 0x05])) =
      [.readUid (.uidError (.checksumMismatch [0x04, 0x11, 0x22, 0x33, 0x05]))] := by decide
/-- V-SES-11. -/
theorem test_readsect :
    resultsOf (exec (.readsect uid4 1 0 none (some keyF)) (ready [0x00, 0x00, 0x10, 0x00, 0x01])) =
      [.readSector (.failed .authFailed)] := by decide
/-- V-SES-9. -/
theorem test_readsect_checks :
    resultsOf (exec (.readsect uid4 16 0 none none) (ready [])) = [.readSector (.failed .noKey)] ∧
      resultsOf (exec (.readsect uid4 16 0 (some keyF) none) (ready [])) = [.readSector (.failed .blockOutOfRange)] := by decide
/-- V-SES-12 with the rejected phase 1 of V-BIO-13: key B, block 7, 23 + 30 transactions. -/
theorem test_writesect :
    marksOf (exec (.writesect uid4 1 3 data16 none (some keyF)) (ready [0x00, 0x00, 0x10, 0x00, 0x00, 0x00, 0x00, 0x04, 0xE0, 0xC5, 0x00,
      0x00, 0x00, 0x30, 0x80, 0x00, 0x01, 0x04, 0x05])) = some (none, false, 53, []) := by decide
/-- V-SES-9: the length check comes first. -/
theorem test_writesect_refused :
    marksOf (exec (.writesect uid4 1 0 (data16.take 15) (some keyF) none) (ready [])) = some (none, true, 0, []) := by decide

/-! The step: lines, refusals, the channel fault. -/

/-- P4's first line. -/
theorem test_step_line : wordsOf (runLine "WREG BIT_FRAMING, 0x07" []) = [0x1A07] := by decide
/-- V-TR-9: TOCARD with kind Idle. -/
theorem test_step_idle_kind : marksOf (step { ready [] with calls := [.tocard .idle []] }) = some (none, true, 0, []) := by decide
/-- V-TR-8: the third transaction fails; the two before it stand in the trace, no answer is consumed. -/
theorem test_step_channel_fault :
    marksOf (step { State.reset with answers := [0x00], failures := [false, false, true], calls := [.op .request] }) =
        some (some (.channelFault 0x04 .read), false, 2, [0x00]) ∧
      wordsOf (step { State.reset with answers := [0x00], failures := [false, false, true], calls := [.op .request] }) = [0x1A07, 0x04F7] := by
  decide
/-- R24: no further step. -/
theorem test_step_after_fault :
    marksOf (step { ready [] with fault := some (.channelFault 0x04 .read), calls := [.op (.bcc uid4)] }) = none := by decide
/-- A host's table word runs as the first operation after reset. -/
theorem test_step_fetched_word :
    wordsOf (step ((ready []).withFetchWord 16 0x1A07)) = [0x1A07] := by decide

/-! Witnesses: for every statement with hypotheses, concrete data that meet them together. -/

/-- The hypotheses of an uninterrupted run. -/
def Meets (s : State) (ans : List Byte) (evs : List Event) : Prop :=
  s.Ready ∧ (∃ rest, s.answers = ans ++ rest) ∧ s.Quiet (transactions evs)

/-- The hypotheses of an interrupted run. -/
def MeetsFailure (s : State) (ans : List Byte) (evs : List Event) : Prop :=
  s.Ready ∧ (∃ rest, s.answers = ans ++ rest) ∧ ∃ n pre f later, cutAt evs n = some (pre, f) ∧ s.config.channelCanFault = true ∧
    s.failures = List.replicate n false ++ true :: later

/-- The default handle with these answers and no failure in the next `n` transactions. -/
def calm (n : Nat) (ans : List Byte) : State :=
  { State.reset with answers := ans, failures := List.replicate n false }

/-- The default handle with these answers and a failure of the next transaction but `n`. -/
def failing (n : Nat) (ans : List Byte) : State :=
  { State.reset with answers := ans, failures := List.replicate n false ++ [true] }

theorem calm_meets (ans : List Byte) (evs : List Event) : Meets (calm (transactions evs) ans) ans evs :=
  ⟨⟨rfl, test_wf_default_config⟩, ⟨[], by simp [calm]⟩, .inr ⟨by simp [calm], by simp [calm]⟩⟩

theorem failing_meets {n : Nat} {ans : List Byte} {evs pre : List Event} {f : FaultInfo} (h : cutAt evs n = some (pre, f)) :
    MeetsFailure (failing n ans) ans evs :=
  ⟨⟨rfl, test_wf_default_config⟩, ⟨[], by simp [failing]⟩, n, pre, f, [], h, rfl, rfl⟩

/-- Both at once, for events whose first is a transaction. -/
theorem both_meet (ans : List Byte) {evs pre : List Event} {f : FaultInfo} (h : cutAt evs 0 = some (pre, f)) :
    (∃ s, s.config = defaultConfig ∧ Meets s ans evs) ∧ ∃ s, s.config = defaultConfig ∧ MeetsFailure s ans evs :=
  ⟨⟨_, rfl, calm_meets ans evs⟩, ⟨_, rfl, failing_meets h⟩⟩

/-! Reset, the step, the marks, the encodings. -/

theorem witness_StepKeepsInvariant : ∃ s t : State, s.Inv ∧ step s = .next t ∧ s ≠ t :=
  ⟨{ ready [] with calls := [.op (.wreg (.role .bitFraming) 7)] }, _, by decide, rfl, by decide⟩

theorem witness_FaultMarkIsStickyAndStopsTheEngine :
    (∃ s : State, s.fault = some (.channelFault 4 .read)) ∧ ∃ t, exec .request (failing 0 []) = .next t ∧ t.fault ≠ none :=
  ⟨⟨{ State.reset with fault := some (.channelFault 4 .read) }, rfl⟩, _, rfl, by decide⟩

theorem witness_StepRunsTheDecodedCall :
    ∃ (s : State) (c : HostCall) (i : Instr), s.fault = none ∧ s.calls = [c] ∧ decodeCall c = .ok i :=
  ⟨{ State.reset with calls := [.line "REQUEST".toList] }, _, .request, rfl, rfl, rfl⟩

theorem witness_StepRunsTheFetchedWord : State.reset.fault = none ∧ decodeTableWord 16 0x8800 = some (.rreg (.num 4)) := by decide

theorem witness_StepWithoutAnOperation :
    (∃ (s : State) (c : HostCall) (e : CallError), s.fault = none ∧ s.calls = [c] ∧ decodeCall c = .error e) ∧
      State.reset.fault = none ∧ State.reset.calls = [] :=
  ⟨⟨{ State.reset with calls := [.raw [0x88, 0x01]] }, _, _, rfl, rfl, rfl⟩, rfl, rfl⟩

theorem witness_IllFormedConfigurationIsRefused :
    ∃ s : State, s.fault = none ∧ s.config.wf = false :=
  ⟨State.create { defaultHandle with config := { defaultConfig with pollBudgetCmd := 0 } }, rfl, by decide⟩

theorem witness_AliasedAddressesBehaveAlike : (0xC0 : Byte).toNat % 64 = (0x00 : Byte).toNat % 64 ∧ defaultConfig.wf = true := by decide

theorem witness_EmittedWordsDecodeAndOthersAreRefused :
    ((0x0000 : TxnWord) &&& 0x8100 = 0 ∧ (0x7EFF : TxnWord) &&& 0x8100 = 0) ∧
      ((0x8000 : TxnWord) &&& 0x81FF = 0x8000 ∧ (0xFE00 : TxnWord) &&& 0x81FF = 0x8000) ∧
      ((0x0100 : TxnWord) &&& 0x8100 ≠ 0 ∧ (0x0100 : TxnWord) &&& 0x81FF ≠ 0x8000) ∧
      ((0xFFFF : TxnWord) &&& 0x8100 ≠ 0 ∧ (0xFFFF : TxnWord) &&& 0x81FF ≠ 0x8000) ∧
      ([0x1A] : List Byte).length ≠ 2 ∧ ([0x1A, 0x07, 0x00] : List Byte).length ≠ 2 := by decide

theorem witness_EmittedWordsDecodeAndOthersAreRefused_exec :
    ∃ t, exec (.rreg (.num 63)) (ready [0x92]) = .next t ∧ t.trace.map Event.word = [some 0xFE00] :=
  ⟨_, rfl, by decide⟩

theorem witness_WordDecodeAndEncodeAgree : decodeWord 0x7EFF = .ok (.wreg (.num 0x3F) 0xFF) ∧ (0x3F : Byte).toNat ≤ 63 := by decide

theorem witness_LineDecodeAndEncodeAgree :
    Instr.writable (.wreg (.num 63) 0xFF) = true ∧ Instr.writable (.waitcard (-50)) = true ∧
      Instr.writable (.writesect uid4 15 7 data16 (some keyF) (some keyF)) = true := by decide

theorem witness_FirstTransactionMatchesTheTableRow :
    (∃ (t : State) (e : Event) (evs : List Event), (ready [0x08]).config = defaultConfig ∧ exec .stopcrypto (ready [0x08]) = .next t ∧
      tableRow .stopcrypto = some (0xFFFF, 0x9000) ∧ t.trace = (ready [0x08]).trace ++ e :: evs ∧ e.word = some 0x9000) ∧
      ∃ t, exec (.bcc uid4) (ready []) = .next t ∧ tableRow (.bcc uid4) = none :=
  ⟨⟨_, _, _, rfl, rfl, rfl, rfl, by decide⟩, _, rfl, rfl⟩

/-! Transport. -/

theorem witness_WregSendsOneWrite :
    (∃ s, s.config = defaultConfig ∧ Meets s [] [wr 0x0D 0x07]) ∧ ∃ s, s.config = defaultConfig ∧ MeetsFailure s [] [wr 0x0D 0x07] :=
  both_meet [] rfl

theorem witness_RregReturnsTheSecondByte :
    (∃ s, s.config = defaultConfig ∧ Meets s [0x92] [rd 0x37 0x92]) ∧
      ∃ s, s.config = defaultConfig ∧ MeetsFailure s [0x92] [rd 0x37 0x92] :=
  both_meet [0x92] rfl

/-- The failure of the second transaction, the write. -/
theorem witness_SetbReadsThenWritesWithTheBits :
    (∃ s, s.config = defaultConfig ∧ Meets s [0x80] [rd 0x14 0x80, wr 0x14 0x83]) ∧
      MeetsFailure (failing 1 [0x80]) [0x80] [rd 0x14 0x80, wr 0x14 0x83] :=
  ⟨⟨_, rfl, calm_meets _ _⟩, failing_meets rfl⟩

theorem witness_ClrbReadsThenWritesWithoutTheBits :
    (∃ s, s.config = defaultConfig ∧ Meets s [0x09] [rd 0x08 0x09, wr 0x08 0x01]) ∧
      MeetsFailure (failing 1 [0x09]) [0x09] [rd 0x08 0x09, wr 0x08 0x01] :=
  ⟨⟨_, rfl, calm_meets _ _⟩, failing_meets rfl⟩

theorem witness_UnscriptedReadTakesTheOracle : (ready []).Ready ∧ (ready []).Quiet 1 ∧ (ready []).answers = [] := by decide

/-! CRC. -/

/-- Zero answers miss every mask. -/
theorem misses_replicate (n : Nat) (stop : Byte) : ∀ m ∈ List.replicate n (0 : Byte), m &&& stop = 0 := by
  intro m hm
  rw [List.eq_of_mem_replicate hm]
  exact BitVec.zero_and

/-- Done on the first poll read, on the last of the budget, and not at all. -/
theorem witness_CalccrcDrivesTheCoprocessor :
    (∃ ans evs, CrcScript defaultConfig [0x30] ans evs ⟨0x12, 0x34, true⟩ ∧
      (∃ s, s.config = defaultConfig ∧ Meets s ans evs) ∧ ∃ s, s.config = defaultConfig ∧ MeetsFailure s ans evs) ∧
    (∃ ans evs, CrcScript defaultConfig [] ans evs ⟨0xCA, 0x15, true⟩) ∧
    ∃ ans evs, CrcScript defaultConfig [] ans evs ⟨0x12, 0x34, false⟩ :=
  ⟨⟨_, _, .run 0 0 0x12 0x34 4 _ _ (.hit [] 4 (by decide) (by simp) (by decide)), both_meet _ rfl⟩,
    ⟨_, _, .run 0 0 0xCA 0x15 4 _ _ (.hit (List.replicate 254 0) 4 (by rw [List.length_replicate]; decide) (misses_replicate _ _)
      (by decide))⟩,
    ⟨_, _, .run 0 0 0x12 0x34 0 _ _ (.exhausted (List.replicate 254 0) 0 (by rw [List.length_replicate]; rfl) (misses_replicate _ _)
      (by decide))⟩⟩

/-! ToCard. -/

/-- The poll hit on its first read, for Transceive. -/
theorem poll_trx (n : Byte) (h : n &&& 0x31 ≠ 0) :
    PollScript (defaultConfig.timerIrq ||| defaultConfig.waitTransceive) defaultConfig.pollBudgetCmd [n] true n :=
  .hit [] n (by decide) (by simp) (by simpa [defaultConfig, bareDefaults] using h)

/-- The poll hit on its first read, for Authenticate. -/
theorem poll_auth (n : Byte) (h : n &&& 0x11 ≠ 0) :
    PollScript (defaultConfig.timerIrq ||| defaultConfig.waitAuth) defaultConfig.pollBudgetCmd [n] true n :=
  .hit [] n (by decide) (by simp) (by simpa [defaultConfig, bareDefaults] using h)

/-- A response of some bytes to a Transceive. -/
theorem script_response (send frame : List Byte) (count control : Byte) (h : frame.length = min count.toNat 16) :
    ∃ ans evs, ToCardScript defaultConfig send .transceive ans evs ⟨.success, frame, bitCount count control⟩ ∧
      cutAt evs 0 = some ([], .channelFault 2 .write) :=
  ⟨_, _, .transceive 0 0 0 0x30 0x80 _ _ _ _ _ (poll_trx _ (by decide)) (.response 0 count control frame (by decide) (by decide) h), rfl⟩

/-- The timer bit ends a Transceive without a response. -/
theorem script_noTag (send : List Byte) :
    ∃ ans evs, ToCardScript defaultConfig send .transceive ans evs ⟨.failed .noTagError, [], 0⟩ ∧
      cutAt evs 0 = some ([], .channelFault 2 .write) :=
  ⟨_, _, .transceive 0 0 0 0x01 0x80 _ _ _ _ _ (poll_trx _ (by decide)) (.noTag .transceive 0 (by decide) (by decide)), rfl⟩

/-- A timeout of either kind. -/
theorem script_timeout (send : List Byte) (kind : ExecKind) :
    ∃ ans evs, ToCardScript defaultConfig send kind ans evs ⟨.failed .timeout, [], 0⟩ := by
  have hlen : (List.replicate 1999 (0 : Byte)).length + 1 = defaultConfig.pollBudgetCmd := by rw [List.length_replicate]; rfl
  cases kind with
  | transceive =>
    exact ⟨_, _, .transceive 0 0 0 0 0 _ _ _ _ _ (.exhausted (List.replicate 1999 0) 0 hlen (misses_replicate _ _) (by decide)) (.timeout _)⟩
  | authenticate =>
    exact ⟨_, _, .authenticate 0 0 0 0 _ _ _ _ _ (.exhausted (List.replicate 1999 0) 0 hlen (misses_replicate _ _) (by decide)) (.timeout _)⟩

theorem script_authOk (send : List Byte) :
    ∃ ans evs, ToCardScript defaultConfig send .authenticate ans evs ⟨.success, [], 0⟩ ∧
      cutAt evs 0 = some ([], .channelFault 2 .write) :=
  ⟨_, _, .authenticate 0 0 0x10 0 _ _ _ _ _ (poll_auth _ (by decide)) (.authenticated 0 (by decide) (by decide)), rfl⟩

theorem script_authFailed (send : List Byte) :
    ∃ ans evs, ToCardScript defaultConfig send .authenticate ans evs ⟨.failed (.errorReported 1), [], 0⟩ ∧
      cutAt evs 0 = some ([], .channelFault 2 .write) :=
  ⟨_, _, .authenticate 0 0 0x10 0 _ _ _ _ _ (poll_auth _ (by decide)) (.errorBits _ 1 (by decide)), rfl⟩

theorem witness_TocardRunsTheCommand :
    (∃ ans evs, ToCardScript defaultConfig [0x26] .transceive ans evs ⟨.success, [0x04, 0x00], 16⟩ ∧
      (∃ s, s.config = defaultConfig ∧ Meets s ans evs) ∧ ∃ s, s.config = defaultConfig ∧ MeetsFailure s ans evs) ∧
    (∃ ans evs, ToCardScript defaultConfig [0x60] .authenticate ans evs ⟨.success, [], 0⟩ ∧
      (∃ s, s.config = defaultConfig ∧ Meets s ans evs) ∧ ∃ s, s.config = defaultConfig ∧ MeetsFailure s ans evs) := by
  obtain ⟨a1, e1, h1, c1⟩ := script_response [0x26] [0x04, 0x00] 2 0 (by decide)
  obtain ⟨a2, e2, h2, c2⟩ := script_authOk [0x60]
  exact ⟨⟨a1, e1, h1, both_meet a1 c1⟩, ⟨a2, e2, h2, both_meet a2 c2⟩⟩

theorem witness_EveryAnswerListIsAScript : ∃ s : State, s.Ready ∧ s.Quiet (toCardBound s.config 1) ∧ toCardBound s.config 1 ≤ s.answers.length :=
  ⟨calm (toCardBound defaultConfig 1) (List.replicate (toCardBound defaultConfig 1) 0), ⟨rfl, test_wf_default_config⟩,
    .inr ⟨(List.length_replicate ..).ge, fun _ hf => (List.mem_replicate.1 (List.mem_of_mem_take hf)).2⟩, (List.length_replicate ..).ge⟩

/-- Each kind ends with no tag, an error or success. -/
theorem witness_TocardTransactionCounts :
    (∃ t, exec (.tocardTrx [0x26]) (ready [0x00, 0x00, 0x07, 0x01, 0x87, 0x00]) = .next t ∧ t.fault = none) ∧
    (∃ t, exec (.tocardTrx [0x26]) (ready [0x00, 0x00, 0x07, 0x30, 0x87, 0x00, 0x02, 0x00, 0x04, 0x00]) = .next t ∧ t.fault = none) ∧
    (∃ t, exec (.tocardAuth [0x60]) (ready [0x00, 0x00, 0x10, 0x00, 0x01]) = .next t ∧ t.fault = none) ∧
    (∃ t, exec (.tocardAuth [0x60]) (ready [0x00, 0x00, 0x10, 0x00, 0x00]) = .next t ∧ t.fault = none) ∧ (ready []).Ready :=
  ⟨⟨_, rfl, by decide⟩, ⟨_, rfl, by decide⟩, ⟨_, rfl, by decide⟩, ⟨_, rfl, by decide⟩, by decide⟩

/-- A timeout of either kind, on a channel that fails nothing. -/
theorem witness_TocardTransactionCounts_timeout (kind : ExecKind) :
    ∃ ans evs s, ToCardScript defaultConfig [0x26] kind ans evs ⟨.failed .timeout, [], 0⟩ ∧ s.config = defaultConfig ∧ Meets s ans evs := by
  obtain ⟨ans, evs, h⟩ := script_timeout [0x26] kind
  exact ⟨ans, evs, _, h, rfl, calm_meets ans evs⟩

theorem witness_TocardOfAnotherKindIsRefused :
    (∃ s : State, s.fault = none ∧ s.calls = [.tocard .reset [0x26]]) ∧
    (∃ s : State, s.fault = none ∧ s.calls = [.tocard .transceive [0x26]]) ∧
    ∃ s : State, s.fault = none ∧ s.calls = [.tocard .authenticate [0x26]] :=
  ⟨⟨{ State.reset with calls := _ }, rfl, rfl⟩, ⟨{ State.reset with calls := _ }, rfl, rfl⟩, ⟨{ State.reset with calls := _ }, rfl, rfl⟩⟩

theorem witness_ValidBitsRange : (0xF8 : Byte) &&& 0x07 = 0 ∧ (0xFF : Byte) &&& 0x07 ≠ 0 ∧ (0x01 : Byte) &&& 0x07 ≠ 0 := by decide

theorem witness_StartSendIsClearedUnconditionally :
    (∃ t, exec (.tocardTrx [0x26]) (ready [0x00, 0x00, 0x07, 0x01, 0x87, 0x00]) = .next t ∧ t.fault = none) ∧
    (∃ t, exec (.tocardAuth [0x60]) (ready [0x00, 0x00, 0x10, 0x00, 0x00]) = .next t ∧ t.fault = none) ∧ (ready []).Ready :=
  ⟨⟨_, rfl, by decide⟩, ⟨_, rfl, by decide⟩, by decide⟩

theorem witness_AuthOkOnTheTimerBit :
    (ready [0x00, 0x00, 0x01, 0x00, 0x04]).fault = none ∧ (ready [0x00, 0x00, 0x01, 0x00, 0x04]).config = defaultConfig ∧
      (ready [0x00, 0x00, 0x01, 0x00, 0x04]).Quiet 23 ∧ keyF.length = 6 ∧ 4 ≤ uid4.length ∧ (0x04 : Byte) &&& 0x1B = 0 ∧
      (ready [0x00, 0x00, 0x01, 0x00, 0x04]).answers = [0x00, 0x00, 0x01, 0x00, 0x04] ++ [] :=
  ⟨rfl, rfl, by decide, by decide, by decide, by decide, rfl⟩

/-! The framer. -/

theorem witness_BccIsTheXorOfFourBytes :
    (∃ s, Meets s [] []) ∧ ([1, 2, 3] : List Byte).length ≠ 4 ∧ ([1, 2, 3, 4, 5] : List Byte).length ≠ 4 ∧ State.reset.Ready :=
  ⟨⟨_, calm_meets [] []⟩, by decide⟩

/-- Sixteen bits; and no card on eight bits, and on a failure. -/
theorem witness_RequestDetectsSixteenBits :
    (∃ ans evs, RequestScript defaultConfig ans evs .detected ∧
      (∃ s, s.config = defaultConfig ∧ Meets s ans evs) ∧ ∃ s, s.config = defaultConfig ∧ MeetsFailure s ans evs) ∧
    ∃ ans evs, RequestScript defaultConfig ans evs .noCard := by
  obtain ⟨a1, e1, h1, _⟩ := script_response [0x26] [0x04, 0x00] 2 0 (by decide)
  obtain ⟨a2, e2, h2, _⟩ := script_noTag [0x26]
  exact ⟨⟨a1, _, .detected a1 e1 _ h1, both_meet a1 rfl⟩, ⟨a2, _, .noCard a2 e2 _ h2 (by decide)⟩⟩

theorem witness_AnticollResolvesTheUid :
    (∃ ans evs, AnticollScript defaultConfig ans evs (.ok [0x04, 0x11, 0x22, 0x33, 0x04]) ∧
      (∃ s, s.config = defaultConfig ∧ Meets s ans evs) ∧ ∃ s, s.config = defaultConfig ∧ MeetsFailure s ans evs) ∧
    (∃ ans evs, AnticollScript defaultConfig ans evs (.failed (.checksumMismatch [0x04, 0x11, 0x22, 0x33, 0x05]))) ∧
    (∃ ans evs, AnticollScript defaultConfig ans evs (.failed (.wrongLength 6))) ∧
    (∃ ans evs, AnticollScript defaultConfig ans evs (.failed (.wrongLength 4))) ∧
    ∃ ans evs, AnticollScript defaultConfig ans evs (.failed (.execFailed .noTagError)) := by
  obtain ⟨a1, e1, h1, _⟩ := script_response [0x93, 0x20] [0x04, 0x11, 0x22, 0x33, 0x04] 5 0 (by decide)
  obtain ⟨a2, e2, h2, _⟩ := script_response [0x93, 0x20] [0x04, 0x11, 0x22, 0x33, 0x05] 5 0 (by decide)
  obtain ⟨a3, e3, h3, _⟩ := script_response [0x93, 0x20] [0x04, 0x11, 0x22, 0x33, 0x04, 0x00] 6 0 (by decide)
  obtain ⟨a4, e4, h4, _⟩ := script_response [0x93, 0x20] [0x04, 0x11, 0x22, 0x33] 4 0 (by decide)
  obtain ⟨a5, e5, h5, _⟩ := script_noTag [0x93, 0x20]
  exact ⟨⟨a1, _, .uid a1 e1 0x04 0x11 0x22 0x33 _ h1, both_meet a1 rfl⟩,
    ⟨a2, _, .mismatch a2 e2 _ _ _ _ _ _ h2 (by decide)⟩, ⟨a3, _, .wrongLength a3 e3 _ _ h3 (by decide)⟩,
    ⟨a4, _, .wrongLength a4 e4 _ _ h4 (by decide)⟩, ⟨a5, _, .execFailed a5 e5 _ _ _ h5⟩⟩

/-- A CRC and the frame it closes. -/
theorem script_frame (buf frame : List Byte) (count control : Byte) (h : frame.length = min count.toNat 16) :
    ∃ ans evs, FrameScript defaultConfig buf ans evs ⟨.success, frame, bitCount count control⟩ ∧
      cutAt evs 0 = some ([], .channelFault 5 .read) := by
  obtain ⟨a, e, ht, _⟩ := script_response (buf ++ [0x12, 0x34]) frame count control h
  exact ⟨_, _, .send _ a _ e ⟨0x12, 0x34, true⟩ _ (.run 0 0 0x12 0x34 4 _ _ (.hit [] 4 (by decide) (by simp) (by decide))) ht, rfl⟩

theorem witness_SelectTakesThreeBytesAndTwentyFourBits :
    ∃ ans evs, FrameScript defaultConfig ([0x93, 0x70] ++ uid4.take 5) ans evs ⟨.success, [0x08, 0xB6, 0xDD], 24⟩ ∧
      (∃ s, s.config = defaultConfig ∧ Meets s ans evs) ∧ ∃ s, s.config = defaultConfig ∧ MeetsFailure s ans evs := by
  obtain ⟨a, e, h, c⟩ := script_frame ([0x93, 0x70] ++ uid4.take 5) [0x08, 0xB6, 0xDD] 3 0 (by decide)
  exact ⟨a, e, h, both_meet a c⟩

/-! Authentication and block I/O. -/

theorem witness_AuthSendsKeyAndUid :
    (∃ ans evs, AuthScript defaultConfig .A 4 keyF uid4 ans evs .authOk ∧
      (∃ s, s.config = defaultConfig ∧ Meets s ans evs) ∧ ∃ s, s.config = defaultConfig ∧ MeetsFailure s ans evs) ∧
    (∃ ans evs, AuthScript defaultConfig .B 4 keyF uid4 ans evs .authFailed) ∧
    keyF.length = 6 ∧ 4 ≤ uid4.length ∧ (keyF.take 5).length ≠ 6 ∧ (uid4.take 3).length < 4 ∧ State.reset.Ready := by
  obtain ⟨a1, e1, h1, c1⟩ := script_authOk (([0x60, 4] ++ keyF) ++ uid4.take 4)
  obtain ⟨a2, e2, h2, _⟩ := script_authFailed (([0x61, 4] ++ keyF) ++ uid4.take 4)
  exact ⟨⟨a1, e1, .ok a1 e1 _ _ h1, both_meet a1 c1⟩, ⟨a2, e2, .failed a2 e2 _ _ _ h2⟩, by decide⟩

theorem witness_StopcryptoClearsTheCryptoBit :
    (∃ s, s.config = defaultConfig ∧ Meets s [0x08] [rd 0x08 0x08, wr 0x08 0x00]) ∧
      MeetsFailure (failing 1 [0x08]) [0x08] [rd 0x08 0x08, wr 0x08 0x00] :=
  ⟨⟨_, rfl, calm_meets _ _⟩, failing_meets rfl⟩

theorem witness_SectoraddrIsPureAndBounded : ∃ s, s.config = defaultConfig ∧ Meets s [] [] :=
  ⟨_, rfl, calm_meets [] []⟩

theorem witness_ReadblkReturnsSixteenBytes :
    (∃ ans evs, ReadScript defaultConfig 4 ans evs (.data data16) ∧
      (∃ s, s.config = defaultConfig ∧ Meets s ans evs) ∧ ∃ s, s.config = defaultConfig ∧ MeetsFailure s ans evs) ∧
    ∃ ans evs, ReadScript defaultConfig 4 ans evs .readError := by
  obtain ⟨a1, e1, h1, c1⟩ := script_frame [0x30, 4] data16 18 0 (by decide)
  obtain ⟨a2, e2, h2, _⟩ := script_frame [0x30, 4] (data16.take 15) 15 0 (by decide)
  exact ⟨⟨a1, e1, .data a1 e1 _ _ h1 (by decide), both_meet a1 c1⟩, ⟨a2, e2, .error a2 e2 _ h2 (by decide)⟩⟩

theorem script_written :
    ∃ ans evs, WriteScript defaultConfig 4 data16 ans evs .written ∧ cutAt evs 0 = some ([], .channelFault 5 .read) := by
  obtain ⟨a1, e1, h1, c1⟩ := script_frame [0xA0, 4] [0x0A] 1 4 (by decide)
  obtain ⟨a2, e2, h2, _⟩ := script_frame data16 [0xFA] 1 4 (by decide)
  refine ⟨_, _, .written a1 a2 e1 e2 _ _ h1 ⟨rfl, 0x0A, rfl, by decide⟩ h2 ⟨rfl, 0xFA, rfl, by decide⟩, ?_⟩
  cases e1 with
  | nil => simp [cutAt] at c1
  | cons e es => cases e <;> simp_all [cutAt]

theorem witness_WriteblkNeedsBothAcknowledges :
    data16.length = 16 ∧ (data16.take 15).length ≠ 16 ∧ State.reset.Ready ∧
    (∃ ans evs, WriteScript defaultConfig 4 data16 ans evs .written ∧
      (∃ s, s.config = defaultConfig ∧ Meets s ans evs) ∧ ∃ s, s.config = defaultConfig ∧ MeetsFailure s ans evs) ∧
    (∃ ans evs, WriteScript defaultConfig 4 data16 ans evs (.writeRejected .one)) ∧
    ∃ ans evs, WriteScript defaultConfig 4 data16 ans evs (.writeRejected .two) := by
  obtain ⟨a0, e0, h0, c0⟩ := script_written
  obtain ⟨a1, e1, h1, _⟩ := script_frame [0xA0, 4] [0x0A] 1 4 (by decide)
  obtain ⟨a2, e2, h2, _⟩ := script_frame [0xA0, 4] [0x05] 1 4 (by decide)
  obtain ⟨a3, e3, h3, _⟩ := script_frame data16 [0x0A, 0x00] 2 0 (by decide)
  exact ⟨by decide, by decide, by decide, ⟨a0, e0, h0, both_meet a0 c0⟩,
    ⟨_, _, .rejectedFirst a2 e2 _ h2 (fun ⟨_, b, hb, hn⟩ => by cases hb; revert hn; decide)⟩,
    ⟨_, _, .rejectedSecond a1 a3 e1 e3 _ _ h1 ⟨rfl, 0x0A, rfl, by decide⟩ h3 (fun ⟨_, b, hb, _⟩ => by cases hb)⟩⟩

theorem witness_LoopbackReadsBackWhatWasWritten :
    ∃ (s : State) (ansW ansR rest : List Byte) (evsW evsR : List Event) (vb : Int), data16.length = 16 ∧ s.Ready ∧
      WriteScript s.config 4 data16 ansW evsW .written ∧ FrameScript s.config [0x30, 4] ansR evsR ⟨.success, data16, vb⟩ ∧
      s.answers = ansW ++ ansR ++ rest ∧ s.Quiet (transactions evsW + transactions evsR) := by
  obtain ⟨a0, e0, h0, _⟩ := script_written
  obtain ⟨a1, e1, h1, _⟩ := script_frame [0x30, 4] data16 18 0 (by decide)
  exact ⟨calm (transactions e0 + transactions e1) (a0 ++ a1), a0, a1, [], e0, e1, _, by decide, ⟨rfl, test_wf_default_config⟩, h0, h1,
    by simp [calm], .inr ⟨by simp [calm], by simp [calm]⟩⟩

/-! The session. -/

/-- The default sequence, and an empty one. -/
theorem script_rearm : ∃ ans evs, RearmScript defaultConfig.rearmSeq ans evs ∧ cutAt evs 0 = some ([], .channelFault 1 .write) :=
  ⟨_, _, .write _ _ _ _ _ (.write _ _ _ _ _ (.write _ _ _ _ _ (.write _ _ _ _ _ (.write _ _ _ _ _ (.write _ _ _ _ _ (.write _ _ _ _ _
    (.set _ _ 0x80 _ _ _ .nil))))))), rfl⟩

theorem witness_RearmRunsTheSequence :
    (∃ ans evs, RearmScript defaultConfig.rearmSeq ans evs ∧
      (∃ s, s.config = defaultConfig ∧ Meets s ans evs) ∧ ∃ s, s.config = defaultConfig ∧ MeetsFailure s ans evs) ∧
    RearmScript [.clear 0x08 0x08] [0x09] [rd 0x08 0x09, wr 0x08 0x01] := by
  obtain ⟨a, e, h, c⟩ := script_rearm
  exact ⟨⟨a, e, h, both_meet a c⟩, .clear _ _ _ _ _ _ .nil⟩

/-- Detected at once; a timeout at its boundary, 100; and a second attempt beyond it, at 101. -/
theorem witness_WaitcardRepeatsUntilTheDeadline :
    (∃ ans evs, WaitScript defaultConfig (-50) 0 ans evs .detected ∧
      (∃ s, s.config = defaultConfig ∧ Meets s ans evs) ∧ ∃ s, s.config = defaultConfig ∧ MeetsFailure s ans evs) ∧
    (∃ ans evs, WaitScript defaultConfig 100 0 ans evs .timeout) ∧
    (∃ ans evs, WaitScript defaultConfig 101 0 ans evs .timeout) ∧ ∃ ans evs, WaitScript defaultConfig 101 0 ans evs .detected := by
  obtain ⟨a, e, h, c⟩ := script_rearm
  obtain ⟨a1, e1, h1, _⟩ := script_response [0x26] [0x04, 0x00] 2 0 (by decide)
  obtain ⟨a2, e2, h2, _⟩ := script_noTag [0x26]
  have hd : RequestScript defaultConfig a1 _ .detected := .detected a1 e1 _ h1
  have hn : RequestScript defaultConfig a2 _ .noCard := .noCard a2 e2 _ h2 (by decide)
  refine ⟨⟨_, _, .detected 0 a a1 e _ h hd, both_meet _ (pre := []) (f := .channelFault 1 .write) ?_⟩,
    ⟨_, _, .timeout 0 a a2 e _ h hn (by decide)⟩,
    ⟨_, _, .again 0 a a2 _ e _ _ _ h hn (by decide) (.timeout 100 a a2 e _ h hn (by decide))⟩,
    ⟨_, _, .again 0 a a2 _ e _ _ _ h hn (by decide) (.detected 100 a a1 e _ h hd)⟩⟩
  cases e with
  | nil => simp [cutAt] at c
  | cons e es => cases e <;> simp_all [cutAt]

theorem witness_ReaduidFormatsFourBytes :
    (∃ ans evs, AnticollScript defaultConfig ans evs (.ok [0x04, 0x11, 0x22, 0x33, 0x04]) ∧
      (∃ s, s.config = defaultConfig ∧ Meets s ans evs) ∧ ∃ s, s.config = defaultConfig ∧ MeetsFailure s ans evs) ∧
    ∃ ans evs, AnticollScript defaultConfig ans evs (.failed (.wrongLength 4)) :=
  ⟨witness_AnticollResolvesTheUid.1, witness_AnticollResolvesTheUid.2.2.2.1⟩

/-- The clauses' boundaries: block 63 is the last in range, 64 the first out of it; a key of 5 bytes and a UID of 3; both keys. -/
theorem witness_sessionChecks :
    16 * 4 + 0 % 4 > 63 ∧ 15 * 4 + 7 % 4 ≤ 63 ∧ (keyF.take 5).length ≠ 6 ∧ (uid4.take 3).length < 4 ∧ keyF.length = 6 ∧
      4 ≤ uid4.length ∧ data16.length = 16 ∧ (data16.take 15).length ≠ 16 ∧ KeyChosen (some keyF) (some uid4) .A keyF ∧
      KeyChosen none (some keyF) .B keyF ∧ State.reset.Ready ∧ ∃ s, s.config = defaultConfig ∧ Meets s [] [] :=
  ⟨by decide, by decide, by decide, by decide, by decide, by decide, by decide, by decide, .a _ _, .b _, by decide,
    ⟨_, rfl, calm_meets [] []⟩⟩

theorem witness_ReadsectChecksThenReads :
    (∃ ans evs ans' evs', AuthScript defaultConfig .A 4 keyF uid4 ans evs .authOk ∧ ReadScript defaultConfig 4 ans' evs' (.data data16) ∧
      ∃ s, s.config = defaultConfig ∧ Meets s (ans ++ ans') (evs ++ evs')) ∧
    (∃ ans evs, AuthScript defaultConfig .B 4 keyF uid4 ans evs .authFailed) ∧
    (∃ ans evs, ReadScript defaultConfig 4 ans evs .readError) ∧ (4 : Byte) = BitVec.ofNat 8 (1 * 4 + 0 % 4) := by
  obtain ⟨⟨a1, e1, h1, _⟩, h2, _⟩ := witness_AuthSendsKeyAndUid
  obtain ⟨⟨a3, e3, h3, _⟩, h4⟩ := witness_ReadblkReturnsSixteenBytes
  exact ⟨⟨a1, e1, a3, e3, h1, h3, _, rfl, calm_meets _ _⟩, h2, h4, by decide⟩

theorem witness_WritesectChecksThenWrites :
    (∃ ans evs ans' evs', AuthScript defaultConfig .A 4 keyF uid4 ans evs .authOk ∧ WriteScript defaultConfig 4 data16 ans' evs' .written ∧
      ∃ s, s.config = defaultConfig ∧ Meets s (ans ++ ans') (evs ++ evs')) ∧
    (∃ ans evs, WriteScript defaultConfig 4 data16 ans evs (.writeRejected .two)) ∧ (4 : Byte) = BitVec.ofNat 8 (1 * 4 + 0 % 4) := by
  obtain ⟨⟨a1, e1, h1, _⟩, _⟩ := witness_AuthSendsKeyAndUid
  obtain ⟨_, _, _, ⟨a3, e3, h3, _⟩, _, h4⟩ := witness_WriteblkNeedsBothAcknowledges
  exact ⟨⟨a1, e1, a3, e3, h1, h3, _, rfl, calm_meets _ _⟩, h4, by decide⟩

/-! All operations. -/

theorem witness_WellFormedCallsComplete :
    Instr.wf (.writesect uid4 15 3 data16 (some keyF) none) = true ∧
      ∃ s : State, s.Ready ∧ s.answers = [] ∧ s.Quiet (maxTransactions s.config (.writesect uid4 15 3 data16 (some keyF) none)) :=
  ⟨by decide, State.create { defaultHandle with config := { defaultConfig with channelCanFault := false } }, ⟨rfl, by decide⟩, rfl,
    .inl rfl⟩

/-- Each of the three ends occurs. -/
theorem witness_CallsEndInOneOfThreeWays :
    (∃ t, exec (.rreg (.num 4)) (ready [0x92]) = .next t ∧ t.results = [.byte 0x92]) ∧
    (∃ t, exec (.bcc []) (ready []) = .next t ∧ t.refused = true) ∧
    ∃ t, exec .request (failing 1 []) = .next t ∧ t.fault = some (.channelFault 2 .write) :=
  ⟨⟨_, rfl, by decide⟩, ⟨_, rfl, by decide⟩, ⟨_, rfl, by decide⟩⟩

theorem witness_WellFormedCallsAreNeverRefused :
    Instr.wf (.auth .A 4 keyF uid4) = true ∧ (failing 0 []).Ready ∧ ∃ t, exec (.auth .A 4 keyF uid4) (failing 0 []) = .next t :=
  ⟨by decide, by decide, _, rfl⟩

theorem witness_TransactionsAreBounded : ∃ t, exec .stopcrypto (ready [0x08]) = .next t ∧ transactions t.trace = 2 :=
  ⟨_, rfl, by decide⟩

theorem witness_OnlyWaitcardSleeps :
    (∃ t, exec .rearm (ready [0x80]) = .next t ∧ ∀ n, Instr.rearm ≠ .waitcard n) ∧
      ∃ t, exec (.waitcard 0) (ready [0x80, 0x00, 0x00, 0x07, 0x01, 0x87, 0x00]) = .next t ∧ sleeps t.trace = 1 :=
  ⟨⟨_, rfl, fun _ h => by cases h⟩, _, rfl, by decide⟩

/-- The three groups of operations, under the default addresses. -/
theorem witness_FramingPersists :
    (∀ r : Role, r = .irqEnable ∨ r = .irqStatus ∨ r = .crcIrq ∨ r = .fifoLevel ∨ r = .fifoData ∨ r = .command →
      defaultConfig.addr r ≠ defaultConfig.regBitFraming) ∧ defaultConfig.regStatus2 ≠ defaultConfig.regBitFraming ∧
    (∃ t, exec .stopcrypto (ready [0x08]) = .next t ∧ writesWhereTold .stopcrypto = false ∧
      framingWritten defaultConfig .stopcrypto = none) ∧
    (∃ t, exec .readuid (failing 0 []) = .next t ∧ framingWritten defaultConfig .readuid = some 0x00) ∧
    (∃ t, exec (.setb (.num 0x4C) 1) (ready [0x00]) = .next t ∧
      ((RegRef.num 0x4C).addr defaultConfig).setWidth 6 ≠ defaultConfig.regBitFraming.setWidth 6) ∧ (ready []).Ready ∧ (failing 0 []).Ready :=
  ⟨by rintro r (rfl | rfl | rfl | rfl | rfl | rfl) <;> decide, by decide, ⟨_, rfl, by decide, by decide⟩, ⟨_, rfl, by decide⟩,
    ⟨_, rfl, by decide⟩, by decide, by decide⟩

/-- An operation outside the exceptions, under the default addresses. -/
theorem witness_OperationsWriteOnlyTheirRegisters :
    (∀ r : Role, r = .command ∨ r = .irqEnable ∨ r = .irqStatus ∨ r = .crcIrq ∨ r = .fifoLevel ∨ r = .fifoData ∨ r = .bitFraming →
      ((defaultConfig.addr r).setWidth 6 : RegAddr) ≠ defaultConfig.regStatus2.setWidth 6) ∧
    ∃ t, exec (.tocardAuth [0x60]) (ready [0x00, 0x00, 0x10, 0x00, 0x00]) = .next t ∧ Instr.tocardAuth [0x60] ≠ .stopcrypto ∧
      writesWhereTold (.tocardAuth [0x60]) = false :=
  ⟨by rintro r (rfl | rfl | rfl | rfl | rfl | rfl | rfl) <;> decide, _, rfl, by decide, by decide⟩

/-- Two engines with different pasts and the same answers. -/
theorem witness_OperationsDependOnlyOnTheAnswers :
    ∃ s s' t t' : State, s.handle = s'.handle ∧ s.trace ≠ s'.trace ∧ s.answers = s'.answers ∧ s.failures = s'.failures ∧
      maxTransactions s.config .stopcrypto ≤ s.answers.length ∧ maxTransactions s.config .stopcrypto ≤ s.failures.length ∧
      exec .stopcrypto s = .next t ∧ exec .stopcrypto s' = .next t' :=
  ⟨ready [0x08, 0x01], { ready [0x08, 0x01] with trace := [wr 1 2], refused := true }, _, _, rfl, by decide, rfl, rfl, by decide, by decide,
    rfl, rfl⟩

end Sys2Proof.Machine
end

/-! The configuration check of 00_scope.md R10, the refusal it leads to, and the completion of well-formed calls. -/

namespace Sys2Proof.Machine

/-! The configuration check, by roles. -/

theorem Role.mem_all (r : Role) : r ∈ Role.all := by
  cases r <;> decide

/-- The registers a configuration checks are the addresses of its roles (00_scope.md R9). -/
theorem Config.registers_eq_map_addr (c : Config) : c.registers = Role.all.map c.addr := rfl

theorem Config.wf_iff (c : Config) :
    c.wf = true ↔ (∀ r : Role, (c.addr r).toNat ≤ 63) ∧ 1 ≤ c.pollBudgetCrc ∧ 1 ≤ c.pollBudgetCmd := by
  simp [Config.wf, Config.registers_eq_map_addr, Role.mem_all, and_assoc]

/-- An ill-formed configuration refuses whatever is performed under it, before the first transaction (00_scope.md R10). -/
theorem perform_illFormed {p : Config → Prog OpResult} {s : State} (hf : s.fault = none) (hwf : s.config.wf = false) :
    perform p s = .next s.markRefused := by
  simp [perform, hf, guardConfig, hwf, Prog.run, Run.settle]

/-- Settles O8: the check reads the roles' addresses and the two budgets, and every operation is a `perform`. -/
theorem illFormedConfigurationIsRefused : Obligations.IllFormedConfigurationIsRefused := by
  refine ⟨Config.wf_iff, fun i s hf hwf => ?_⟩
  rw [exec_eq_perform]
  exact perform_illFormed hf hwf

/-! What an uninterrupted run leaves unchanged. -/

section After
variable (s : State) (evs : List Event) (rest : List Byte)

@[simp] theorem State.after_handle : (s.after evs rest).handle = s.handle := rfl
@[simp] theorem State.after_fault : (s.after evs rest).fault = s.fault := rfl
@[simp] theorem State.after_refused : (s.after evs rest).refused = s.refused := rfl
@[simp] theorem State.after_results : (s.after evs rest).results = s.results := rfl

end After

/-! A run within its bound. -/

/-- A program within a bound, on a channel quiet for that bound, runs to its return: it has no refusal to reach, and a failed transaction
would be one of those the channel lets pass. -/
theorem Prog.Within.run_done {α : Type} {naps : Bool} {n : Nat} {p : Prog α} (h : p.Within naps n) {s : State} (hq : s.Quiet n) :
    ∃ a evs, p.run s = .done a (s.after evs (s.answers.drop (readsIn evs))) := by
  obtain ⟨ans, evs, q, hal, -, -, hend⟩ := p.run_cases s
  obtain ⟨hlen, hrest, -⟩ := h.along hal
  rcases hend with ⟨a, -, hrun⟩ | ⟨why, rfl, -⟩ | ⟨f, hpending, -, hloud, -⟩
  · exact ⟨a, evs, hrun⟩
  · exact hrest.elim
  · have hroom : 1 ≤ n - transactions evs := hrest.pending hpending
    exact absurd (hq.mono (by omega)) hloud

/-- An operation with well-formed operands, ready and on a quiet channel, makes some events and returns one result. -/
theorem exec_wellFormed_returns {i : Instr} {s : State} (hi : i.wf = true) (hs : s.Ready)
    (hq : s.Quiet (maxTransactions s.config i)) :
    ∃ r evs, exec i s = .next ((s.after evs (s.answers.drop (readsIn evs))).returnResult r) := by
  obtain ⟨r, evs, hrun⟩ := (progOf_within s.config i hi).run_done hq
  exact ⟨r, evs, by rw [exec_eq_perform, perform_ready hs, hrun, Run.settle]⟩

/-- Settles O45: a well-formed operation stays within its bound, so that a channel quiet for the bound lets it return. -/
theorem wellFormedCallsComplete : Obligations.WellFormedCallsComplete := by
  intro i s hi hs hq
  obtain ⟨r, evs, hexec⟩ := exec_wellFormed_returns hi hs hq
  exact ⟨_, r, hexec, by simp, by simp [hs.1], by simp, by simp⟩

end Sys2Proof.Machine

/-! The engine's state: what every step keeps, the three ends of an operation, the marks, and the two forms of a run (10_state.md). -/

namespace Sys2Proof.Machine

/-! The fields of the two states a run can leave. -/

section RunEnds
variable (s : State) (evs : List Event) (rest : List Byte) (f : FaultInfo) (later : List Bool)

@[simp] theorem State.after_config : (s.after evs rest).config = s.config := rfl
@[simp] theorem State.after_trace : (s.after evs rest).trace = s.trace ++ evs := rfl
@[simp] theorem State.after_answers : (s.after evs rest).answers = rest := rfl
@[simp] theorem State.after_cs : (s.after evs rest).cs = if transactions evs = 0 then s.cs else false := rfl

@[simp] theorem State.interrupted_config : (s.interrupted evs f later).config = s.config := rfl
@[simp] theorem State.interrupted_cs : (s.interrupted evs f later).cs = false := rfl
@[simp] theorem State.interrupted_trace : (s.interrupted evs f later).trace = s.trace ++ evs ++ [.fault f] := rfl
@[simp] theorem State.interrupted_fault : (s.interrupted evs f later).fault = some f := rfl
@[simp] theorem State.interrupted_refused : (s.interrupted evs f later).refused = s.refused := rfl
@[simp] theorem State.interrupted_answers : (s.interrupted evs f later).answers = s.answers.drop (readsIn evs) := rfl
@[simp] theorem State.interrupted_results : (s.interrupted evs f later).results = s.results := rfl

end RunEnds

/-- The fault event is no read. -/
theorem readsIn_append_fault (evs : List Event) (f : FaultInfo) : readsIn (evs ++ [.fault f]) = readsIn evs := by
  simp [readsIn, isRead]

/-! The invariant, update by update. -/

theorem State.create_inv (h : DeviceHandle) : (State.create h).Inv :=
  ⟨rfl, by simp [State.create], rfl, .inl rfl, fun _ => rfl⟩

theorem State.Inv.dropCall {s : State} (h : s.Inv) : s.dropCall.Inv := h

theorem State.Inv.markRefused {s : State} (h : s.Inv) : s.markRefused.Inv := h

theorem State.Inv.returnResult {s : State} (h : s.Inv) (r : OpResult) : (s.returnResult r).Inv := h

/-- Events the block emits, none of them a fault, keep the invariant of an unfaulted state. -/
theorem State.Inv.after {s : State} (h : s.Inv) (hf : s.fault = none) {evs : List Event} (hwf : ∀ e ∈ evs, eventWf e = true)
    (hno : faultsOf evs = []) (rest : List Byte) : (s.after evs rest).Inv := by
  obtain ⟨hcs, htrace, hfaults, -, -⟩ := h
  refine ⟨by simp [hcs], fun e he => ?_, by simp [hfaults, hno], .inl hf, fun _ => hf⟩
  exact (List.mem_append.1 he).elim (htrace e) (hwf e)

/-- So does a channel fault after them, where the channel can fault: its event is the trace's one fault event and the last. -/
theorem State.Inv.interrupted {s : State} (h : s.Inv) (hf : s.fault = none) {pre : List Event} (hwf : ∀ e ∈ pre, eventWf e = true)
    (hno : faultsOf pre = []) (hcan : s.config.channelCanFault = true) (f : FaultInfo) (later : List Bool) :
    (s.interrupted pre f later).Inv := by
  obtain ⟨-, htrace, hfaults, -, -⟩ := h
  refine ⟨rfl, fun e he => ?_, by simp [hfaults, hf, hno, faultsOf], .inr (by simp), by simp [hcan]⟩
  rw [State.interrupted_trace, List.append_assoc, List.mem_append, List.mem_append, List.mem_singleton] at he
  rcases he with he | he | rfl
  · exact htrace e he
  · exact hwf e he
  · rfl

/-- Every event on a way whose sleeps are of 100 ms is one the block makes. -/
theorem Prog.Along.eventWf_of_sleeps {α : Type} {p q : Prog α} {ans : List Byte} {evs : List Event} (h : p.Along ans evs q)
    (hsleep : ∀ ms, .sleep ms ∈ evs → ms = 100) : ∀ e ∈ evs, Machine.eventWf e = true := by
  intro e he
  cases e with
  | xfer dir a b1 b2 r2 => exact h.eventWf _ he rfl
  | sleep ms => simp [Machine.eventWf, hsleep ms he]
  | fault f => rfl

/-- Every operation keeps the invariant. -/
theorem State.Inv.exec {s t : State} (h : s.Inv) {i : Instr} (ht : Machine.exec i s = .next t) : t.Inv := by
  obtain ⟨hf, rfl | ⟨-, ans, evs, q, hal, -, -, -, hsleep, hend⟩⟩ := exec_next_within ht
  · exact h.markRefused
  have hwf := hal.eventWf_of_sleeps fun ms hms => (hsleep ms hms).2
  rcases hend with ⟨r, -, rfl⟩ | ⟨f, -, hcan, -, -, rfl⟩
  · exact (h.after hf hwf hal.faultsOf_eq _).returnResult r
  · exact h.interrupted hf hwf hal.faultsOf_eq hcan f _

/-- Settles O3: a step waits, refuses a call, or runs an operation, and each keeps the invariant. -/
theorem stepKeepsInvariant : Obligations.StepKeepsInvariant := by
  intro s t h ht
  obtain ⟨-, ⟨-, rfl⟩ | ⟨c, rest, e, -, -, rfl⟩ | ⟨c, rest, i, -, -, ht⟩⟩ := step_next_cases ht
  · exact h
  · exact h.dropCall.markRefused
  · exact h.dropCall.exec ht

/-- Settles O2. -/
theorem creationMeetsInvariant : Obligations.CreationMeetsInvariant :=
  ⟨State.create_inv, State.create_inv defaultHandle⟩

/-- Settles O1: `State.create` gives each field the value of 10_state.md R45. -/
theorem creationLeavesTheEngineStateOfR45 : Obligations.CreationLeavesTheEngineStateOfR45 :=
  ⟨fun _ => ⟨rfl, rfl, rfl, rfl, rfl⟩, defaultHandle, rfl⟩

/-! The step, by what it finds. -/

theorem step_faulted {s : State} {f : FaultInfo} (hf : s.fault = some f) : step s = .fault (.engineFaulted f) := by
  simp [step, hf]

theorem step_idle {s : State} (hf : s.fault = none) (hc : s.calls = []) : step s = .next s := by
  simp [step, hf, State.nextCall, hc]

theorem step_undecodable {s : State} {c : HostCall} {rest : List HostCall} {e : CallError} (hf : s.fault = none)
    (hc : s.calls = c :: rest) (hd : decodeCall c = .error e) : step s = .next s.dropCall.markRefused := by
  simp [step, hf, State.nextCall, hc, hd]

theorem step_run {s : State} {c : HostCall} {rest : List HostCall} {i : Instr} (hf : s.fault = none)
    (hc : s.calls = c :: rest) (hd : decodeCall c = .ok i) : step s = exec i s.dropCall := by
  simp [step, hf, State.nextCall, hc, hd]

theorem State.dropCall_eq {s : State} {c : HostCall} {rest : List HostCall} (hc : s.calls = c :: rest) :
    s.dropCall = { s with calls := rest } := by
  simp [State.dropCall, hc]

/-- The operation of a table word is that of its bytes as a recorded transaction. -/
theorem decodeCall_of_decodeTableWord {nbits w : Nat} {i : Instr} (h : decodeTableWord nbits w = some i) :
    decodeCall (.raw (tableWordBytes nbits w)) = .ok i := by
  unfold decodeTableWord at h
  cases hd : decodeBytes (tableWordBytes nbits w) with
  | error e => simp [hd] at h
  | ok j => simpa [decodeCall, hd] using h

/-- Settles O7. -/
theorem stepWithoutAnOperation : Obligations.StepWithoutAnOperation := by
  refine ⟨fun s c rest e hf hc hd => ?_, fun s => step_idle⟩
  rw [step_undecodable hf hc hd, State.dropCall_eq hc]
  rfl

/-- Settles O5. -/
theorem stepRunsTheDecodedCall : Obligations.StepRunsTheDecodedCall := by
  intro s c rest i hf hc hd
  rw [step_run hf hc hd, State.dropCall_eq hc]

/-- Settles O6: the placed word is the next call, and without it the state is the one before. -/
theorem stepRunsTheFetchedWord : Obligations.StepRunsTheFetchedWord := by
  intro s nbits w i hf hd
  exact step_run (s := s.withFetchWord nbits w) hf rfl (decodeCall_of_decodeTableWord hd)

/-! The ends of an operation, and the marks. -/

/-- Settles O46: the inversion of `exec`, field by field. -/
theorem callsEndInOneOfThreeWays : Obligations.CallsEndInOneOfThreeWays := by
  intro i s t h
  obtain ⟨hf, rfl | ⟨-, ans, evs, q, hal, -, -, -, -, hend⟩⟩ := exec_next_within h
  · exact ⟨hf, rfl, rfl, [], by simp, by simp, .inr (.inl ⟨rfl, rfl⟩)⟩
  have hno := hal.faultsOf_eq
  rcases hend with ⟨r, -, rfl⟩ | ⟨f, -, hcan, -, -, rfl⟩
  · exact ⟨hf, rfl, rfl, evs, rfl, rfl, .inl ⟨r, rfl, hf, rfl, hno, rfl, rfl, rfl⟩⟩
  · exact ⟨hf, rfl, rfl, evs ++ [.fault f], by simp, by simp [readsIn_append_fault],
      .inr (.inr ⟨f, evs, rfl, hno, rfl, rfl, rfl, rfl, hcan, rfl, rfl⟩)⟩

/-- Settles O4: the mark stops `step` and `perform`; and of the three ends of an operation one alone raises a fault, with its event. -/
theorem faultMarkIsStickyAndStopsTheEngine : Obligations.FaultMarkIsStickyAndStopsTheEngine := by
  refine ⟨fun h => rfl, fun s f hf => ⟨step_faulted hf, fun i => ?_⟩, fun i s t h => ?_⟩
  · rw [exec_eq_perform]
    exact perform_faulted hf
  · obtain ⟨hf, -, -, evs, htrace, -, hend⟩ := callsEndInOneOfThreeWays i s t h
    refine ⟨evs, htrace, ?_⟩
    rcases hend with ⟨r, -, ht, -, hno, -⟩ | ⟨rfl, rfl⟩ | ⟨f, pre, rfl, hno, ht, -⟩
    · simp [ht, hno]
    · simp [hf, faultsOf]
    · simp [ht, hno, faultsOf]

/-- Settles O47: a program within a bound has no refusal on any way through it. -/
theorem wellFormedCallsAreNeverRefused : Obligations.WellFormedCallsAreNeverRefused := by
  intro i s t hi hs h
  obtain ⟨-, ⟨hwf, -⟩ | ⟨-, ans, evs, q, hal, -, -, hend⟩⟩ := exec_next_cases h
  · simp [hs.2] at hwf
  rcases hend with ⟨r, -, rfl⟩ | ⟨why, rfl, -⟩ | ⟨f, -, -, -, rfl⟩
  · rfl
  · obtain ⟨-, hrest, -⟩ := (progOf_within s.config i hi).along hal
    exact hrest.elim
  · rfl

/-! The oracle's free value. -/

/-- On a quiet channel, with no scripted answer, a read completes with the free value. -/
theorem xferRead_unscripted {s : State} (hq : s.Quiet 1) (ha : s.answers = []) (a : Byte) :
    xferRead a s = .completed (Config.oracle s.trace (chipAddr a) s.draws)
      (s.selectChip.deselectChip.dropAnswer.record (rd a (Config.oracle s.trace (chipAddr a) s.draws))) := by
  simp [xferRead, State.Quiet.not_xferFails (n := 0) hq, State.chipByte, ha, rd, chipAddr, addressByte, dummyByte]

/-- Settles O19: RREG is one read. -/
theorem unscriptedReadTakesTheOracle : Obligations.UnscriptedReadTakesTheOracle := by
  intro s r hs hq ha
  have hrun (a : Byte) : ((readReg a).map OpResult.byte).run s = .done (.byte (Config.oracle s.trace (chipAddr a) s.draws))
      (s.after [rd a (Config.oracle s.trace (chipAddr a) s.draws)] []) := by
    rw [← State.after_rd, State.after_nil (by simp [ha])]
    simp only [readReg, Prog.map, Prog.bind, Prog.run, xferRead_unscripted hq ha]
  rw [exec_eq_perform, perform_ready hs, progOf, hrun]
  rfl

/-! Two engines with the same answers and failures ahead of them. -/

/-- Two states of one handle, with the same answers and the same channel decisions ahead. -/
structure SameAhead (s s' : State) : Prop where
  handle : s.handle = s'.handle
  answers : s.answers = s'.answers
  failures : s.failures = s'.failures

theorem SameAhead.config {s s' : State} (h : SameAhead s s') : s.config = s'.config :=
  congrArg DeviceHandle.config h.handle

theorem SameAhead.quiet {s s' : State} (h : SameAhead s s') {n : Nat} (hq : s.Quiet n) : s'.Quiet n := by
  rwa [State.Quiet, ← h.config, ← h.failures]

/-- From `s` to `t` and from `s'` to `t'` the engine made the same events, returned the same, and ended with the same mark and the same
answers ahead. -/
def DoAlike (s t s' t' : State) : Prop :=
  ∃ evs res, t.trace = s.trace ++ evs ∧ t'.trace = s'.trace ++ evs ∧ t.results = s.results ++ res ∧
    t'.results = s'.results ++ res ∧ t.fault = t'.fault ∧ t.answers = t'.answers

theorem doAlike_refused {s s' : State} (h : SameAhead s s') (hf : s.fault = s'.fault) :
    DoAlike s s.markRefused s' s'.markRefused :=
  ⟨[], [], by simp, by simp, by simp, by simp, hf, h.answers⟩

theorem doAlike_after {s s' : State} (hf : s.fault = s'.fault) (evs : List Event) (rest : List Byte) (r : OpResult) :
    DoAlike s ((s.after evs rest).returnResult r) s' ((s'.after evs rest).returnResult r) :=
  ⟨evs, [r], rfl, rfl, rfl, rfl, hf, rfl⟩

theorem doAlike_interrupted {s s' : State} (h : SameAhead s s') (pre : List Event) (f : FaultInfo) (later : List Bool) :
    DoAlike s (s.interrupted pre f later) s' (s'.interrupted pre f later) :=
  ⟨pre ++ [.fault f], [], by simp, by simp, by simp, by simp, rfl, by simp [h.answers]⟩

/-- Enough answers lead a program within a bound to its return. -/
theorem Prog.Within.exists_path {α : Type} {naps : Bool} {n : Nat} {p : Prog α} (h : p.Within naps n) {answers : List Byte}
    (hlen : n ≤ answers.length) : ∃ ans rest evs a, answers = ans ++ rest ∧ p.Path ans evs a := by
  induction p generalizing n answers with
  | ret a => exact ⟨[], answers, [], a, rfl, .ret a⟩
  | refuse why => exact h.elim
  | read a k ih =>
    obtain ⟨hn, hk⟩ := h
    match answers, hlen with
    | [], hlen => simp at hlen; omega
    | r :: answers, hlen =>
      obtain ⟨ans, rest, evs, x, rfl, hpath⟩ := ih r (hk r) (answers := answers) (by simp at hlen; omega)
      exact ⟨r :: ans, rest, _, x, rfl, .read a r k _ _ _ hpath⟩
  | write a v k ih =>
    obtain ⟨-, hk⟩ := h
    obtain ⟨ans, rest, evs, x, heq, hpath⟩ := ih hk (answers := answers) (by omega)
    exact ⟨ans, rest, _, x, heq, .write a v k _ _ _ hpath⟩
  | sleep ms k ih =>
    obtain ⟨-, -, hk⟩ := h
    obtain ⟨ans, rest, evs, x, heq, hpath⟩ := ih hk hlen
    exact ⟨ans, rest, _, x, heq, .sleep ms k _ _ _ hpath⟩

@[simp] theorem transactions_xfer (dir : Direction) (a : RegAddr) (b1 b2 : Byte) (r2 : Option Byte) (evs : List Event) :
    transactions (.xfer dir a b1 b2 r2 :: evs) = transactions evs + 1 := by
  simp [transactions, isTransaction, List.countP_cons]

@[simp] theorem transactions_fault (f : FaultInfo) (evs : List Event) : transactions (.fault f :: evs) = transactions evs := by
  simp [transactions, isTransaction]

/-- Events with more than `k` transactions can be cut at the `k`-th, counted from 0. -/
theorem cutAt_isSome_of_lt {evs : List Event} {k : Nat} (h : k < transactions evs) : (cutAt evs k).isSome := by
  induction evs generalizing k with
  | nil => simp at h
  | cons e es ih =>
    cases e with
    | xfer dir a b1 b2 r2 =>
      cases k with
      | zero => rfl
      | succ k => simpa [cutAt] using ih (by simpa using h)
    | sleep ms => simpa [cutAt] using ih (by simpa using h)
    | fault f => simpa [cutAt] using ih (by simpa using h)

/-- Of `n` channel decisions none is a failure, or one is the first that is. -/
theorem take_all_false_or_first_true {n : Nat} {l : List Bool} (h : n ≤ l.length) :
    (∀ f ∈ l.take n, f = false) ∨ ∃ k later, k < n ∧ l = List.replicate k false ++ true :: later := by
  induction n generalizing l with
  | zero => exact .inl (by simp)
  | succ n ih =>
    match l, h with
    | true :: l, _ => exact .inr ⟨0, l, by omega, rfl⟩
    | false :: l, h =>
      rcases ih (l := l) (by simpa using h) with hall | ⟨k, later, hk, rfl⟩
      · exact .inl (by simpa using hall)
      · exact .inr ⟨k + 1, later, by omega, rfl⟩

/-- A channel whose next `n` decisions are scripted is quiet for them, or fails one of those transactions. -/
theorem State.quiet_or_fails {s : State} {n : Nat} (h : s.config.channelCanFault = false ∨ n ≤ s.failures.length) :
    s.Quiet n ∨ (s.config.channelCanFault = true ∧ ∃ k later, k < n ∧ s.failures = List.replicate k false ++ true :: later) := by
  cases hcan : s.config.channelCanFault with
  | false => exact .inl (.inl hcan)
  | true =>
    have hlen : n ≤ s.failures.length := by simpa [hcan] using h
    rcases take_all_false_or_first_true hlen with hall | hfirst
    · exact .inl (.inr ⟨hlen, hall⟩)
    · exact .inr ⟨rfl, hfirst⟩

/-- An operation whose program refuses leaves the mark and nothing else (10_state.md R25). -/
theorem refuses_of_progOf {i : Instr} {s : State} {why : RefuseReason} (h : progOf s.config i = .refuse why) : Refuses i s := by
  intro hs
  rw [exec_eq_perform, perform_ready hs, h]
  rfl

/-- An operation that follows one script from two states with the same ahead does alike, if the channel's decisions for the script are
scripted too. -/
theorem Performs.doAlike {i : Instr} {s s' t t' : State} {ans rest : List Byte} {evs : List Event} {r : OpResult}
    (h : Performs i s ans evs r) (h' : Performs i s' ans evs r) (hs : s.Ready) (hs' : s'.Ready) (hsame : SameAhead s s')
    (ha : s.answers = ans ++ rest) (hdec : s.config.channelCanFault = false ∨ transactions evs ≤ s.failures.length)
    (ht : exec i s = .next t) (ht' : exec i s' = .next t') : DoAlike s t s' t' := by
  obtain ⟨hdone, hcut⟩ := h hs rest ha
  obtain ⟨hdone', hcut'⟩ := h' hs' rest (hsame.answers ▸ ha)
  rcases State.quiet_or_fails hdec with hq | ⟨hcan, k, later, hk, hfs⟩
  · obtain rfl : _ = t := by simpa [hdone hq] using ht
    obtain rfl : _ = t' := by simpa [hdone' (hsame.quiet hq)] using ht'
    exact doAlike_after (hs.1.trans hs'.1.symm) evs rest r
  · obtain ⟨⟨pre, f⟩, hpre⟩ := Option.isSome_iff_exists.1 (cutAt_isSome_of_lt hk)
    obtain rfl : _ = t := by simpa [hcut k pre f later hpre hcan hfs] using ht
    obtain rfl : _ = t' := by simpa [hcut' k pre f later hpre (hsame.config ▸ hcan) (hsame.failures ▸ hfs)] using ht'
    exact doAlike_interrupted hsame pre f later

/-- Settles O53: the answers fix one path through the operation's program, the same from both states, and the channel's decisions fix
where on it the run ends. -/
theorem operationsDependOnlyOnTheAnswers : Obligations.OperationsDependOnlyOnTheAnswers := by
  intro i s s' t t' hhandle ha hfail hlen hdec ht ht'
  change DoAlike s t s' t'
  have hsame : SameAhead s s' := ⟨hhandle, ha, hfail⟩
  have hf : s.fault = none := (exec_next_within ht).1
  have hf' : s'.fault = none := (exec_next_within ht').1
  have hrefused (h : exec i s = .next s.markRefused) (h' : exec i s' = .next s'.markRefused) : DoAlike s t s' t' := by
    obtain rfl : _ = t := by simpa [h] using ht
    obtain rfl : _ = t' := by simpa [h'] using ht'
    exact doAlike_refused hsame (hf.trans hf'.symm)
  cases hwf : s.config.wf with
  | false =>
    have hillFormed := illFormedConfigurationIsRefused.2 i
    exact hrefused (hillFormed s hf hwf) (hillFormed s' hf' (hsame.config ▸ hwf))
  | true =>
    have hs : s.Ready := ⟨hf, hwf⟩
    have hs' : s'.Ready := ⟨hf', hsame.config ▸ hwf⟩
    rcases progOf_cases s.config i with ⟨why, hp⟩ | hp
    · exact hrefused (refuses_of_progOf hp hs) (refuses_of_progOf (hsame.config ▸ hp) hs')
    · obtain ⟨ans, rest, evs, r, hsplit, hpath⟩ := hp.exists_path hlen
      have hbound : transactions evs ≤ maxTransactions s.config i := (hp.along (Prog.along_ret_iff.2 hpath)).1
      exact (performs_of_path (exec_eq_perform i) hpath).doAlike (performs_of_path (exec_eq_perform i) (hsame.config ▸ hpath)) hs hs'
        hsame hsplit (hdec.imp_right hbound.trans) ht ht'

/-! The run and the steps over events. -/

/-- The run makes some number of events, and one step more than that many ends as the run. -/
def Prog.StepsAgree {α : Type} (p : Prog α) (s : State) : Prop :=
  ∃ n, (p.run s).state.trace.length = s.trace.length + n ∧ Stage.steps (n + 1) (.at p s) = .ended (p.run s)

section StepsAgree
variable {α : Type} {p q : Prog α} {s t : State}

/-- If the next step makes an event and goes on, the forms agree if they agree from there. -/
theorem Prog.StepsAgree.of_next (hnext : (Stage.at p s).next = .at q t) (hrun : p.run s = q.run t)
    (htrace : t.trace.length = s.trace.length + 1) (h : q.StepsAgree t) : p.StepsAgree s := by
  obtain ⟨n, hlen, hsteps⟩ := h
  exact ⟨n + 1, by rw [hrun, hlen, htrace]; omega, by rw [hrun, Stage.steps, hnext, hsteps]⟩

/-- A failed transaction makes the fault event and ends in its own step; the step left over changes nothing. -/
theorem Prog.StepsAgree.of_faulted {f : FaultInfo} (hnext : (Stage.at p s).next = .ended (.faulted f t)) (hrun : p.run s = .faulted f t)
    (htrace : t.trace.length = s.trace.length + 1) : p.StepsAgree s :=
  ⟨1, by rw [hrun, ← htrace]; rfl, by rw [hrun, Stage.steps, hnext]; rfl⟩

end StepsAgree

/-- The two forms of a run agree, event by event along the program (10_state.md R17). -/
theorem Prog.stepsAgree {α : Type} (p : Prog α) (s : State) : p.StepsAgree s := by
  induction p generalizing s with
  | ret a => exact ⟨0, rfl, rfl⟩
  | refuse why => exact ⟨0, rfl, rfl⟩
  | read a k ih =>
    rcases xferRead_cases a s with ⟨r, -, hx⟩ | ⟨-, -, hx⟩
    · exact .of_next (by rw [Stage.next, hx]) (by rw [Prog.run, hx]) (by simp) (ih r _)
    · exact .of_faulted (by rw [Stage.next, hx]) (by rw [Prog.run, hx]) (by simp)
  | write a v k ih =>
    rcases xferWrite_cases a v s with hx | ⟨-, -, hx⟩
    · exact .of_next (by rw [Stage.next, hx]) (by rw [Prog.run, hx]) (by simp) (ih _)
    · exact .of_faulted (by rw [Stage.next, hx]) (by rw [Prog.run, hx]) (by simp)
  | sleep ms k ih => exact .of_next rfl rfl (by simp) (ih _)

/-- One step of the engine appends at most one event (10_state.md R23). -/
theorem Stage.next_trace_length_le {α : Type} (g : Stage α) : g.next.state.trace.length ≤ g.state.trace.length + 1 := by
  match g with
  | .ended r => exact Nat.le_succ _
  | .at (.ret a) s => exact Nat.le_succ _
  | .at (.refuse why) s => exact Nat.le_succ _
  | .at (.read a k) s =>
    rcases xferRead_cases a s with ⟨r, -, hx⟩ | ⟨-, -, hx⟩ <;> simp [Stage.next, hx, Stage.state, Run.state]
  | .at (.write a v k) s =>
    rcases xferWrite_cases a v s with hx | ⟨-, -, hx⟩ <;> simp [Stage.next, hx, Stage.state, Run.state]
  | .at (.sleep ms k) s => simp [Stage.next, Stage.state]

/-- Settles O54. -/
theorem eventStepsAgreeWithTheRun : Obligations.EventStepsAgreeWithTheRun := by
  intro α p s
  obtain ⟨n, hlen, hsteps⟩ := p.stepsAgree s
  exact ⟨by rwa [hlen, Nat.add_sub_cancel_left], Stage.next_trace_length_le⟩

end Sys2Proof.Machine

/-! Aliasing: of an address only the six bits that reach the chip count (20_memory.md R47). -/

namespace Sys2Proof.Machine

/-- Two addresses reach the same register of the chip exactly when they are equal modulo 64. -/
theorem chipAddr_eq_iff {a a' : Byte} : chipAddr a = chipAddr a' ↔ a.toNat % 64 = a'.toNat % 64 := by
  simp [chipAddr, BitVec.toNat_eq]

/-- The address byte of a write holds the six bits that reach the chip, above a zero bit (30_encoding.md R65). -/
theorem addressByte_write (a : Byte) : addressByte .write a = (chipAddr a).setWidth 8 <<< 1 := by
  simp only [addressByte, chipAddr]
  ext i hi
  interval_cases i <;> simp

/-- The address byte of a read is that of a write with the direction bit set (30_encoding.md R65). -/
theorem addressByte_read (a : Byte) : addressByte .read a = 0x80 ||| addressByte .write a := rfl

section Alias
variable {a a' : Byte} (h : chipAddr a = chipAddr a')
include h

theorem addressByte_alias (dir : Direction) : addressByte dir a = addressByte dir a' := by
  cases dir with
  | read => simp only [addressByte_read, addressByte_write, h]
  | write => simp only [addressByte_write, h]

theorem xferRead_alias : xferRead a = xferRead a' := by
  funext s
  simp only [xferRead, h, addressByte_alias h]

theorem xferWrite_alias (v : Byte) : xferWrite a v = xferWrite a' v := by
  funext s
  simp only [xferWrite, h, addressByte_alias h]

theorem readReg_run_alias : (readReg a).run = (readReg a').run := by
  funext s
  simp only [readReg, Prog.run, xferRead_alias h]

theorem writeReg_run_alias (v : Byte) : (writeReg a v).run = (writeReg a' v).run := by
  funext s
  simp only [writeReg, Prog.run, xferWrite_alias h]

end Alias

section RunCongr
variable {α β : Type} {p q : Prog α}

/-- Programs whose parts run alike run alike. -/
theorem Prog.run_bind_congr {f g : α → Prog β} (h : p.run = q.run) (hfg : ∀ x, (f x).run = (g x).run) :
    (p.bind f).run = (q.bind g).run := by
  funext s
  simp only [Prog.run_bind, h, hfg]

theorem Prog.run_map_congr (f : α → β) (h : p.run = q.run) : (p.map f).run = (q.map f).run :=
  Prog.run_bind_congr h fun _ => rfl

end RunCongr

/-- Two operations whose programs run alike under the state's configuration have one outcome. -/
theorem exec_congr {i j : Instr} {s : State} (h : (progOf s.config i).run = (progOf s.config j).run) : exec i s = exec j s := by
  rw [exec_eq_perform, exec_eq_perform]
  cases hf : s.fault with
  | some f => rw [perform_faulted hf, perform_faulted hf]
  | none =>
    cases hwf : s.config.wf with
    | false => rw [perform_illFormed hf hwf, perform_illFormed hf hwf]
    | true => rw [perform_ready ⟨hf, hwf⟩, perform_ready ⟨hf, hwf⟩, h]

/-- Settles O9: a transaction reads of its address only the six bits of `chipAddr`, so reads and writes at aliased addresses run alike, and
so do the programs made of them; the roles are what the configuration check bounds. -/
theorem aliasedAddressesBehaveAlike : Obligations.AliasedAddressesBehaveAlike := by
  refine ⟨fun a a' v s hmod => ?_, fun c r hwf => ((Config.wf_iff c).1 hwf).1 r⟩
  have halias : chipAddr a = chipAddr a' := chipAddr_eq_iff.2 hmod
  have hread : (readReg a).run = (readReg a').run := readReg_run_alias halias
  have hwrite (w : Byte) : (writeReg a w).run = (writeReg a' w).run := writeReg_run_alias halias w
  exact ⟨exec_congr (Prog.run_map_congr _ (hwrite v)),
    exec_congr (Prog.run_map_congr _ hread),
    exec_congr (Prog.run_map_congr _ (Prog.run_bind_congr hread fun b => hwrite (withBits b v))),
    exec_congr (Prog.run_map_congr _ (Prog.run_bind_congr hread fun b => hwrite (withoutBits b v)))⟩

end Sys2Proof.Machine

/-! The transaction word (30_encoding.md R65 to R69): what the decoder reads, and that reading and writing a word undo each other. -/

namespace Sys2Proof

/-! The bits of a word. -/

/-- A word has its second byte in bits 7..0 and the address byte above it. -/
@[simp] theorem getElem_txnWord (b1 b2 : Byte) {i : Nat} (hi : i < 16) :
    (txnWord b1 b2)[i] = if i < 8 then b2.getLsbD i else b1.getLsbD (i - 8) := by
  rw [← BitVec.getLsbD_eq_getElem hi]
  exact BitVec.getLsbD_append

theorem wordAddr_toNat_le (w : TxnWord) : (wordAddr w).toNat ≤ 63 := by
  simp [wordAddr]
  omega

@[simp] theorem getElem_wordData (w : TxnWord) {i : Nat} (hi : i < 8) : (wordData w)[i] = w[i] := by
  simp [wordData, show i < 16 by omega]

theorem wordData_txnWord (b1 b2 : Byte) : wordData (txnWord b1 b2) = b2 := by
  ext i hi
  simp [hi]

/-- The data field is the dummy byte of a read exactly if bits 7..0 are clear. -/
theorem wordData_eq_dummyByte_iff {w : TxnWord} : wordData w = dummyByte ↔ ∀ i (hi : i < 8), w[i] = false := by
  simp [BitVec.eq_of_getElem_eq_iff, dummyByte]

/-- The address field of a word of an address 0..63 is that address. -/
theorem wordAddr_txnWord (dir : Direction) {a : Byte} (ha : a.toNat ≤ 63) (b : Byte) : wordAddr (txnWord (addressByte dir a) b) = a := by
  have h6 : a[6] = false := (BitVec.getElem_eq_testBit_toNat ..).trans (Nat.testBit_lt_two_pow (by omega))
  have h7 : a[7] = false := (BitVec.getElem_eq_testBit_toNat ..).trans (Nat.testBit_lt_two_pow (by omega))
  ext i hi
  cases dir <;> interval_cases i <;> simp [addressByte, wordAddr, h6, h7]

theorem masked_write_iff {w : TxnWord} : w &&& 0x8100 = 0 ↔ w[8] = false ∧ w[15] = false := by
  constructor
  · intro h
    exact ⟨by simpa using congrArg (·[8]) h, by simpa using congrArg (·[15]) h⟩
  · rintro ⟨h8, h15⟩
    ext i hi
    interval_cases i <;> simp [h8, h15]

theorem masked_read_iff {w : TxnWord} : w &&& 0x81FF = 0x8000 ↔ w[8] = false ∧ w[15] = true ∧ wordData w = dummyByte := by
  rw [wordData_eq_dummyByte_iff]
  constructor
  · intro h
    refine ⟨by simpa using congrArg (·[8]) h, by simpa using congrArg (·[15]) h, fun i hi => ?_⟩
    have := congrArg (·.getLsbD i) h
    interval_cases i <;> simpa using this
  · rintro ⟨h8, h15, hlow⟩
    ext i hi
    interval_cases i <;> simp [h8, h15, hlow]

/-- A word of the write mask is the write of its fields (30_encoding.md R66). -/
theorem writeWord_of_masked {w : TxnWord} (h : w &&& 0x8100 = 0) : writeWord (wordAddr w) (wordData w) = w := by
  obtain ⟨h8, h15⟩ := masked_write_iff.1 h
  ext i hi
  interval_cases i <;> simp [writeWord, addressByte, wordAddr, h8, h15]

/-- A word of the read mask is the read of its address (30_encoding.md R67). -/
theorem readWord_of_masked {w : TxnWord} (h : w &&& 0x81FF = 0x8000) : readWord (wordAddr w) = w := by
  obtain ⟨h8, h15, hdata⟩ := masked_read_iff.1 h
  have hlow := wordData_eq_dummyByte_iff.1 hdata
  ext i hi
  interval_cases i <;> simp [readWord, addressByte, wordAddr, dummyByte, h8, h15, hlow]

/-! The decoder. -/

/-- Everything the decoder reads: a write, or a read. -/
theorem decodeWord_eq_ok_iff {w : TxnWord} {i : Instr} :
    decodeWord w = .ok i ↔
      (w &&& 0x8100 = 0 ∧ i = .wreg (.num (wordAddr w)) (wordData w)) ∨ (w &&& 0x81FF = 0x8000 ∧ i = .rreg (.num (wordAddr w))) := by
  rw [masked_write_iff, masked_read_iff, decodeWord, BitVec.getLsbD_eq_getElem (show 8 < 16 by decide),
    BitVec.getLsbD_eq_getElem (show 15 < 16 by decide)]
  split
  · next h8 => simp [h8]
  · next h8 =>
    split
    · next h15 =>
      split
      · next hdata => simp [h8, h15, hdata, eq_comm (a := i)]
      · next hdata => simp [h15, hdata]
    · next h15 => simp [h8, h15, eq_comm (a := i)]

/-- A word of neither mask is refused (30_encoding.md R69). -/
theorem decodeWord_error {w : TxnWord} (hw : w &&& 0x8100 ≠ 0) (hr : w &&& 0x81FF ≠ 0x8000) : ∃ e, decodeWord w = .error e := by
  cases h : decodeWord w with
  | error e => exact ⟨e, rfl⟩
  | ok i =>
    rcases decodeWord_eq_ok_iff.1 h with ⟨hw', -⟩ | ⟨hr', -⟩
    · exact absurd hw' hw
    · exact absurd hr' hr

theorem masked_writeWord (a v : Byte) : writeWord a v &&& 0x8100 = 0 :=
  masked_write_iff.2 ⟨by simp [writeWord, addressByte], by simp [writeWord, addressByte]⟩

theorem masked_readWord (a : Byte) : readWord a &&& 0x81FF = 0x8000 :=
  masked_read_iff.2 ⟨by simp [readWord, addressByte], by simp [readWord, addressByte], wordData_txnWord _ _⟩

theorem decodeWord_writeWord {a : Byte} (ha : a.toNat ≤ 63) (v : Byte) : decodeWord (writeWord a v) = .ok (.wreg (.num a) v) := by
  refine decodeWord_eq_ok_iff.2 (.inl ⟨masked_writeWord a v, ?_⟩)
  rw [writeWord, wordAddr_txnWord .write ha, wordData_txnWord]

theorem decodeWord_readWord {a : Byte} (ha : a.toNat ≤ 63) : decodeWord (readWord a) = .ok (.rreg (.num a)) := by
  refine decodeWord_eq_ok_iff.2 (.inr ⟨masked_readWord a, ?_⟩)
  rw [readWord, wordAddr_txnWord .read ha]

/-- A transaction is of two bytes (20_memory.md R51). -/
theorem decodeBytes_of_length_ne {bytes : List Byte} (h : bytes.length ≠ 2) : decodeBytes bytes = .error (.notTwoBytes bytes.length) := by
  unfold decodeBytes
  split
  · exact absurd rfl h
  · rfl

/-- Settles O11: what the decoder reads are the fields of the word, and a word is made of its fields. -/
theorem wordDecodeAndEncodeAgree : Obligations.WordDecodeAndEncodeAgree := by
  refine ⟨fun c i w h => ?_, fun c a v ha => ⟨⟨_, rfl, decodeWord_writeWord ha v⟩, ⟨_, rfl, decodeWord_readWord ha⟩⟩⟩
  rcases decodeWord_eq_ok_iff.1 h with ⟨hw, rfl⟩ | ⟨hr, rfl⟩
  · rw [encodeWords, RegRef.addr, writeWord_of_masked hw]
  · rw [encodeWords, RegRef.addr, readWord_of_masked hr]

end Sys2Proof

/-! The textual form of an operation (30_encoding.md R75): the characters of a line are read back as its tokens, and the tokens as the
operands they were written for. -/

namespace Sys2Proof

/-! Words: what the lexer takes as one token. -/

/-- The character separates nothing and starts no comment. -/
def isWordChar (c : Char) : Bool :=
  !(c == ';' || isBlank c || c == ',' || c == '[' || c == ']')

/-- Some characters, none of which ends a word. -/
def isWord (cs : List Char) : Bool :=
  !cs.isEmpty && cs.all isWordChar

/-- A token the lexer can give. -/
def Tok.lexable : Tok → Bool
  | .word cs => isWord cs
  | .comma => true
  | .lbr => true
  | .rbr => true

@[simp] theorem Tok.lexable_word (cs : List Char) : (Tok.word cs).lexable = isWord cs := rfl
@[simp] theorem Tok.lexable_comma : Tok.comma.lexable = true := rfl
@[simp] theorem Tok.lexable_lbr : Tok.lbr.lexable = true := rfl
@[simp] theorem Tok.lexable_rbr : Tok.rbr.lexable = true := rfl

theorem isWord_iff {cs : List Char} : isWord cs = true ↔ cs ≠ [] ∧ ∀ c ∈ cs, isWordChar c = true := by
  simp [isWord]

theorem isWord_cons {c : Char} {cs : List Char} (hc : isWordChar c = true) (hcs : isWord cs = true) : isWord (c :: cs) = true :=
  isWord_iff.2 ⟨List.cons_ne_nil c cs, List.forall_mem_cons.2 ⟨hc, (isWord_iff.1 hcs).2⟩⟩

/-! Lexing what was rendered. -/

theorem lexFrom_wordChar {c : Char} (h : isWordChar c = true) (cs cur : List Char) : lexFrom (c :: cs) cur = lexFrom cs (cur ++ [c]) := by
  simp [isWordChar] at h
  simp [lexFrom, h]

theorem lexFrom_wordChars {w : List Char} (h : ∀ c ∈ w, isWordChar c = true) (cs cur : List Char) :
    lexFrom (w ++ cs) cur = lexFrom cs (cur ++ w) := by
  induction w generalizing cur with
  | nil => simp
  | cons c w ih =>
    obtain ⟨hc, hw⟩ := List.forall_mem_cons.1 h
    rw [List.cons_append, lexFrom_wordChar hc, ih hw, List.append_assoc, List.singleton_append]

theorem flushWord_of_ne_nil {cur : List Char} (h : cur ≠ []) (toks : List Tok) : flushWord cur toks = .word cur :: toks := by
  cases cur with
  | nil => exact absurd rfl h
  | cons c cs => rfl

/-- Whatever is rendered after a word ends it: the line's end, a comma, a bracket, or the blank before the next token. -/
theorem lexFrom_gap_after_word (w cur : List Char) (ts : List Tok) :
    lexFrom (tokGap (.word w) ts ++ renderToks ts) cur = flushWord cur (lexFrom (renderToks ts) []) := by
  cases ts with
  | nil => rfl
  | cons t ts => cases t <;> simp [tokGap, renderToks, Tok.text, lexFrom, isBlank, flushWord]

theorem tokGap_eq (t : Tok) (ts : List Tok) : tokGap t ts = [] ∨ tokGap t ts = [' '] := by
  unfold tokGap
  split <;> simp

/-- Outside a word the blank after a token is skipped. -/
theorem lexFrom_gap (t : Tok) (ts : List Tok) (cs : List Char) : lexFrom (tokGap t ts ++ cs) [] = lexFrom cs [] := by
  rcases tokGap_eq t ts with h | h
  · rw [h, List.nil_append]
  · simp [h, lexFrom, isBlank, flushWord]

/-- Lexing undoes rendering. -/
theorem lexLine_renderToks {ts : List Tok} (h : ∀ t ∈ ts, t.lexable = true) : lexLine (renderToks ts) = ts := by
  unfold lexLine
  induction ts with
  | nil => rfl
  | cons t ts ih =>
    obtain ⟨ht, hts⟩ := List.forall_mem_cons.1 h
    have hrest : lexFrom (tokGap t ts ++ renderToks ts) [] = ts := (lexFrom_gap t ts _).trans (ih hts)
    rw [renderToks, List.append_assoc]
    cases t with
    | word w =>
      obtain ⟨hne, hw⟩ := isWord_iff.1 ht
      rw [Tok.text, lexFrom_wordChars hw, List.nil_append, lexFrom_gap_after_word, flushWord_of_ne_nil hne, ih hts]
    | comma => simpa [Tok.text, lexFrom, isBlank, flushWord] using hrest
    | lbr => simpa [Tok.text, lexFrom, isBlank, flushWord] using hrest
    | rbr => simpa [Tok.text, lexFrom, isBlank, flushWord] using hrest

/-! Digits. -/

theorem decVal_digit : ∀ d < 10, decVal (Char.ofNat (48 + d)) = some d := by decide

theorem hexVal_hexDigitUpper : ∀ d < 16, hexVal (hexDigitUpper d) = some d := by decide

theorem isWordChar_hexDigitUpper : ∀ d < 16, isWordChar (hexDigitUpper d) = true := by decide

/-- A decimal digit is no character without a decimal value. -/
theorem ne_of_decVal {c e : Char} {d : Nat} (hc : decVal c = some d) (he : decVal e = none) : c ≠ e := by
  rintro rfl
  simp [hc] at he

theorem isWordChar_of_decVal {c : Char} {d : Nat} (hc : decVal c = some d) : isWordChar c = true := by
  simp [isWordChar, isBlank, ne_of_decVal hc (e := ';') rfl, ne_of_decVal hc (e := ' ') rfl, ne_of_decVal hc (e := '\t') rfl,
    ne_of_decVal hc (e := '\r') rfl, ne_of_decVal hc (e := '\n') rfl, ne_of_decVal hc (e := ',') rfl, ne_of_decVal hc (e := '[') rfl,
    ne_of_decVal hc (e := ']') rfl]

theorem digitsFrom_append (val : Char → Option Nat) (base : Nat) (cs ds : List Char) (acc : Nat) :
    digitsFrom val base (cs ++ ds) acc = (digitsFrom val base cs acc).bind (digitsFrom val base ds) := by
  induction cs generalizing acc with
  | nil => rfl
  | cons c cs ih =>
    rw [List.cons_append, digitsFrom, digitsFrom]
    cases val c with
    | none => rfl
    | some d => exact ih _

/-- What could be read as a decimal number consists of digits. -/
theorem exists_decVal_of_digitsFrom {cs : List Char} {acc n : Nat} (h : digitsFrom decVal 10 cs acc = some n) :
    ∀ c ∈ cs, ∃ d, decVal c = some d := by
  induction cs generalizing acc with
  | nil => simp
  | cons c cs ih =>
    rw [digitsFrom] at h
    cases hc : decVal c with
    | none => simp [hc] at h
    | some d =>
      simp only [hc] at h
      exact List.forall_mem_cons.2 ⟨⟨d, hc⟩, ih h⟩

/-! Numbers. -/

theorem digitsFrom_decDigits {fuel n : Nat} (h : n < fuel) : digitsFrom decVal 10 (decDigits fuel n) 0 = some n := by
  induction fuel generalizing n with
  | zero => omega
  | succ fuel ih =>
    rw [decDigits]
    split
    · next hn => simp [digitsFrom, decVal_digit n hn]
    · have hlast : decVal (Char.ofNat (48 + n % 10)) = some (n % 10) := decVal_digit _ (Nat.mod_lt _ (by omega))
      rw [digitsFrom_append, ih (by omega)]
      simp [digitsFrom, hlast]
      omega

theorem digitsFrom_natText (n : Nat) : digitsFrom decVal 10 (natText n) 0 = some n :=
  digitsFrom_decDigits (Nat.lt_succ_self n)

/-- A number in decimal has a first digit. -/
theorem natText_eq_cons (n : Nat) : ∃ c cs, natText n = c :: cs := by
  unfold natText decDigits
  split
  · exact ⟨_, _, rfl⟩
  · exact List.exists_cons_of_ne_nil (by simp)

theorem exists_decVal_of_mem_natText {n : Nat} {c : Char} (h : c ∈ natText n) : ∃ d, decVal c = some d :=
  exists_decVal_of_digitsFrom (digitsFrom_natText n) c h

/-- A number without the `x` of `0x` is read as decimal. -/
theorem parseNat_eq_digitsFrom {cs : List Char} (hne : cs ≠ []) (hx : 'x' ∉ cs) : parseNat cs = digitsFrom decVal 10 cs 0 := by
  unfold parseNat
  split
  · simp at hx
  · rfl
  · exact absurd rfl hne

@[simp] theorem parseNat_natText (n : Nat) : parseNat (natText n) = some n := by
  obtain ⟨c, cs, hcs⟩ := natText_eq_cons n
  have hx : 'x' ∉ natText n := fun hmem => by
    obtain ⟨d, hd⟩ := exists_decVal_of_mem_natText hmem
    exact ne_of_decVal hd rfl rfl
  rw [parseNat_eq_digitsFrom (by simp [hcs]) hx, digitsFrom_natText]

@[simp] theorem isWord_natText (n : Nat) : isWord (natText n) = true := by
  obtain ⟨c, cs, hcs⟩ := natText_eq_cons n
  refine isWord_iff.2 ⟨by simp [hcs], fun c hc => ?_⟩
  obtain ⟨d, hd⟩ := exists_decVal_of_mem_natText hc
  exact isWordChar_of_decVal hd

@[simp] theorem isWord_intText (t : Int) : isWord (intText t) = true := by
  cases t with
  | ofNat n => exact isWord_natText n
  | negSucc n => exact isWord_cons (by decide) (isWord_natText (n + 1))

/-! Bytes. -/

theorem hexDigits_lt (b : Byte) : b.toNat / 16 < 16 ∧ b.toNat % 16 < 16 := by
  have := b.isLt
  omega

theorem byte_eq_ofNat_digits (b : Byte) : BitVec.ofNat 8 (b.toNat / 16 * 16 + b.toNat % 16) = b := by
  rw [Nat.div_add_mod', BitVec.ofNat_toNat, BitVec.setWidth_eq]

@[simp] theorem parseHexByte_hexByteText (b : Byte) : parseHexByte (hexByteText b) = some b := by
  obtain ⟨hhigh, hlow⟩ := hexDigits_lt b
  simp [hexByteText, parseHexByte, hexVal_hexDigitUpper _ hhigh, hexVal_hexDigitUpper _ hlow, byte_eq_ofNat_digits]

@[simp] theorem parseNat_byteText (b : Byte) : parseNat (byteText b) = some b.toNat := by
  obtain ⟨hhigh, hlow⟩ := hexDigits_lt b
  simp [byteText, hexByteText, parseNat, digitsFrom, hexVal_hexDigitUpper _ hhigh, hexVal_hexDigitUpper _ hlow, Nat.div_add_mod']

@[simp] theorem isWord_hexByteText (b : Byte) : isWord (hexByteText b) = true := by
  obtain ⟨hhigh, hlow⟩ := hexDigits_lt b
  simp [isWord, hexByteText, isWordChar_hexDigitUpper _ hhigh, isWordChar_hexDigitUpper _ hlow]

@[simp] theorem isWord_byteText (b : Byte) : isWord (byteText b) = true := by
  rw [byteText]
  exact isWord_cons (by decide) (isWord_cons (by decide) (isWord_hexByteText b))

/-! Names. -/

@[simp] theorem isWord_mnemonic_name (m : Mnemonic) : isWord m.name = true := by
  cases m <;> decide

@[simp] theorem isWord_role_name (r : Role) : isWord r.name = true := by
  cases r <;> decide

@[simp] theorem Role.ofName_name (r : Role) : Role.ofName r.name = some r := by
  cases r <;> decide

theorem Role.head_name_ne_zero (r : Role) : r.name.head? ≠ some '0' := by
  cases r <;> decide

/-- A number is no role's name: it begins with a digit. -/
@[simp] theorem Role.ofName_byteText (b : Byte) : Role.ofName (byteText b) = none := by
  unfold Role.ofName
  refine List.find?_eq_none.2 fun r _ hname => r.head_name_ne_zero ?_
  rw [of_decide_eq_true hname, byteText, List.head?_cons]

@[simp] theorem isWord_reg_text (r : RegRef) : isWord r.text = true := by
  cases r with
  | role r => exact isWord_role_name r
  | num a => exact isWord_byteText a

/-! The tokens of an operation's line. -/

@[simp] theorem lexable_keyVariant_tok (v : KeyVariant) : v.tok.lexable = true := by
  cases v <;> decide

@[simp] theorem all_lexable_bytesToks (bs : List Byte) : (bytesToks bs).all Tok.lexable = true := by
  rw [bytesToks, List.cons_append, List.all_cons, List.all_append, List.all_map]
  simp

@[simp] theorem all_lexable_keyToks (v : KeyVariant) (k : Option (List Byte)) : (keyToks v k).all Tok.lexable = true := by
  cases k <;> simp [keyToks, -List.all_eq_true]

theorem all_lexable_operandToks (i : Instr) : (operandToks i).all Tok.lexable = true := by
  cases i <;> simp [operandToks, -List.all_eq_true]

theorem lexLine_encodeLine (i : Instr) : lexLine (encodeLine i) = i.toks :=
  lexLine_renderToks (List.forall_mem_cons.2 ⟨isWord_mnemonic_name i.mnemonic, List.all_eq_true.1 (all_lexable_operandToks i)⟩)

/-! What each parser reads of the tokens written for its operand. -/

section Parsers
variable (r : List Tok)

/-- A parser that read something hands it on. -/
@[simp] theorem except_ok_bind {α β : Type} (a : α) (f : α → Except LineError β) : (Except.ok a >>= f) = f a := rfl

@[simp] theorem takeWord_word (w : List Char) : takeWord (.word w :: r) = .ok (w, r) := rfl

@[simp] theorem afterComma_comma {α : Type} (p : Parse α) : afterComma p (.comma :: r) = p r := rfl

@[simp] theorem lineEnd_nil {α : Type} (a : α) : lineEnd a [] = .ok a := rfl

@[simp] theorem takeNat_natText (n : Nat) : takeNat (.word (natText n) :: r) = .ok (n, r) := by
  simp [takeNat]

@[simp] theorem takeByte_natText (b : Byte) : takeByte (.word (natText b.toNat) :: r) = .ok (b, r) := by
  have : b.toNat ≤ 255 := Nat.le_of_lt_succ b.isLt
  simp [takeByte, this]

@[simp] theorem takeByte_byteText (b : Byte) : takeByte (.word (byteText b) :: r) = .ok (b, r) := by
  have : b.toNat ≤ 255 := Nat.le_of_lt_succ b.isLt
  simp [takeByte, takeNat, this]

@[simp] theorem takeInt_intText (t : Int) : takeInt (.word (intText t) :: r) = .ok (t, r) := by
  cases t with
  | ofNat n =>
    simp only [takeInt, intText, takeWord_word, except_ok_bind]
    split
    · next w hw =>
      obtain ⟨d, hd⟩ := exists_decVal_of_mem_natText (n := n) (c := '-') (by simp [hw])
      exact absurd rfl (ne_of_decVal hd rfl)
    · simp
  | negSucc n => simp [takeInt, intText, Int.negSucc_eq]

@[simp] theorem takeReg_text {reg : RegRef} (h : reg.wf = true) : takeReg (.word reg.text :: r) = .ok (reg, r) := by
  cases reg with
  | role role => simp [takeReg, RegRef.text]
  | num a =>
    have : a.toNat ≤ 63 := by simpa [RegRef.wf] using h
    simp [takeReg, RegRef.text, this]

@[simp] theorem takeBytes_bytesToks_append (bs : List Byte) : takeBytes (bytesToks bs ++ r) = .ok (bs, r) := by
  change takeBytesTail (bs.map (fun b => .word (hexByteText b)) ++ [.rbr] ++ r) = .ok (bs, r)
  induction bs with
  | nil => rfl
  | cons b bs ih => simp_all [takeBytesTail]

@[simp] theorem takeBytes_bytesToks (bs : List Byte) : takeBytes (bytesToks bs) = .ok (bs, []) := by
  simpa using takeBytes_bytesToks_append [] bs

@[simp] theorem takeVariant_tok (v : KeyVariant) : takeVariant (v.tok :: r) = .ok (v, r) := by
  cases v <;> rfl

end Parsers

@[simp] theorem keysEnd_keyToks (kA kB : Option (List Byte)) : keysEnd (keyToks .A kA ++ keyToks .B kB) = .ok (kA, kB) := by
  cases kA <;> cases kB <;> simp [keyToks, keysEnd]

/-! The line. -/

/-- The law of the line's head, of every operation. -/
theorem lineHead : ∀ i : Instr, Laws.LineHead.Statement i
  | .wreg r v => Laws.LineHead.wreg r v
  | .rreg r => Laws.LineHead.rreg r
  | .setb r m => Laws.LineHead.setb r m
  | .clrb r m => Laws.LineHead.clrb r m
  | .calccrc bytes => Laws.LineHead.calccrc bytes
  | .tocardTrx send => Laws.LineHead.tocardTrx send
  | .tocardAuth send => Laws.LineHead.tocardAuth send
  | .bcc u => Laws.LineHead.bcc u
  | .request => Laws.LineHead.request
  | .anticoll => Laws.LineHead.anticoll
  | .select uid => Laws.LineHead.select uid
  | .auth variant blk key uid => Laws.LineHead.auth variant blk key uid
  | .stopcrypto => Laws.LineHead.stopcrypto
  | .sectoraddr sector block => Laws.LineHead.sectoraddr sector block
  | .readblk a => Laws.LineHead.readblk a
  | .writeblk a data => Laws.LineHead.writeblk a data
  | .rearm => Laws.LineHead.rearm
  | .waitcard t => Laws.LineHead.waitcard t
  | .readuid => Laws.LineHead.readuid
  | .readsect uid sector block keyA keyB => Laws.LineHead.readsect uid sector block keyA keyB
  | .writesect uid sector block data keyA keyB => Laws.LineHead.writesect uid sector block data keyA keyB

/-- Each parser in turn reads the tokens written for its operand, and the line ends after the last. -/
theorem parseOperands_operandToks {i : Instr} (h : i.writable = true) : parseOperands i.mnemonic (operandToks i) = .ok i := by
  cases i <;> simp_all [Instr.writable, Instr.mnemonic, operandToks, parseOperands]

/-- Settles O12: lexing undoes rendering, the first token gives the mnemonic, and its parsers read the operands back. -/
theorem lineDecodeAndEncodeAgree : Obligations.LineDecodeAndEncodeAgree := by
  intro i hi
  obtain ⟨-, hhead⟩ := lineHead i
  rw [parseLine, lexLine_encodeLine, hhead, parseOperands_operandToks hi]

/-- Settles O13: closed words and lines, which the decoders compute. -/
theorem specWordsAndLinesDecode : Obligations.SpecWordsAndLinesDecode :=
  ⟨rfl, rfl, rfl, rfl, rfl, rfl, rfl, rfl⟩

end Sys2Proof

/-! The words an operation emits. -/

namespace Sys2Proof.Machine

/-- What an operation that gives a next state appends to the trace: the events of a way through its program and, if the channel failed the
transaction after them, the fault event. A refused call went no way. -/
theorem exec_next_along {i : Instr} {s t : State} (h : exec i s = .next t) :
    ∃ ans pre q tail, (progOf s.config i).Along ans pre q ∧ t.trace = s.trace ++ (pre ++ tail) ∧
      (tail = [] ∨ ∃ f, q.pending = some f ∧ tail = [.fault f]) := by
  obtain ⟨-, rfl | ⟨-, ans, pre, q, hal, -, -, -, -, hend⟩⟩ := exec_next_within h
  · exact ⟨[], [], _, [], .here _, by simp, .inl rfl⟩
  rcases hend with ⟨r, -, rfl⟩ | ⟨f, hf, -, -, -, rfl⟩
  · exact ⟨ans, pre, q, [], hal, by simp, .inl rfl⟩
  · exact ⟨ans, pre, q, [.fault f], hal, by simp, .inr ⟨f, hf, rfl⟩⟩

theorem word_rd (a r : Byte) : (rd a r).word = some (readWord a) := rfl

theorem word_wr (a v : Byte) : (wr a v).word = some (writeWord a v) := rfl

/-- Every transaction on a way is a read or a write. -/
theorem Prog.Along.word_eq {α : Type} {p q : Prog α} {ans : List Byte} {evs : List Event} (h : p.Along ans evs q) {e : Event} (he : e ∈ evs)
    {w : TxnWord} (hw : e.word = some w) : (∃ a v, w = writeWord a v) ∨ ∃ a, w = readWord a := by
  induction h with
  | here p => simp at he
  | read a r k ans evs q _ ih =>
    rcases List.mem_cons.1 he with rfl | he
    · exact .inr ⟨a, by simpa [word_rd] using hw.symm⟩
    · exact ih he
  | write a v k ans evs q _ ih =>
    rcases List.mem_cons.1 he with rfl | he
    · exact .inl ⟨a, v, by simpa [word_wr] using hw.symm⟩
    · exact ih he
  | sleep ms k ans evs q _ ih =>
    rcases List.mem_cons.1 he with rfl | he
    · simp [Event.word] at hw
    · exact ih he

/-- Settles O10: the decoder by its two masks; and an operation emits the words of reads and writes alone. -/
theorem emittedWordsDecodeAndOthersAreRefused : Obligations.EmittedWordsDecodeAndOthersAreRefused := by
  refine ⟨fun w hw => ⟨_, _, decodeWord_eq_ok_iff.2 (.inl ⟨hw, rfl⟩), writeWord_of_masked hw, wordAddr_toNat_le w⟩,
    fun w hr => ⟨_, decodeWord_eq_ok_iff.2 (.inr ⟨hr, rfl⟩), readWord_of_masked hr, wordAddr_toNat_le w⟩,
    fun w => decodeWord_error, fun bytes => decodeBytes_of_length_ne, fun i s t h => ?_⟩
  obtain ⟨ans, pre, q, tail, hal, htrace, htail⟩ := exec_next_along h
  refine ⟨pre ++ tail, htrace, fun e he w hw => ?_⟩
  rcases List.mem_append.1 he with he | he
  · rcases hal.word_eq he hw with ⟨a, v, rfl⟩ | ⟨a, rfl⟩
    · exact .inl (masked_writeWord a v)
    · exact .inr (masked_readWord a)
  · rcases htail with rfl | ⟨f, -, rfl⟩
    · simp at he
    · simp [List.mem_singleton.1 he, Event.word] at hw

end Sys2Proof.Machine

/-! The first transaction of an operation (30_encoding.md R74). -/

namespace Sys2Proof.Machine

/-- The program's first event, if it makes one, is the transaction of this word. -/
def Prog.Begins {α : Type} (w : TxnWord) : Prog α → Prop
  | .ret _ => True
  | .refuse _ => True
  | .read a _ => readWord a = w
  | .write a v _ => writeWord a v = w
  | .sleep _ _ => False

section Begins
variable {α β : Type} {w : TxnWord}

theorem Prog.Begins.map {p : Prog α} (h : p.Begins w) (f : α → β) : (p.map f).Begins w := by
  cases p <;> exact h

theorem Prog.Begins.of_along {p q : Prog α} (h : p.Begins w) {ans : List Byte} {e : Event} {evs : List Event}
    (hal : p.Along ans (e :: evs) q) : e.word = some w := by
  cases hal with
  | read a r k ans evs q _ => exact congrArg some h
  | write a v k ans evs q _ => exact congrArg some h
  | sleep ms k ans evs q _ => exact h.elim

theorem calcCrc_begins (c : Config) (bytes : List Byte) : (calcCrc c bytes).Begins (readWord c.regCrcIrq) := rfl

theorem runCommand_begins (c : Config) (kind : ExecKind) (send : List Byte) :
    (runCommand c kind send).Begins (writeWord c.regIrqEnable (withBits (c.ien kind) c.ienWriteOr)) := rfl

theorem sendWithCrc_begins (c : Config) (buf : List Byte) : (sendWithCrc c buf).Begins (readWord c.regCrcIrq) := rfl

theorem authOp_begins (c : Config) (variant : KeyVariant) (blk : Byte) (key uid : List Byte) :
    (authOp c variant blk key uid).Begins (writeWord c.regIrqEnable (withBits c.ienAuth c.ienWriteOr)) := by
  unfold authOp
  split
  · exact (runCommand_begins c .authenticate _).map _
  · trivial

theorem writeBlockOp_begins (c : Config) (a : Byte) (data : List Byte) : (writeBlockOp c a data).Begins (readWord c.regCrcIrq) := by
  unfold writeBlockOp
  split
  · rfl
  · trivial

/-- The checks before a session's authentication make no event. -/
theorem withSector_begins (c : Config) (uid : List Byte) (sector block : Nat) (keyA keyB : Option (List Byte))
    (failed : SessionError → α) (access : Byte → Prog α) :
    (withSector c uid sector block keyA keyB failed access).Begins (writeWord c.regIrqEnable (withBits c.ienAuth c.ienWriteOr)) := by
  unfold withSector
  split
  · trivial
  · split
    · trivial
    · unfold authOp
      split
      · rfl
      · trivial

/-- The first attempt of WAITCARD begins with the re-arm sequence. -/
theorem waitOp_begins {c : Config} {a v : Byte} {items : List RearmItem} (h : c.rearmSeq = .write a v :: items) (t : Int) :
    (waitOp c t).Begins (writeWord a v) := by
  obtain ⟨n, hn⟩ := Nat.exists_eq_add_of_le' (waitAttempts_enough t).1
  rw [waitOp, hn, waitLoop, rearmOp, h]
  rfl

end Begins

/-- Under the default parameters the first transaction of an operation is that of its row. -/
theorem progOf_begins {i : Instr} {mask m : TxnWord} (h : tableRow i = some (mask, m)) :
    ∃ w, (progOf defaultConfig i).Begins w ∧ w &&& mask = m := by
  have hcrc : readWord defaultConfig.regCrcIrq &&& 0xFFFF = 0x8A00 := by decide
  have hauth : writeWord defaultConfig.regIrqEnable (withBits defaultConfig.ienAuth defaultConfig.ienWriteOr) &&& 0xFFFF = 0x0492 := by
    decide
  cases i <;> simp only [tableRow, Option.some.injEq, Prod.mk.injEq, reduceCtorEq] at h <;> obtain ⟨rfl, rfl⟩ := h
  case wreg r v => exact ⟨_, rfl, masked_writeWord _ v⟩
  case rreg r => exact ⟨_, rfl, masked_readWord _⟩
  case setb r v => exact ⟨_, rfl, masked_readWord _⟩
  case clrb r v => exact ⟨_, rfl, masked_readWord _⟩
  case calccrc bytes => exact ⟨_, (calcCrc_begins _ _).map _, hcrc⟩
  case tocardTrx send => exact ⟨_, (runCommand_begins _ .transceive _).map _, by decide⟩
  case tocardAuth send => exact ⟨_, (runCommand_begins _ .authenticate _).map _, hauth⟩
  case request => exact ⟨_, rfl, by decide⟩
  case anticoll => exact ⟨_, rfl, by decide⟩
  case select uid => exact ⟨_, ((sendWithCrc_begins _ _).map selectDecode).map _, hcrc⟩
  case auth variant blk key uid => exact ⟨_, (authOp_begins _ _ _ _ _).map _, hauth⟩
  case stopcrypto => exact ⟨_, rfl, by decide⟩
  case readblk a => exact ⟨_, ((sendWithCrc_begins _ _).map readDecode).map _, hcrc⟩
  case writeblk a data => exact ⟨_, (writeBlockOp_begins _ _ _).map _, hcrc⟩
  case rearm => exact ⟨_, rfl, by decide⟩
  case waitcard t => exact ⟨_, (waitOp_begins rfl _).map _, by decide⟩
  case readuid => exact ⟨_, rfl, by decide⟩
  case readsect uid sector block keyA keyB => exact ⟨_, (withSector_begins _ _ _ _ _ _ _ _).map _, hauth⟩
  case writesect uid sector block data keyA keyB =>
    refine ⟨_, Prog.Begins.map ?_ _, hauth⟩
    unfold writeSectorOp
    split
    · exact withSector_begins _ _ _ _ _ _ _ _
    · trivial

/-- An operation without a row makes no event: its program returns or refuses at once. -/
theorem progOf_of_no_row (c : Config) {i : Instr} (h : tableRow i = none) :
    (∃ r, progOf c i = .ret r) ∨ ∃ why, progOf c i = .refuse why := by
  cases i <;> simp only [tableRow, reduceCtorEq] at h
  case bcc u =>
    rw [progOf, bccOp.eq_def]
    split
    · exact .inl ⟨_, rfl⟩
    · exact .inr ⟨_, rfl⟩
  case sectoraddr sector block => exact .inl ⟨_, rfl⟩

/-- Settles O14: the first event is the program's first or the fault event, which is no transaction. -/
theorem firstTransactionMatchesTheTableRow : Obligations.FirstTransactionMatchesTheTableRow := by
  refine ⟨fun i s t mask m w e evs hc h hrow htrace hw => ?_, fun i s t h hrow => ?_⟩
  · obtain ⟨w', hbegins, hmatch⟩ := progOf_begins hrow
    obtain ⟨ans, pre, q, tail, hal, htrace', htail⟩ := exec_next_along h
    have hevs : e :: evs = pre ++ tail := List.append_cancel_left (htrace.symm.trans htrace')
    cases pre with
    | nil =>
      rcases htail with rfl | ⟨f, -, rfl⟩
      · simp at hevs
      · obtain ⟨rfl, -⟩ := List.cons.inj hevs
        simp [Event.word] at hw
    | cons e' pre =>
      obtain ⟨rfl, -⟩ := List.cons.inj hevs
      obtain rfl : w' = w := by simpa [(hc ▸ hbegins).of_along hal] using hw
      exact hmatch
  · obtain ⟨ans, pre, q, tail, hal, htrace, htail⟩ := exec_next_along h
    rcases progOf_of_no_row s.config hrow with ⟨r, hp⟩ | ⟨why, hp⟩
    all_goals
      rw [hp] at hal
      cases hal
      rcases htail with rfl | ⟨f, hf, -⟩
      · simpa using htrace
      · simp [Prog.pending] at hf

end Sys2Proof.Machine

/-! What an operation writes (30_encoding.md R70): every write of its program is one its own rule allows. -/

namespace Sys2Proof.Machine


/-- Every write on every way through the program is allowed by `P`, of a register address and a value. -/
def Prog.WritesOnly {α : Type} (P : Byte → Byte → Prop) : Prog α → Prop
  | .ret _ => True
  | .refuse _ => True
  | .read _ k => ∀ b, (k b).WritesOnly P
  | .write a v k => P a v ∧ k.WritesOnly P
  | .sleep _ k => k.WritesOnly P

section WritesOnly
variable {α β : Type} {P Q : Byte → Byte → Prop}

theorem Prog.WritesOnly.mono {p : Prog α} (h : p.WritesOnly P) (hPQ : ∀ a v, P a v → Q a v) : p.WritesOnly Q := by
  induction p with
  | ret a => trivial
  | refuse why => trivial
  | read a k ih => exact fun b => ih b (h b)
  | write a v k ih => exact ⟨hPQ a v h.1, ih h.2⟩
  | sleep ms k ih => exact ih h

theorem Prog.WritesOnly.bind {p : Prog α} {f : α → Prog β} (h : p.WritesOnly P) (hf : ∀ a, (f a).WritesOnly P) :
    (p.bind f).WritesOnly P := by
  induction p with
  | ret a => exact hf a
  | refuse why => trivial
  | read a k ih => exact fun b => ih b (h b)
  | write a v k ih => exact ⟨h.1, ih h.2⟩
  | sleep ms k ih => exact ih h

theorem Prog.WritesOnly.andThen {p : Prog α} {q : Prog β} (h : p.WritesOnly P) (hq : q.WritesOnly P) : (p.andThen q).WritesOnly P :=
  h.bind fun _ => hq

theorem Prog.WritesOnly.map {p : Prog α} (h : p.WritesOnly P) (f : α → β) : (p.map f).WritesOnly P :=
  h.bind fun _ => trivial

/-- A write event on a way is a write of the program. -/
theorem Prog.WritesOnly.of_along {p q : Prog α} (h : p.WritesOnly P) {ans : List Byte} {evs : List Event} (hal : p.Along ans evs q)
    {a6 : RegAddr} {b1 v : Byte} {r2 : Option Byte} (he : .xfer .write a6 b1 v r2 ∈ evs) : ∃ a : Byte, a6 = a.setWidth 6 ∧ P a v := by
  induction hal with
  | here p => simp at he
  | read a r k ans evs q _ ih => exact ih (h r) (by simpa [rd] using he)
  | write a v' k ans evs q _ ih =>
    rcases List.mem_cons.1 he with heq | he
    · obtain ⟨-, rfl, -, rfl, -⟩ := Event.xfer.inj heq
      exact ⟨a, rfl, h.1⟩
    · exact ih h.2 he
  | sleep ms k ans evs q _ ih => exact ih h (by simpa using he)

/-! The shared operations. -/

theorem readReg_writesOnly (a : Byte) : (readReg a).WritesOnly P := fun _ => trivial

theorem writeReg_writesOnly {a v : Byte} (h : P a v) : (writeReg a v).WritesOnly P := ⟨h, trivial⟩

/-- SetBits writes a value with the bits set (40_transport.md R79). -/
theorem setBits_writesOnly {a m : Byte} (h : ∀ v, v ||| m = v → P a v) : (setBits a m).WritesOnly P :=
  fun b => ⟨h _ (by rw [withBits, BitVec.or_assoc, BitVec.or_self]), trivial⟩

/-- ClearBits writes a value with the bits clear (40_transport.md R80). -/
theorem clearBits_writesOnly {a m : Byte} (h : ∀ v, v &&& m = 0 → P a v) : (clearBits a m).WritesOnly P :=
  fun b => ⟨h _ (by simp [withoutBits, BitVec.and_assoc]), trivial⟩

theorem pushAll_writesOnly {c : Config} {bytes : List Byte} (h : ∀ v ∈ bytes, P c.regFifoData v) : (pushAll c bytes).WritesOnly P := by
  induction bytes with
  | nil => trivial
  | cons b bs ih =>
    obtain ⟨hb, hbs⟩ := List.forall_mem_cons.1 h
    exact (writeReg_writesOnly hb).andThen (ih hbs)

theorem drain_writesOnly (c : Config) (k : Nat) : (drain c k).WritesOnly P := by
  induction k with
  | zero => trivial
  | succ k ih => exact (readReg_writesOnly _).bind fun b => ih.map _

theorem pollReg_writesOnly (a stop : Byte) (k : Nat) (n : Byte) : (pollReg a stop k n).WritesOnly P := by
  induction k generalizing n with
  | zero => trivial
  | succ k ih =>
    refine (readReg_writesOnly a).bind fun m => ?_
    split
    · trivial
    · exact ih m

theorem calcCrc_writesOnly (c : Config) (bytes : List Byte) : (calcCrc c bytes).WritesOnly (CrcWrites c bytes) :=
  (clearBits_writesOnly fun _ hv => .inl ⟨rfl, hv⟩).andThen <|
  (setBits_writesOnly fun _ hv => .inr (.inl ⟨rfl, hv⟩)).andThen <|
  (pushAll_writesOnly fun _ hv => .inr (.inr (.inl ⟨rfl, hv⟩))).andThen <|
  (writeReg_writesOnly (.inr (.inr (.inr ⟨rfl, rfl⟩)))).andThen <|
  (pollReg_writesOnly _ _ _ _).bind fun _ => (readReg_writesOnly _).bind fun _ => (readReg_writesOnly _).bind fun _ => trivial

theorem decodeOutcome_writesOnly (c : Config) (kind : ExecKind) (hit : Bool) (n : Byte) : (decodeOutcome c kind hit n).WritesOnly P := by
  unfold decodeOutcome
  split
  · refine (readReg_writesOnly _).bind fun e => ?_
    split
    · trivial
    split
    · trivial
    cases kind with
    | authenticate => trivial
    | transceive => exact (readReg_writesOnly _).bind fun _ => (readReg_writesOnly _).bind fun _ => (drain_writesOnly _ _).bind fun _ => trivial
  · trivial

/-- ToCard writes what its steps 1 to 4 and 6 say, and what else its kind's start writes. -/
theorem runCommand_writesOnly {c : Config} {kind : ExecKind} {send : List Byte}
    (hcommand : ∀ a v, CommandWrites c (c.ien kind) (c.execCode kind) send a v → P a v)
    (hstart : kind = .transceive → ∀ v, v ||| c.startSend = v → P c.regBitFraming v) : (runCommand c kind send).WritesOnly P := by
  have hload : (armAndLoad c kind send).WritesOnly P :=
    (writeReg_writesOnly (hcommand _ _ (.inl ⟨rfl, rfl⟩))).andThen <|
    (clearBits_writesOnly fun _ hv => hcommand _ _ (.inr (.inl ⟨rfl, hv⟩))).andThen <|
    (setBits_writesOnly fun _ hv => hcommand _ _ (.inr (.inr (.inl ⟨rfl, hv⟩)))).andThen <|
    (writeReg_writesOnly (hcommand _ _ (.inr (.inr (.inr (.inl ⟨rfl, .inl rfl⟩)))))).andThen <|
    pushAll_writesOnly fun _ hv => hcommand _ _ (.inr (.inr (.inr (.inr (.inl ⟨rfl, hv⟩)))))
  have hgo : (startCommand c kind).WritesOnly P := by
    refine (writeReg_writesOnly (hcommand _ _ (.inr (.inr (.inr (.inl ⟨rfl, .inr rfl⟩)))))).andThen ?_
    cases kind with
    | transceive => exact setBits_writesOnly (hstart rfl)
    | authenticate => trivial
  exact hload.andThen <| hgo.andThen <| (pollReg_writesOnly _ _ _ _).bind fun _ =>
    (clearBits_writesOnly fun _ hv => hcommand _ _ (.inr (.inr (.inr (.inr (.inr ⟨rfl, hv⟩)))))).andThen (decodeOutcome_writesOnly _ _ _ _)

theorem toCard_transceive_writesOnly (c : Config) (send : List Byte) : (toCard c .transceive send).WritesOnly (TransceiveWrites c send) :=
  runCommand_writesOnly (kind := .transceive) (fun _ _ => .inl) fun _ _ hv => .inr ⟨rfl, hv⟩

theorem toCard_authenticate_writesOnly (c : Config) (send : List Byte) :
    (toCard c .authenticate send).WritesOnly (CommandWrites c c.ienAuth c.cmdAuthenticate send) :=
  runCommand_writesOnly (kind := .authenticate) (fun _ _ => id) fun h => by cases h

theorem sendWithCrc_writesOnly (c : Config) (buf : List Byte) : (sendWithCrc c buf).WritesOnly (FrameWrites c buf) :=
  ((calcCrc_writesOnly c buf).mono fun _ _ => .inl).bind fun crc =>
    (toCard_transceive_writesOnly c _).mono fun _ _ h => .inr ⟨crc.lo, crc.hi, h⟩

/-! The operations. -/

theorem requestOp_writesOnly (c : Config) : (requestOp c).WritesOnly (RequestWrites c) :=
  (writeReg_writesOnly (.inl ⟨rfl, rfl⟩)).andThen (((toCard_transceive_writesOnly c _).mono fun _ _ => .inr).map _)

theorem anticollOp_writesOnly (c : Config) : (anticollOp c).WritesOnly (AnticollWrites c) :=
  (writeReg_writesOnly (.inl ⟨rfl, rfl⟩)).andThen (((toCard_transceive_writesOnly c _).mono fun _ _ => .inr).map _)

theorem authOp_writesOnly (c : Config) (variant : KeyVariant) (blk : Byte) (key uid : List Byte) :
    (authOp c variant blk key uid).WritesOnly (AuthWrites c variant blk key uid) := by
  have hbuf : (modeByte c variant :: blk :: key) ++ uid.take 4 = authBuf c variant blk key uid := by cases variant <;> rfl
  unfold authOp
  split
  · refine ((toCard_authenticate_writesOnly c _).mono fun a v h => ?_).map _
    rwa [AuthWrites, hbuf]
  · trivial

theorem readBlockOp_writesOnly (c : Config) (blk : Byte) : (readBlockOp c blk).WritesOnly (FrameWrites c [0x30, blk]) :=
  (sendWithCrc_writesOnly c [piccRead, blk]).map _

theorem writeBlockOp_writesOnly (c : Config) (blk : Byte) (data : List Byte) :
    (writeBlockOp c blk data).WritesOnly fun a v => FrameWrites c [0xA0, blk] a v ∨ FrameWrites c data a v := by
  unfold writeBlockOp
  split
  · refine ((sendWithCrc_writesOnly c [piccWrite, blk]).mono fun _ _ => .inl).bind fun r1 => ?_
    split
    · refine ((sendWithCrc_writesOnly c data).mono fun _ _ => .inr).bind fun r2 => ?_
      split <;> trivial
    · trivial
  · trivial

theorem rearmAll_writesOnly (items : List RearmItem) : (rearmAll items).WritesOnly (RearmWrites items) := by
  induction items with
  | nil => trivial
  | cons item items ih =>
    refine Prog.WritesOnly.andThen ?_ (ih.mono fun a v h => ?_)
    · cases item with
      | write a v => exact writeReg_writesOnly (.inl (List.mem_cons_self ..))
      | set a m => exact setBits_writesOnly fun v hv => .inr (.inl ⟨m, List.mem_cons_self .., hv⟩)
      | clear a m => exact clearBits_writesOnly fun v hv => .inr (.inr ⟨m, List.mem_cons_self .., hv⟩)
    · rcases h with h | ⟨m, h, hv⟩ | ⟨m, h, hv⟩
      · exact .inl (List.mem_cons_of_mem _ h)
      · exact .inr (.inl ⟨m, List.mem_cons_of_mem _ h, hv⟩)
      · exact .inr (.inr ⟨m, List.mem_cons_of_mem _ h, hv⟩)

theorem waitLoop_writesOnly (c : Config) (t : Int) (n elapsed : Nat) :
    (waitLoop c t n elapsed).WritesOnly fun a v => RearmWrites c.rearmSeq a v ∨ RequestWrites c a v := by
  induction n generalizing elapsed with
  | zero => trivial
  | succ n ih =>
    refine ((rearmAll_writesOnly _).mono fun _ _ => .inl).andThen <| ((requestOp_writesOnly c).mono fun _ _ => .inr).bind fun r => ?_
    cases r with
    | detected => trivial
    | noCard =>
      show Prog.WritesOnly _ (if _ then _ else _)
      split
      · trivial
      · exact ih _

theorem keyChosen_of_chooseKey {keyA keyB : Option (List Byte)} {variant : KeyVariant} {key : List Byte}
    (h : chooseKey keyA keyB = some (variant, key)) : KeyChosen keyA keyB variant key := by
  cases keyA with
  | some k => cases h; exact .a _ _
  | none =>
    cases keyB with
    | some k => cases h; exact .b _
    | none => cases h

/-- A session's block is authenticated under the key chosen and then accessed. -/
theorem withSector_writesOnly {c : Config} {uid : List Byte} {sector block : Nat} {keyA keyB : Option (List Byte)}
    {failed : SessionError → α} {access : Byte → Prog α}
    (hauth : ∀ a v, SectorAuthWrites c uid (BitVec.ofNat 8 (sector * 4 + block % 4)) keyA keyB a v → P a v)
    (haccess : (access (BitVec.ofNat 8 (sector * 4 + block % 4))).WritesOnly P) :
    (withSector c uid sector block keyA keyB failed access).WritesOnly P := by
  unfold withSector
  split
  · trivial
  next variant key hk =>
  rw [sectorAddr_eq]
  split
  · trivial
  next blk hblk =>
  obtain rfl : sector * 4 + block % 4 = blk := by
    split at hblk <;> cases hblk; rfl
  refine ((authOp_writesOnly c variant _ key uid).mono fun a v h => hauth a v ⟨variant, key, keyChosen_of_chooseKey hk, h⟩).bind fun r => ?_
  cases r with
  | authFailed => trivial
  | authOk => exact haccess

end WritesOnly

/-- An operation writes what its own rule says. -/
theorem progOf_writesOnly (c : Config) (i : Instr) : (progOf c i).WritesOnly (Writes c i) := by
  cases i with
  | wreg r v => exact (writeReg_writesOnly ⟨rfl, rfl⟩).map _
  | rreg r => exact (readReg_writesOnly _).map _
  | setb r m => exact (setBits_writesOnly fun _ hv => ⟨rfl, hv⟩).map _
  | clrb r m => exact (clearBits_writesOnly fun _ hv => ⟨rfl, hv⟩).map _
  | calccrc bytes => exact (calcCrc_writesOnly c bytes).map _
  | tocardTrx send => exact (toCard_transceive_writesOnly c send).map _
  | tocardAuth send => exact (toCard_authenticate_writesOnly c send).map _
  | bcc u =>
    rw [progOf, bccOp.eq_def]
    split <;> trivial
  | request => exact (requestOp_writesOnly c).map _
  | anticoll => exact (anticollOp_writesOnly c).map _
  | select uid => exact ((sendWithCrc_writesOnly c (selectBuf uid)).map selectDecode).map _
  | auth variant blk key uid => exact (authOp_writesOnly c variant blk key uid).map _
  | stopcrypto => exact (clearBits_writesOnly fun _ hv => ⟨rfl, hv⟩).map _
  | sectoraddr sector block => trivial
  | readblk blk => exact (readBlockOp_writesOnly c blk).map _
  | writeblk blk data => exact (writeBlockOp_writesOnly c blk data).map _
  | rearm => exact (rearmAll_writesOnly c.rearmSeq).map _
  | waitcard t => exact (waitLoop_writesOnly c t _ 0).map _
  | readuid => exact (anticollOp_writesOnly c).map _
  | readsect uid sector block keyA keyB =>
    exact (withSector_writesOnly (fun _ _ => .inl) (((readBlockOp_writesOnly c _).mono fun _ _ => .inr).map _)).map _
  | writesect uid sector block data keyA keyB =>
    refine Prog.WritesOnly.map ?_ _
    unfold writeSectorOp
    split
    · exact withSector_writesOnly (fun _ _ => .inl) (((writeBlockOp_writesOnly c _ data).mono fun _ _ => .inr).map _)
    · trivial

/-! The registers of the rules. -/

/-- The roles whose registers CalcCRC, ToCard and the framing write (30_encoding.md R70). -/
def IsRuleRole (r : Role) : Prop :=
  r = .command ∨ r = .irqEnable ∨ r = .irqStatus ∨ r = .crcIrq ∨ r = .fifoLevel ∨ r = .fifoData ∨ r = .bitFraming

/-- The address is that of such a role. -/
def RuleRegister (c : Config) (a : Byte) : Prop :=
  ∃ r, IsRuleRole r ∧ a = c.addr r

section RuleRegister
variable {c : Config} {a v : Byte}

theorem ruleRegister_bitFraming : RuleRegister c c.regBitFraming := ⟨.bitFraming, by simp [IsRuleRole], rfl⟩

theorem CrcWrites.ruleRegister {bytes : List Byte} (h : CrcWrites c bytes a v) : RuleRegister c a := by
  rcases h with ⟨rfl, -⟩ | ⟨rfl, -⟩ | ⟨rfl, -⟩ | ⟨rfl, -⟩
  · exact ⟨.crcIrq, by simp [IsRuleRole], rfl⟩
  · exact ⟨.fifoLevel, by simp [IsRuleRole], rfl⟩
  · exact ⟨.fifoData, by simp [IsRuleRole], rfl⟩
  · exact ⟨.command, by simp [IsRuleRole], rfl⟩

theorem CommandWrites.ruleRegister {ien cmd : Byte} {send : List Byte} (h : CommandWrites c ien cmd send a v) : RuleRegister c a := by
  rcases h with ⟨rfl, -⟩ | ⟨rfl, -⟩ | ⟨rfl, -⟩ | ⟨rfl, -⟩ | ⟨rfl, -⟩ | ⟨rfl, -⟩
  · exact ⟨.irqEnable, by simp [IsRuleRole], rfl⟩
  · exact ⟨.irqStatus, by simp [IsRuleRole], rfl⟩
  · exact ⟨.fifoLevel, by simp [IsRuleRole], rfl⟩
  · exact ⟨.command, by simp [IsRuleRole], rfl⟩
  · exact ⟨.fifoData, by simp [IsRuleRole], rfl⟩
  · exact ruleRegister_bitFraming

theorem TransceiveWrites.ruleRegister {send : List Byte} (h : TransceiveWrites c send a v) : RuleRegister c a := by
  rcases h with h | ⟨rfl, -⟩
  · exact CommandWrites.ruleRegister h
  · exact ruleRegister_bitFraming

theorem FrameWrites.ruleRegister {buf : List Byte} (h : FrameWrites c buf a v) : RuleRegister c a := by
  rcases h with h | ⟨lo, hi, h⟩
  · exact CrcWrites.ruleRegister h
  · exact TransceiveWrites.ruleRegister h

theorem AnticollWrites.ruleRegister (h : AnticollWrites c a v) : RuleRegister c a := by
  rcases h with ⟨rfl, -⟩ | h
  · exact ruleRegister_bitFraming
  · exact TransceiveWrites.ruleRegister h

theorem RequestWrites.ruleRegister (h : RequestWrites c a v) : RuleRegister c a := by
  rcases h with ⟨rfl, -⟩ | h
  · exact ruleRegister_bitFraming
  · exact TransceiveWrites.ruleRegister h

theorem SectorAuthWrites.ruleRegister {uid : List Byte} {blk : Byte} {keyA keyB : Option (List Byte)}
    (h : SectorAuthWrites c uid blk keyA keyB a v) : RuleRegister c a := by
  obtain ⟨variant, key, -, h⟩ := h
  exact CommandWrites.ruleRegister h

/-- Of the operations that do not write where told, all but STOPCRYPTO write only the registers of the rules. -/
theorem Writes.ruleRegister {i : Instr} (hstop : i ≠ .stopcrypto) (htold : writesWhereTold i = false) (h : Writes c i a v) :
    RuleRegister c a := by
  cases i with
  | wreg r x => cases htold
  | rreg r => exact h.elim
  | setb r m => cases htold
  | clrb r m => cases htold
  | calccrc bytes => exact CrcWrites.ruleRegister h
  | tocardTrx send => exact TransceiveWrites.ruleRegister h
  | tocardAuth send => exact CommandWrites.ruleRegister h
  | bcc u => exact h.elim
  | request => exact RequestWrites.ruleRegister h
  | anticoll => exact AnticollWrites.ruleRegister h
  | select uid => exact FrameWrites.ruleRegister h
  | auth variant blk key uid => exact CommandWrites.ruleRegister h
  | stopcrypto => exact absurd rfl hstop
  | sectoraddr sector block => exact h.elim
  | readblk blk => exact FrameWrites.ruleRegister h
  | writeblk blk data => exact h.elim FrameWrites.ruleRegister FrameWrites.ruleRegister
  | rearm => cases htold
  | waitcard t => cases htold
  | readuid => exact AnticollWrites.ruleRegister h
  | readsect uid sector block keyA keyB => exact h.elim SectorAuthWrites.ruleRegister FrameWrites.ruleRegister
  | writesect uid sector block data keyA keyB =>
    exact h.elim SectorAuthWrites.ruleRegister (Or.elim · FrameWrites.ruleRegister FrameWrites.ruleRegister)

end RuleRegister

/-- Events that do not write a register hold no last write of it. -/
theorem lastWrite_eq_none {a : RegAddr} {evs : List Event} (h : ∀ b1 v r2, .xfer .write a b1 v r2 ∉ evs) : lastWrite a evs = none := by
  induction evs with
  | nil => rfl
  | cons e es ih =>
    have hes : lastWrite a es = none := ih fun b1 v r2 hmem => h b1 v r2 (List.mem_cons_of_mem e hmem)
    unfold lastWrite
    rw [hes]
    split
    · next heq => cases heq
    · next a' b1 v r2 _ =>
      rw [if_neg]
      rintro rfl
      exact h b1 v r2 (List.mem_cons_self ..)
    · rfl

/-- Settles O51: the writes are those of the program, each allowed by the rule, and no rule but STOPCRYPTO's names status2. -/
theorem operationsWriteOnlyTheirRegisters : Obligations.OperationsWriteOnlyTheirRegisters := by
  intro i s t h
  obtain ⟨ans, pre, q, tail, hal, htrace, htail⟩ := exec_next_along h
  have hwrites : ∀ a6 b1 v r2, .xfer .write a6 b1 v r2 ∈ pre ++ tail → ∃ a : Byte, a6 = a.setWidth 6 ∧ Writes s.config i a v := by
    intro a6 b1 v r2 he
    rcases List.mem_append.1 he with he | he
    · exact (progOf_writesOnly s.config i).of_along hal he
    · rcases htail with rfl | ⟨f, -, rfl⟩ <;> simp at he
  refine ⟨pre ++ tail, htrace, hwrites, fun hapart hstop htold => lastWrite_eq_none fun b1 v r2 he => ?_⟩
  obtain ⟨a, hstatus2, hw⟩ := hwrites _ b1 v r2 he
  obtain ⟨r, hr, rfl⟩ := Writes.ruleRegister hstop htold hw
  exact hapart r hr hstatus2.symm

end Sys2Proof.Machine

/-! The transport operations (40_transport.md R77 to R80): each is one way through its program, whatever the operands. -/

namespace Sys2Proof.Machine

/-- An operation performs every path of its program. -/
theorem performs_of_progOf_path {i : Instr} {s : State} {ans : List Byte} {evs : List Event} {r : OpResult}
    (h : (progOf s.config i).Path ans evs r) : Performs i s ans evs r :=
  performs_of_path (p := fun c => progOf c i) (exec_eq_perform i) h

/-- Settles O15: WREG's program is the one write. -/
theorem wregSendsOneWrite : Obligations.WregSendsOneWrite :=
  fun s r v => performs_of_progOf_path ((writeReg_path (r.addr s.config) v).map fun _ => OpResult.unit)

/-- Settles O16: RREG's program is the one read, and its value the byte answered. -/
theorem rregReturnsTheSecondByte : Obligations.RregReturnsTheSecondByte :=
  fun s r b => performs_of_progOf_path ((readReg_path (r.addr s.config) b).map OpResult.byte)

/-- Settles O17: SETB's program is the read and the write of the value read with the mask's bits set. -/
theorem setbReadsThenWritesWithTheBits : Obligations.SetbReadsThenWritesWithTheBits :=
  fun s r m v => performs_of_progOf_path ((setBits_path (r.addr s.config) m v).map fun _ => OpResult.unit)

/-- Settles O18: CLRB's program is the read and the write of the value read with the mask's bits cleared. -/
theorem clrbReadsThenWritesWithoutTheBits : Obligations.ClrbReadsThenWritesWithoutTheBits :=
  fun s r m v => performs_of_progOf_path ((clearBits_path (r.addr s.config) m v).map fun _ => OpResult.unit)

end Sys2Proof.Machine

/-! The CRC coprocessor and the reference function (41_crc.md R83 to R85). -/

namespace Sys2Proof.Machine

/-! CALCCRC. -/

theorem transactions_map_rd (a : Byte) (bytes : List Byte) : transactions (bytes.map (rd a)) = bytes.length := by
  induction bytes with
  | nil => rfl
  | cons b bs ih => simp [ih]

theorem transactions_map_wr (a : Byte) (bytes : List Byte) : transactions (bytes.map (wr a)) = bytes.length := by
  induction bytes with
  | nil => rfl
  | cons b bs ih => simp [ih]

/-- Where the poll of a CalcCRC stands among its transactions, and how many they are (41_crc.md R83). -/
theorem CrcScript.poll_place {c : Config} {bytes ans : List Byte} {evs : List Event} {r : CrcResult} (h : CrcScript c bytes ans evs r) :
    ∃ before polls n after, evs = before ++ polls.map (rd c.regCrcIrq) ++ after ∧
      PollScript c.crcIrq c.pollBudgetCrc polls r.done n ∧ transactions before = 5 + bytes.length ∧
      after = [rd c.regCrcResultL r.lo, rd c.regCrcResultH r.hi] ∧ transactions evs = 7 + bytes.length + polls.length := by
  cases h with
  | run flag level lo hi n polls done hp =>
    refine ⟨_, polls, n, _, rfl, hp, ?_, rfl, ?_⟩
    · simp [transactions_map_wr]
      omega
    · simp [transactions_map_wr, transactions_map_rd]
      omega

/-- Settles O20: every script of CalcCRC is a path of its program, and the poll's length is that of its own script. -/
theorem calccrcDrivesTheCoprocessor : Obligations.CalccrcDrivesTheCoprocessor := by
  intro s bytes ans evs r h
  obtain ⟨before, polls, n, after, hevs, hpoll, hbefore, hafter, hcount⟩ := h.poll_place
  obtain ⟨hone, hbudget, -⟩ := hpoll.length
  exact ⟨performs_of_progOf_path ((calcCrc_path h).map OpResult.crc),
    before, polls, n, after, hevs, hpoll, hone, hbudget, hbefore, hafter, hcount⟩

/-! The two forms of `CRC_A`. A step of the bit-wise form is linear over XOR, so its eight steps act on the high and on the low byte of the
register apart: they shift the high byte down, and they turn the low byte into a value of its own, which the byte-wise form computes at once. -/

theorem crcBit_xor (x y : BitVec 16) : crcBit (x ^^^ y) = crcBit x ^^^ crcBit y := by
  unfold crcBit
  rw [BitVec.getLsbD_xor, BitVec.ushiftRight_xor_distrib]
  cases x.getLsbD 0 with
  | false =>
    cases y.getLsbD 0 with
    | false => rfl
    | true => exact BitVec.xor_assoc ..
  | true =>
    cases y.getLsbD 0 with
    | false =>
      show (x >>> 1 ^^^ y >>> 1) ^^^ (0x8408 : BitVec 16) = (x >>> 1 ^^^ (0x8408 : BitVec 16)) ^^^ y >>> 1
      ac_rfl
    | true =>
      show x >>> 1 ^^^ y >>> 1 = (x >>> 1 ^^^ (0x8408 : BitVec 16)) ^^^ (y >>> 1 ^^^ (0x8408 : BitVec 16))
      rw [BitVec.xor_assoc, BitVec.xor_comm (y >>> 1), ← BitVec.xor_assoc (0x8408 : BitVec 16), BitVec.xor_self, BitVec.zero_xor]

theorem crcBits_xor (n : Nat) (x y : BitVec 16) : crcBits n (x ^^^ y) = crcBits n x ^^^ crcBits n y := by
  induction n generalizing x y with
  | zero => rfl
  | succ n ih => rw [crcBits, crcBit_xor, ih]; rfl

/-- While the bits shifted out are 0, the bit-wise form only shifts. -/
theorem crcBits_eq_ushiftRight {n : Nat} {x : BitVec 16} (h : ∀ i < n, x.getLsbD i = false) : crcBits n x = x >>> n := by
  induction n generalizing x with
  | zero => simp [crcBits]
  | succ n ih =>
    have hbit : crcBit x = x >>> 1 := by rw [crcBit, h 0 n.succ_pos]; rfl
    have hrest : ∀ i < n, (x >>> 1).getLsbD i = false := fun i hi => by
      rw [BitVec.getLsbD_ushiftRight]
      exact h (1 + i) (by omega)
    rw [crcBits, hbit, ih hrest, ← BitVec.shiftRight_add, Nat.add_comm]

/-- What the byte-wise form adds for a byte, once the register's low byte is XORed into it. -/
def crcSpread (ch : Byte) : BitVec 16 :=
  let w : BitVec 16 := (ch ^^^ (ch <<< 4)).setWidth 16
  (w <<< 8) ^^^ (w <<< 3) ^^^ (w >>> 4)

theorem crcByteFast_eq (crc : BitVec 16) (b : Byte) : crcByteFast crc b = (crc >>> 8) ^^^ crcSpread (b ^^^ crc.setWidth 8) := by
  simp only [crcByteFast, crcSpread, BitVec.xor_assoc]

theorem crcBits_setWidth (ch : Byte) : crcBits 8 (ch.setWidth 16) = crcSpread ch := by
  revert ch
  decide

/-- The register with a byte XORed in, by its high and its low byte. -/
theorem xor_setWidth_eq_high_xor_low (crc : BitVec 16) (b : Byte) :
    crc ^^^ b.setWidth 16 = ((crc >>> 8) <<< 8) ^^^ (b ^^^ crc.setWidth 8).setWidth 16 := by
  refine BitVec.eq_of_getLsbD_eq fun i hi => ?_
  by_cases h : i < 8
  · simp [h, hi, Bool.xor_comm]
  · simp [h, hi, Nat.add_sub_of_le (not_lt.1 h)]

theorem crcByteFast_eq_crcByte (crc : BitVec 16) (b : Byte) : crcByteFast crc b = crcByte crc b := by
  have hhigh : crcBits 8 ((crc >>> 8) <<< 8) = crc >>> 8 := by
    rw [crcBits_eq_ushiftRight fun i hi => by simp [hi]]
    ext i hi
    simpa using BitVec.lt_of_getLsbD
  calc crcByteFast crc b = (crc >>> 8) ^^^ crcSpread (b ^^^ crc.setWidth 8) := crcByteFast_eq crc b
    _ = crcBits 8 ((crc >>> 8) <<< 8) ^^^ crcBits 8 ((b ^^^ crc.setWidth 8).setWidth 16) := by rw [hhigh, crcBits_setWidth]
    _ = crcByte crc b := by rw [← crcBits_xor, ← xor_setWidth_eq_high_xor_low]; rfl

/-- Settles O21: the two forms agree byte for byte, from any value of the register. -/
theorem crcFormsAgree : Obligations.CrcFormsAgree := fun bytes =>
  congrArg (fun step => bytes.foldl step crcSeed) (funext fun crc => funext (crcByteFast_eq_crcByte crc))

end Sys2Proof.Machine

/-! TOCARD.TRX and TOCARD.AUTH (42_command_executor.md): both kinds at once, by the answer scripts that are the paths of ToCard's program. -/

namespace Sys2Proof.Machine

/-- The operation that is ToCard of a kind (30_encoding.md R74). -/
def toCardInstr (send : List Byte) : ExecKind → Instr
  | .transceive => .tocardTrx send
  | .authenticate => .tocardAuth send

theorem progOf_toCardInstr (c : Config) (kind : ExecKind) (send : List Byte) :
    progOf c (toCardInstr send kind) = (runCommand c kind send).map .exec := by
  cases kind <;> rfl

/-! The run along a script. -/

theorem ToCardScript.performs {s : State} {kind : ExecKind} {send ans : List Byte} {evs : List Event} {r : ExecResult}
    (h : ToCardScript s.config send kind ans evs r) : Performs (toCardInstr send kind) s ans evs (.exec r) :=
  performs_of_progOf_path (progOf_toCardInstr s.config kind send ▸ (runCommand_path h).map OpResult.exec)

/-- Settles O22: every script of either kind is a path of its program. -/
theorem tocardRunsTheCommand : Obligations.TocardRunsTheCommand :=
  ⟨fun _ _ _ _ _ h => h.performs, fun _ _ _ _ _ h => h.performs⟩

/-- As many answers as ToCard's bound, of any content, begin with the answers of one of its scripts. -/
theorem exists_toCardScript {c : Config} (hwf : c.wf = true) (kind : ExecKind) (send : List Byte) {answers : List Byte}
    (hlen : toCardBound c send.length ≤ answers.length) :
    ∃ ans rest evs r, answers = ans ++ rest ∧ ToCardScript c send kind ans evs r ∧ transactions evs ≤ toCardBound c send.length := by
  have hwithin := runCommand_within c kind send
  obtain ⟨ans, rest, evs, r, hsplit, hpath⟩ := hwithin.exists_path hlen
  have hbound := (hwithin.along (Prog.along_ret_iff.2 hpath)).1
  exact ⟨ans, rest, evs, r, hsplit, runCommand_path_inv (Config.budgets_of_wf hwf).2 hpath, hbound⟩

/-- Settles O23: the answers lead along a script within the bound, for which the channel is quiet. -/
theorem everyAnswerListIsAScript : Obligations.EveryAnswerListIsAScript := by
  intro s i kind send hi hs hq hlen
  obtain rfl : i = toCardInstr send kind := by rcases hi with ⟨rfl, rfl⟩ | ⟨rfl, rfl⟩ <;> rfl
  obtain ⟨ans, rest, evs, r, hsplit, hscript, hbound⟩ := exists_toCardScript hs.2 kind send hlen
  exact ⟨ans, rest, evs, r, hsplit, hscript, hbound, (hscript.performs hs rest hsplit).1 (hq.mono hbound)⟩

/-! The parts of a script. -/

/-- The transactions of ToCard's steps 1 to 4 beside the payload: Transceive also sets "start send" (42_command_executor.md R90). -/
def startTransactions : ExecKind → Nat
  | .transceive => 9
  | .authenticate => 7

/-- The transactions of ToCard's steps 7 to 9, by the outcome (42_command_executor.md R90). -/
def outcomeTransactions (kind : ExecKind) (r : ExecResult) : Nat :=
  match r.status, kind with
  | .failed .timeout, _ => 0
  | .failed _, _ => 1
  | .success, .authenticate => 1
  | .success, .transceive => 3 + r.frame.length

/-- A script of either kind: the events of steps 1 to 4, the poll's reads, "start send" cleared, and the outcome's events
(42_command_executor.md R90). -/
theorem ToCardScript.parts {c : Config} {kind : ExecKind} {send ans : List Byte} {evs : List Event} {r : ExecResult}
    (h : ToCardScript c send kind ans evs r) :
    ∃ before polls hit n framing tailAns tailEvs,
      evs = before ++ polls.map (rd c.regIrqStatus) ++
        ([rd c.regBitFraming framing, wr c.regBitFraming (framing &&& ~~~c.startSend)] ++ tailEvs) ∧
      transactions before = startTransactions kind + send.length ∧
      PollScript (c.timerIrq ||| c.wait kind) c.pollBudgetCmd polls hit n ∧
      OutcomeScript c (c.ien kind) n kind hit tailAns tailEvs r := by
  cases h with
  | transceive irq level framing n framing' polls tailAns hit tailEvs _ hpoll hout =>
    refine ⟨_, polls, hit, n, framing', tailAns, tailEvs, List.append_assoc .., ?_, hpoll, hout⟩
    simp [loadEvents, transactions_map_wr, startTransactions]
    omega
  | authenticate irq level n framing' polls tailAns hit tailEvs _ hpoll hout =>
    refine ⟨_, polls, hit, n, framing', tailAns, tailEvs, List.append_assoc .., ?_, hpoll, hout⟩
    simp [loadEvents, transactions_map_wr, startTransactions]
    omega

section Outcome
variable {c : Config} {ien n : Byte} {kind : ExecKind} {hit : Bool} {ans : List Byte} {evs : List Event} {r : ExecResult}

/-- The poll without a hit is the timeout, and no other outcome is (42_command_executor.md R91). -/
theorem OutcomeScript.hit_eq_false_iff (h : OutcomeScript c ien n kind hit ans evs r) : hit = false ↔ r.status = .failed .timeout := by
  cases h <;> simp

theorem OutcomeScript.transactions_eq (h : OutcomeScript c ien n kind hit ans evs r) : transactions evs = outcomeTransactions kind r := by
  cases h with
  | timeout => rfl
  | errorBits kind e _ => rfl
  | noTag kind e _ _ => rfl
  | authenticated e _ _ => rfl
  | response e count control frame _ _ _ =>
    simp [outcomeTransactions, transactions_map_rd]
    omega

/-- The outcome's events are reads. -/
theorem OutcomeScript.lastWrite_eq_none (h : OutcomeScript c ien n kind hit ans evs r) (a : RegAddr) : lastWrite a evs = none := by
  refine Machine.lastWrite_eq_none fun b1 v r2 hmem => ?_
  cases h <;> simp [rd] at hmem

end Outcome

/-! Every run that no channel fault ends. -/

/-- A ready ToCard of either kind that no channel fault ends appends the events of a script and returns its result. -/
theorem toCardInstr_next_script {kind : ExecKind} {send : List Byte} {s t : State} (hs : s.Ready)
    (h : exec (toCardInstr send kind) s = .next t) (ht : t.fault = none) :
    ∃ ans evs r, ToCardScript s.config send kind ans evs r ∧ t.trace = s.trace ++ evs ∧ t.results = s.results ++ [.exec r] := by
  obtain ⟨ans, evs, r, hscript, -, -, rfl⟩ := toCard_next_script (progOf_toCardInstr s.config kind send) hs h ht
  exact ⟨ans, evs, r, hscript, rfl, rfl⟩

/-- Where the poll stands among the events ToCard appends, and how many transactions they are (42_command_executor.md R90, R91). -/
theorem toCardInstr_counts {kind : ExecKind} {send : List Byte} {s t : State} (hs : s.Ready)
    (h : exec (toCardInstr send kind) s = .next t) (ht : t.fault = none) :
    ∃ before polls hit n after r, t.trace = s.trace ++ (before ++ polls.map (rd s.config.regIrqStatus) ++ after) ∧
      t.results = s.results ++ [.exec r] ∧ transactions before = startTransactions kind + send.length ∧
      PollScript (s.config.timerIrq ||| s.config.wait kind) s.config.pollBudgetCmd polls hit n ∧
      (hit = false ↔ r.status = .failed .timeout) ∧
      transactions (before ++ polls.map (rd s.config.regIrqStatus) ++ after) =
        startTransactions kind + send.length + polls.length + 2 + outcomeTransactions kind r := by
  obtain ⟨ans, evs, r, hscript, htrace, hresults⟩ := toCardInstr_next_script hs h ht
  obtain ⟨before, polls, hit, n, framing, tailAns, tailEvs, rfl, hbefore, hpoll, hout⟩ := hscript.parts
  refine ⟨before, polls, hit, n, _, r, htrace, hresults, hbefore, hpoll, hout.hit_eq_false_iff, ?_⟩
  simp [hbefore, transactions_map_rd, hout.transactions_eq]
  omega

/-- Settles O24: the counts of the script's parts, outcome by outcome. -/
theorem tocardTransactionCounts : Obligations.TocardTransactionCounts := by
  refine ⟨fun s t send hs h ht => ?_, fun s t send hs h ht => ?_⟩
  case' refine_1 => have hcounts := toCardInstr_counts (kind := .transceive) hs h ht
  case' refine_2 => have hcounts := toCardInstr_counts (kind := .authenticate) hs h ht
  all_goals
    obtain ⟨before, polls, hit, n, after, r, htrace, hresults, hbefore, hpoll, htimeout, hcount⟩ := hcounts
    obtain ⟨hone, hbudget, hall⟩ := hpoll.length
    refine ⟨before, polls, hit, n, after, r, htrace, hresults, hbefore, hpoll, htimeout, hone, hbudget, ?_⟩
    rw [hcount]
    split
    · next hr => exact ⟨hall (htimeout.2 hr), by simp [startTransactions, outcomeTransactions, hr]; omega⟩
    · next f _ hr => simp [startTransactions, outcomeTransactions, hr]; omega
    · next hr => simp [startTransactions, outcomeTransactions, hr]; omega

/-- Settles O28: after the read-modify-write of step 6 a script only reads. -/
theorem startSendIsClearedUnconditionally : Obligations.StartSendIsClearedUnconditionally := by
  intro i send s t hi hs h ht
  obtain ⟨kind, rfl⟩ : ∃ kind, i = toCardInstr send kind := hi.elim (⟨.transceive, ·⟩) (⟨.authenticate, ·⟩)
  obtain ⟨ans, evs, r, hscript, htrace, -⟩ := toCardInstr_next_script hs h ht
  obtain ⟨before, polls, hit, n, framing, tailAns, tailEvs, rfl, -, -, hout⟩ := hscript.parts
  exact ⟨before ++ polls.map (rd s.config.regIrqStatus), framing, tailEvs, by simpa using htrace, hout.lastWrite_eq_none _⟩

/-! The call ToCard with any kind. -/

/-- Settles O25: the call decodes to the operation of its kind, or to none. -/
theorem tocardOfAnotherKindIsRefused : Obligations.TocardOfAnotherKindIsRefused := by
  refine fun s rest send hf => ⟨fun kind hkind hc => ?_, fun hc => ?_, fun hc => ?_⟩
  · have hd : decodeCall (.tocard kind send) = .error (.kindNotAdmitted kind) := by
      rcases hkind with rfl | rfl | rfl <;> rfl
    exact stepWithoutAnOperation.1 s _ rest _ hf hc hd
  · exact stepRunsTheDecodedCall s _ rest _ hf hc rfl
  · exact stepRunsTheDecodedCall s _ rest _ hf hc rfl

/-! The bit count (42_command_executor.md R95). -/

theorem validBits_of_wholeBytes {control : Byte} (h : control &&& 0x07 = 0) (c : Byte) : validBits c control = 8 * (c.toNat : Int) := by
  rw [validBits, if_pos (show lastBits control = 0 from h), Int.mul_comm]

theorem validBits_of_lastBits {control : Byte} (h : control &&& 0x07 ≠ 0) (c : Byte) :
    validBits c control = 8 * ((c.toNat : Int) - 1) + ((control &&& 0x07).toNat : Int) := by
  rw [validBits, if_neg (show lastBits control ≠ 0 from h), Int.mul_comm]
  rfl

/-- The last-bits field, where it is set, is 1 to 7. -/
theorem lastBits_range {control : Byte} (h : control &&& 0x07 ≠ 0) : 1 ≤ (control &&& 0x07).toNat ∧ (control &&& 0x07).toNat ≤ 7 := by
  refine ⟨Nat.pos_of_ne_zero fun h0 => h (BitVec.eq_of_toNat_eq h0), ?_⟩
  rw [BitVec.toNat_and]
  exact Nat.and_le_right

/-- Settles O26: the count is 8 times the bytes, or 1 to 7 more than 8 times the bytes before the last, which is no multiple of 8. -/
theorem validBitsRange : Obligations.ValidBitsRange := by
  intro c control
  have hc := c.isLt
  have htwo : c = 2 ↔ c.toNat = 2 := BitVec.toNat_eq
  have hthree : c = 3 ↔ c.toNat = 3 := BitVec.toNat_eq
  have hzero : c = 0 ↔ c.toNat = 0 := BitVec.toNat_eq
  by_cases h : control &&& 0x07 = 0
  · rw [validBits_of_wholeBytes h, htwo, hthree, hzero]
    simp only [h, ne_eq, not_true_eq_false, false_imp_iff, true_imp_iff, true_and, and_true, and_false, iff_false]
    omega
  · have hlast := lastBits_range h
    rw [validBits_of_lastBits h, htwo, hthree, hzero]
    simp only [h, ne_eq, not_false_eq_true, false_imp_iff, true_imp_iff, true_and, and_true, and_false, iff_false]
    omega

/-! The error test (42_command_executor.md R93). -/

theorem anyBit_or (v m m' : Byte) : anyBit v (m ||| m') = (anyBit v m || anyBit v m') := by
  simp only [anyBit, BitVec.and_or_distrib_left, ne_eq, ← Bool.decide_or, ← not_and_or]
  exact decide_eq_decide.2 (not_congr BitVec.or_eq_zero_iff)

theorem anyBit_twoPow (v : Byte) {i : Nat} (hi : i < 8) : anyBit v (BitVec.twoPow 8 i) = v.getLsbD i := by
  have hpow : BitVec.twoPow 8 i ≠ 0 := fun h => by simpa [hi] using congrArg (BitVec.getLsbD · i) h
  rw [anyBit, BitVec.and_twoPow]
  cases v.getLsbD i with
  | false => rfl
  | true => exact decide_eq_true hpow

/-- Settles O27: the error mask is its four bits. -/
theorem errorTestReadsFourBits : Obligations.ErrorTestReadsFourBits := by
  intro e
  have hmask : errMask = BitVec.twoPow 8 4 ||| BitVec.twoPow 8 3 ||| BitVec.twoPow 8 1 ||| BitVec.twoPow 8 0 := by decide
  rw [errorReported, hmask]
  simp only [anyBit_or, anyBit_twoPow, Nat.reduceLT]

end Sys2Proof.Machine

/-! The framer (43_anticollision_select.md R98 to R102): every script of an operation is a path of its program. -/

namespace Sys2Proof.Machine

/-! BCC. -/

/-- A list of other than four bytes has no BCC (43_anticollision_select.md R98). -/
theorem bccOp_of_length_ne {u : List Byte} (h : u.length ≠ 4) : bccOp u = .refuse .bccNeedsFourBytes := by
  unfold bccOp
  split
  · exact absurd rfl h
  · rfl

/-- The XOR of five bytes is the BCC of the first four against the fifth. -/
theorem xorFold_five (u0 u1 u2 u3 u4 : Byte) : xorFold [u0, u1, u2, u3, u4] = u4 ^^^ bccOf u0 u1 u2 u3 := by
  simp only [xorFold, bccOf]
  ac_rfl

/-- Settles O30: on four bytes BCC's program is the return of their XOR, on other lists a refusal. -/
theorem bccIsTheXorOfFourBytes : Obligations.BccIsTheXorOfFourBytes := by
  refine ⟨fun s u0 u1 u2 u3 => ?_, fun s u hlen => ?_, fun u0 u1 u2 u3 u4 => ?_⟩
  · exact performs_of_progOf_path (.ret _)
  · exact refuses_of_progOf (congrArg (Prog.map OpResult.byte) (bccOp_of_length_ne hlen))
  · rw [xorFold_five]
    exact BitVec.xor_eq_zero_iff.symm

/-! REQUEST, ANTICOLL, SELECT. -/

/-- Settles O31: both kinds of script of Request, detected or not, are paths of its program. -/
theorem requestDetectsSixteenBits : Obligations.RequestDetectsSixteenBits :=
  fun _ _ _ _ h => performs_of_progOf_path ((requestOp_path h).map OpResult.request)

/-- Settles O32: each script of Anticollision, one per outcome of its checks, is a path of its program. -/
theorem anticollResolvesTheUid : Obligations.AnticollResolvesTheUid :=
  fun _ _ _ _ h => performs_of_progOf_path ((anticollOp_path h).map OpResult.anticoll)

/-- The script of Select's frame is a path of Select, whose value is what Select makes of ToCard's result (43_anticollision_select.md
R102). -/
theorem selectOp_path {c : Config} {uid ans : List Byte} {evs : List Event} {r : ExecResult}
    (h : FrameScript c (selectBuf uid) ans evs r) : (selectOp c uid).Path ans evs (selectDecode r) :=
  (sendWithCrc_path h).map selectDecode

/-- Settles O33: the frame is `selectBuf`, and the acceptance test is `selectDecode`. -/
theorem selectTakesThreeBytesAndTwentyFourBits : Obligations.SelectTakesThreeBytesAndTwentyFourBits :=
  fun _ _ _ _ _ h => performs_of_progOf_path ((selectOp_path h).map OpResult.select)

end Sys2Proof.Machine

/-! Authentication and block I/O (44_auth_blockio.md R104 to R109): every script of an operation is a path of its program, and operands of
other lengths are refused. -/

namespace Sys2Proof.Machine

/-! AUTH, STOPCRYPTO, SECTORADDR. -/

/-- A key of other than 6 bytes or a UID of less than 4 has no authentication (44_auth_blockio.md R104). -/
theorem authOp_of_bad_lengths {key uid : List Byte} (h : key.length ≠ 6 ∨ uid.length < 4) (c : Config) (variant : KeyVariant)
    (blk : Byte) :
    authOp c variant blk key uid = .refuse .authNeedsKeyAndUid :=
  if_neg fun ⟨hkey, huid⟩ => h.elim (fun hne => hne hkey) (fun hlt => Nat.not_lt.2 huid hlt)

/-- Settles O34: both outcomes of Auth's ToCard script are paths of its program, and its refusal is the test of the two lengths. -/
theorem authSendsKeyAndUid : Obligations.AuthSendsKeyAndUid := by
  refine ⟨fun s variant blk key uid ans evs r hkey huid h => ?_, fun s variant blk key uid hlen => ?_⟩
  · exact performs_of_progOf_path ((authOp_path hkey huid h).map OpResult.auth)
  · exact refuses_of_progOf (congrArg (Prog.map OpResult.auth) (authOp_of_bad_lengths hlen s.config variant blk))

/-- Settles O35: STOPCRYPTO's program is CLRB's, of the crypto bit of status2. -/
theorem stopcryptoClearsTheCryptoBit : Obligations.StopcryptoClearsTheCryptoBit :=
  fun s v => performs_of_progOf_path ((clearBits_path s.config.regStatus2 s.config.crypto1On v).map fun _ => OpResult.unit)

/-- Settles O36: SECTORADDR's program returns at once, with the block number by its range. -/
theorem sectoraddrIsPureAndBounded : Obligations.SectoraddrIsPureAndBounded := by
  intro s sector block
  rw [← sectorAddr_eq]
  exact performs_of_progOf_path (.ret _)

/-! READBLK, WRITEBLK. -/

/-- Settles O37: both kinds of script of ReadBlock, sixteen bytes or not, are paths of its program. -/
theorem readblkReturnsSixteenBytes : Obligations.ReadblkReturnsSixteenBytes :=
  fun _ _ _ _ _ h => performs_of_progOf_path ((readBlockOp_path h).map OpResult.readBlock)

/-- Data of other than sixteen bytes is not written (44_auth_blockio.md R108). -/
theorem writeBlockOp_of_length_ne {data : List Byte} (h : data.length ≠ 16) (c : Config) (a : Byte) :
    writeBlockOp c a data = .refuse .writeBlockNeedsSixteenBytes :=
  if_neg h

/-- Settles O38: each script of WriteBlock, by the phase that lacks the acknowledge or none, is a path of its program. -/
theorem writeblkNeedsBothAcknowledges : Obligations.WriteblkNeedsBothAcknowledges := by
  refine ⟨fun s a data ans evs r hlen h => ?_, fun s a data hlen => ?_⟩
  · exact performs_of_progOf_path ((writeBlockOp_path hlen h).map OpResult.writeBlock)
  · exact refuses_of_progOf (congrArg (Prog.map OpResult.writeBlock) (writeBlockOp_of_length_ne hlen s.config a))

/-! One operation after another. -/

/-- A quiet channel stays quiet, after some events, for what is left of its transactions. -/
theorem State.Quiet.after {s : State} {evs : List Event} {n : Nat} (h : s.Quiet (transactions evs + n)) (rest : List Byte) :
    (s.after evs rest).Quiet n := by
  refine h.imp id fun ⟨hlen, hall⟩ => ?_
  show n ≤ (s.failures.drop (transactions evs)).length ∧ ∀ f ∈ (s.failures.drop (transactions evs)).take n, f = false
  rw [List.length_drop, List.take_drop]
  exact ⟨by omega, fun f hf => hall f (List.mem_of_mem_drop hf)⟩

/-- Two operations, the second from the state the first leaves, on the answers of both and a channel quiet for both, return their two
results. -/
theorem Performs.returns_then {i j : Instr} {s : State} {ans ans' rest : List Byte} {evs evs' : List Event} {r r' : OpResult}
    (hi : Performs i s ans evs r) (hj : ∀ t : State, t.config = s.config → Performs j t ans' evs' r') (hs : s.Ready)
    (ha : s.answers = ans ++ ans' ++ rest) (hq : s.Quiet (transactions evs + transactions evs')) :
    ∃ t u, exec i s = .next t ∧ exec j t = .next u ∧ u.results = s.results ++ [r, r'] := by
  have hfirst := (hi hs (ans' ++ rest) (by rw [ha, List.append_assoc])).1 (hq.mono (Nat.le_add_right ..))
  have hsecond := (hj ((s.after evs (ans' ++ rest)).returnResult r) rfl hs rest rfl).1 (hq.after (ans' ++ rest))
  exact ⟨_, _, hfirst, hsecond, by simp⟩

/-- Settles O39: the answers lead WRITEBLK along its written script and then READBLK along the script of its sixteen bytes. -/
theorem loopbackReadsBackWhatWasWritten : Obligations.LoopbackReadsBackWhatWasWritten := by
  intro s a data ansW ansR rest evsW evsR vb hlen hs hwrite hframe ha hq
  have hread : ReadScript s.config a ansR evsR (.data data) := .data _ _ _ vb hframe hlen
  have hreads : ∀ t : State, t.config = s.config → Performs (.readblk a) t ansR evsR (.readBlock (.data data)) :=
    fun t ht => readblkReturnsSixteenBytes t a ansR evsR (.data data) (ht ▸ hread)
  exact (writeblkNeedsBothAcknowledges.1 s a data ansW evsW .written hlen hwrite).returns_then hreads hs ha hq

end Sys2Proof.Machine

/-! The session operations (45_session.md R110 to R115): every script of an operation is a path of its program; what a run sleeps; and the
checks READSECT and WRITESECT make before the first transaction. -/

namespace Sys2Proof.Machine

/-! REARM. -/

/-- Settles O40: every script of the configured sequence is a path of REARM's program, and the default sequence is the table of R111. -/
theorem rearmRunsTheSequence : Obligations.RearmRunsTheSequence := by
  refine ⟨fun s ans evs h => ?_, fun r => ?_⟩
  · exact performs_of_progOf_path ((rearmAll_path h).map fun _ => OpResult.unit)
  · exact .write _ _ _ _ _ <| .write _ _ _ _ _ <| .write _ _ _ _ _ <| .write _ _ _ _ _ <| .write _ _ _ _ _ <| .write _ _ _ _ _ <|
      .write _ _ _ _ _ <| .set _ _ r _ _ _ .nil

/-! Sleeps. -/

@[simp] theorem sleeps_nil : sleeps [] = 0 := rfl
@[simp] theorem sleeps_sleep (ms : Nat) (evs : List Event) : sleeps (.sleep ms :: evs) = sleeps evs + 1 :=
  List.countP_cons_of_pos rfl
@[simp] theorem sleeps_fault (f : FaultInfo) (evs : List Event) : sleeps (.fault f :: evs) = sleeps evs :=
  List.countP_cons_of_neg Bool.false_ne_true
@[simp] theorem sleeps_append (evs evs' : List Event) : sleeps (evs ++ evs') = sleeps evs + sleeps evs' :=
  List.countP_append

theorem sleeps_eq_zero {evs : List Event} (h : ∀ ms, .sleep ms ∉ evs) : sleeps evs = 0 := by
  refine List.countP_eq_zero.2 fun e he hsleep => ?_
  cases e with
  | xfer dir a b1 b2 r2 => cases hsleep
  | sleep ms => exact h ms he
  | fault f => cases hsleep

/-- A program that may not sleep does not sleep on any of its paths. -/
theorem Prog.Within.sleeps_eq_zero {α : Type} {n : Nat} {p : Prog α} (h : p.Within false n) {ans : List Byte} {evs : List Event} {a : α}
    (hpath : p.Path ans evs a) : sleeps evs = 0 := by
  obtain ⟨-, -, hsleep⟩ := h.along (Prog.along_ret_iff.2 hpath)
  exact Machine.sleeps_eq_zero fun ms hms => Bool.noConfusion (hsleep ms hms).1

theorem RearmScript.sleeps_eq_zero {items : List RearmItem} {ans : List Byte} {evs : List Event} (h : RearmScript items ans evs) :
    sleeps evs = 0 :=
  (rearmAll_within items).sleeps_eq_zero (rearmAll_path h)

theorem RequestScript.sleeps_eq_zero {c : Config} {ans : List Byte} {evs : List Event} {r : RequestResult}
    (h : RequestScript c ans evs r) : sleeps evs = 0 :=
  (requestOp_within c).sleeps_eq_zero (requestOp_path h)

theorem napsIn_eq_false {i : Instr} (h : ∀ n, i ≠ .waitcard n) : napsIn i = false := by
  unfold napsIn
  split
  · exact absurd rfl (h _)
  · rfl

/-- Settles O49: the sleeps of an operation are those of a way through its program; a fault event is none. -/
theorem onlyWaitcardSleeps : Obligations.OnlyWaitcardSleeps := by
  intro i s t h
  obtain ⟨-, rfl | ⟨-, ans, evs, q, -, -, -, -, hsleep, hend⟩⟩ := exec_next_within h
  · exact ⟨[], by simp, by simp, fun _ => rfl⟩
  have hms : ∀ ms, .sleep ms ∈ evs → ms = 100 := fun ms hm => (hsleep ms hm).2
  have hnone : (∀ n, i ≠ .waitcard n) → sleeps evs = 0 := fun hi => sleeps_eq_zero fun ms hm =>
    Bool.eq_false_iff.1 (napsIn_eq_false hi) (hsleep ms hm).1
  rcases hend with ⟨r, -, rfl⟩ | ⟨f, -, -, -, -, rfl⟩
  · exact ⟨evs, rfl, hms, hnone⟩
  · exact ⟨evs ++ [.fault f], by simp, by simpa using hms, fun hi => by simp [hnone hi]⟩

/-! WAITCARD. -/

/-- The attempts of a script of WaitForCard: `n` after which the deadline was not reached, then the last, which finds the card, or reaches the
deadline with a sleep of its own (45_session.md R112). -/
theorem WaitScript.attempts {c : Config} {t : Int} {elapsed : Nat} {ans : List Byte} {evs : List Event} {r : WaitResult}
    (h : WaitScript c t elapsed ans evs r) :
    ∃ n : Nat, (n = 0 ∨ ((elapsed + 100 * n : Nat) : Int) < t) ∧
      ((r = .detected ∧ sleeps evs = n) ∨ (r = .timeout ∧ sleeps evs = n + 1 ∧ t ≤ ((elapsed + 100 * (n + 1) : Nat) : Int))) := by
  induction h with
  | detected elapsed ans ans' evs evs' hr hq =>
    exact ⟨0, .inl rfl, .inl ⟨rfl, by simp [hr.sleeps_eq_zero, hq.sleeps_eq_zero]⟩⟩
  | timeout elapsed ans ans' evs evs' hr hq hlate =>
    exact ⟨0, .inl rfl, .inr ⟨rfl, by simp [hr.sleeps_eq_zero, hq.sleeps_eq_zero], by simpa using hlate⟩⟩
  | again elapsed ans ans' ans'' evs evs' evs'' r hr hq hearly _ ih =>
    obtain ⟨n, hn, hend⟩ := ih
    have hcount : sleeps (evs ++ evs' ++ [.sleep 100] ++ evs'') = sleeps evs'' + 1 := by
      simp [hr.sleeps_eq_zero, hq.sleeps_eq_zero, Nat.add_comm]
    refine ⟨n + 1, .inr (by omega), hend.imp ?_ ?_⟩
    · exact fun ⟨hd, hs⟩ => ⟨hd, by rw [hcount, hs]⟩
    · exact fun ⟨ht, hs, hreach⟩ => ⟨ht, by rw [hcount, hs], by omega⟩

/-- Settles O41: every script of the loop is a path of WAITCARD's program, and its attempts count its sleeps. -/
theorem waitcardRepeatsUntilTheDeadline : Obligations.WaitcardRepeatsUntilTheDeadline := by
  intro s t ans evs r h
  obtain ⟨n, hn, hend⟩ := h.attempts
  refine ⟨performs_of_progOf_path ((waitOp_path h).map OpResult.waitCard), ?_, ?_⟩
  · rintro rfl
    obtain ⟨hr, -⟩ | ⟨-, hs, hreach⟩ := hend
    · cases hr
    · omega
  · rintro rfl
    obtain ⟨-, hs⟩ | ⟨hr, -⟩ := hend
    · omega
    · cases hr

/-! READUID. -/

theorem hexDigitLower_eq_getElem? : ∀ d < 16, some (hexDigitLower d) = "0123456789abcdef".toList[d]? := by decide

/-- The two digits of a byte, from the table of the digits (45_session.md R113). -/
theorem map_some_hex2 (b : Byte) :
    (hex2 b).map some = ["0123456789abcdef".toList[b.toNat / 16]?, "0123456789abcdef".toList[b.toNat % 16]?] := by
  obtain ⟨hhigh, hlow⟩ := hexDigits_lt b
  rw [← hexDigitLower_eq_getElem? _ hhigh, ← hexDigitLower_eq_getElem? _ hlow]
  rfl

/-- A script of Anticollision is a path of READUID's program, whose value is what ReadUid makes of its result. -/
theorem AnticollScript.performs_readuid {s : State} {ans : List Byte} {evs : List Event} {r : AnticollResult}
    (h : AnticollScript s.config ans evs r) : Performs .readuid s ans evs (.readUid (uidDecode r)) :=
  performs_of_progOf_path ((anticollOp_path h).map fun r => OpResult.readUid (uidDecode r))

/-- Settles O42: the text is the `hex2` of the first four bytes, and a failure is passed on. -/
theorem readuidFormatsFourBytes : Obligations.ReaduidFormatsFourBytes := by
  refine ⟨fun s ans evs u0 u1 u2 u3 u4 h => ?_, fun s ans evs f h => h.performs_readuid⟩
  refine ⟨[u0, u1, u2, u3].flatMap hex2, h.performs_readuid, ?_⟩
  rw [List.map_flatMap]
  exact congrArg (List.flatMap · _) (funext map_some_hex2)

/-! The checks of READSECT and WRITESECT (45_session.md R114, R115). -/

/-- What a session does after authentication (45_session.md R114, R115): it fails, or accesses the block. -/
def afterAuth {α : Type} (failed : SessionError → α) (access : Prog α) : AuthResult → Prog α
  | .authOk => access
  | .authFailed => .ret (failed .authFailed)

section Sector
variable {α : Type} {c : Config} {uid key ans ans' : List Byte} {evs evs' : List Event} {sector block : Nat}
  {keyA keyB : Option (List Byte)} {variant : KeyVariant} {failed : SessionError → α} {access : Byte → Prog α}

theorem withSector_noKey : withSector c uid sector block none none failed access = .ret (failed .noKey) := rfl

theorem withSector_outOfRange (hkey : KeyChosen keyA keyB variant key) (h : sector * 4 + block % 4 > 63) :
    withSector c uid sector block keyA keyB failed access = .ret (failed .blockOutOfRange) := by
  simp only [withSector, chooseKey_eq hkey, sectorAddr_eq, if_neg (Nat.not_le.2 h)]

/-- With a key and a block in range, a session is the authentication of that block and what follows it. -/
theorem withSector_inRange (hkey : KeyChosen keyA keyB variant key) (h : sector * 4 + block % 4 ≤ 63) :
    withSector c uid sector block keyA keyB failed access =
      (authOp c variant (BitVec.ofNat 8 (sector * 4 + block % 4)) key uid).bind
        (afterAuth failed (access (BitVec.ofNat 8 (sector * 4 + block % 4)))) := by
  simp only [withSector, chooseKey_eq hkey, sectorAddr_eq, if_pos h]
  refine congrArg _ (funext fun r => ?_)
  cases r with
  | authOk => rfl
  | authFailed => rfl

theorem withSector_refuses (hkey : KeyChosen keyA keyB variant key) (h : sector * 4 + block % 4 ≤ 63)
    (hbad : key.length ≠ 6 ∨ uid.length < 4) :
    withSector c uid sector block keyA keyB failed access = .refuse .authNeedsKeyAndUid := by
  rw [withSector_inRange hkey h, authOp_of_bad_lengths hbad]
  rfl

/-- An authentication that fails ends the session. -/
theorem withSector_path_authFailed (hkey : KeyChosen keyA keyB variant key) (h : sector * 4 + block % 4 ≤ 63) (hlen : key.length = 6)
    (huid : 4 ≤ uid.length) (ha : AuthScript c variant (BitVec.ofNat 8 (sector * 4 + block % 4)) key uid ans evs .authFailed) :
    (withSector c uid sector block keyA keyB failed access).Path ans evs (failed .authFailed) := by
  rw [withSector_inRange hkey h]
  exact (authOp_path hlen huid ha).bind_done rfl

/-- One that succeeds is followed by the access to the same block. -/
theorem withSector_path_access (hkey : KeyChosen keyA keyB variant key) (h : sector * 4 + block % 4 ≤ 63) (hlen : key.length = 6)
    (huid : 4 ≤ uid.length) (ha : AuthScript c variant (BitVec.ofNat 8 (sector * 4 + block % 4)) key uid ans evs .authOk) {x : α}
    (hx : (access (BitVec.ofNat 8 (sector * 4 + block % 4))).Path ans' evs' x) :
    (withSector c uid sector block keyA keyB failed access).Path (ans ++ ans') (evs ++ evs') x := by
  rw [withSector_inRange hkey h]
  exact (authOp_path hlen huid ha).bind hx

end Sector

/-! READSECT. -/

/-- READSECT performs the paths of the checks with ReadBlock as the access. -/
theorem performs_readsect {s : State} {uid ans : List Byte} {evs : List Event} {sector block : Nat} {keyA keyB : Option (List Byte)}
    {r : ReadSectorResult}
    (h : (withSector s.config uid sector block keyA keyB .failed fun a => (readBlockOp s.config a).map readSectorDecode).Path ans evs r) :
    Performs (.readsect uid sector block keyA keyB) s ans evs (.readSector r) :=
  performs_of_progOf_path (h.map OpResult.readSector)

/-- Settles O43: the checks in order, each by its equation, then the paths of Auth and ReadBlock. -/
theorem readsectChecksThenReads : Obligations.ReadsectChecksThenReads := by
  refine fun s uid sector block => ⟨performs_readsect (withSector_noKey ▸ .ret _),
    fun keyA keyB variant key hkey => ⟨fun h => ?_, fun h hbad => ?_, ?_⟩⟩
  · exact performs_readsect (withSector_outOfRange hkey h ▸ .ret _)
  · exact refuses_of_progOf (congrArg (Prog.map OpResult.readSector) (withSector_refuses hkey h hbad))
  · rintro h hlen huid a rfl
    refine ⟨fun ans evs ha => ?_, fun ans evs ans' evs' data ha hr => ?_, fun ans evs ans' evs' ha hr => ?_⟩
    · exact performs_readsect (withSector_path_authFailed hkey h hlen huid ha)
    · exact performs_readsect (withSector_path_access hkey h hlen huid ha ((readBlockOp_path hr).map readSectorDecode))
    · exact performs_readsect (withSector_path_access hkey h hlen huid ha ((readBlockOp_path hr).map readSectorDecode))

/-! WRITESECT. -/

/-- Data of other than sixteen bytes is refused before every other check (45_session.md R115). -/
theorem writeSectorOp_of_length_ne {data : List Byte} (h : data.length ≠ 16) (c : Config) (uid : List Byte) (sector block : Nat)
    (keyA keyB : Option (List Byte)) :
    writeSectorOp c uid sector block data keyA keyB = .refuse .writeSectorNeedsSixteenBytes :=
  if_neg h

section Write
variable {s : State} {uid data : List Byte} {sector block : Nat} {keyA keyB : Option (List Byte)} (hdata : data.length = 16)
include hdata

/-- Sixteen bytes of data are written after the checks. -/
theorem writeSectorOp_of_length (c : Config) :
    writeSectorOp c uid sector block data keyA keyB =
      withSector c uid sector block keyA keyB .failed fun a => (writeBlockOp c a data).map writeSectorDecode :=
  if_pos hdata

/-- WRITESECT performs the paths of the checks with WriteBlock as the access. -/
theorem performs_writesect {ans : List Byte} {evs : List Event} {r : WriteSectorResult}
    (h : (withSector s.config uid sector block keyA keyB .failed fun a => (writeBlockOp s.config a data).map writeSectorDecode).Path
      ans evs r) :
    Performs (.writesect uid sector block data keyA keyB) s ans evs (.writeSector r) :=
  performs_of_progOf_path ((writeSectorOp_of_length hdata s.config ▸ h).map OpResult.writeSector)

end Write

/-- Settles O44: the data length, then the checks in order, each by its equation, then the paths of Auth and WriteBlock. -/
theorem writesectChecksThenWrites : Obligations.WritesectChecksThenWrites := by
  refine fun s uid sector block data => ⟨fun hne keyA keyB => ?_,
    fun hdata => performs_writesect hdata (withSector_noKey ▸ .ret _),
    fun keyA keyB variant key hdata hkey => ⟨fun h => ?_, fun h hbad => ?_, ?_⟩⟩
  · exact refuses_of_progOf (congrArg (Prog.map OpResult.writeSector) (writeSectorOp_of_length_ne hne s.config uid sector block keyA keyB))
  · exact performs_writesect hdata (withSector_outOfRange hkey h ▸ .ret _)
  · exact refuses_of_progOf (congrArg (Prog.map OpResult.writeSector)
      ((writeSectorOp_of_length hdata s.config).trans (withSector_refuses hkey h hbad)))
  · rintro h hlen huid a rfl
    refine ⟨fun ans evs ha => ?_, fun ans evs ans' evs' ha hw => ?_, fun ans evs ans' evs' phase ha hw => ?_⟩
    · exact performs_writesect hdata (withSector_path_authFailed hkey h hlen huid ha)
    · exact performs_writesect hdata (withSector_path_access hkey h hlen huid ha ((writeBlockOp_path hdata hw).map writeSectorDecode))
    · exact performs_writesect hdata (withSector_path_access hkey h hlen huid ha ((writeBlockOp_path hdata hw).map writeSectorDecode))

end Sys2Proof.Machine

/-! The codes of the outcomes (60_exceptions.md R116). -/

namespace Sys2Proof

section Wrappers
variable (f : ExecFailure) (a : AnticollFailure) (e : SessionError)

/-! A wrapper has the code of what it wraps. -/

@[simp] theorem OpResult.code_exec_failed (frame : List Byte) (validBits : Int) :
    (OpResult.exec ⟨.failed f, frame, validBits⟩).code = f.code := rfl
@[simp] theorem OpResult.code_anticoll_failed : (OpResult.anticoll (.failed a)).code = a.code := rfl
@[simp] theorem OpResult.code_anticoll_execFailed : (OpResult.anticoll (.failed (.execFailed f))).code = f.code := rfl
@[simp] theorem OpResult.code_readUid_uidError : (OpResult.readUid (.uidError a)).code = a.code := rfl
@[simp] theorem OpResult.code_readSector_failed : (OpResult.readSector (.failed e)).code = e.code := rfl
@[simp] theorem OpResult.code_writeSector_failed : (OpResult.writeSector (.failed e)).code = e.code := rfl

end Wrappers

open OpResult in
/-- Settles O52: an outcome that wraps nothing has the code of its row, and a wrapper, by its lemma, the code of what it wraps. -/
theorem failureCodesAreThoseOfTheTable : Obligations.FailureCodesAreThoseOfTheTable :=
  ⟨-- the channel fault
    fun _ _ => rfl,
    -- the successes
    rfl, fun _ => rfl, fun _ => rfl, rfl, fun _ => rfl, fun _ => rfl, rfl, fun _ => rfl, fun _ => rfl, rfl, fun _ => rfl, fun _ => rfl, rfl,
    -- ToCard and WAITCARD
    fun frame vb => ⟨rfl, code_exec_failed .timeout frame vb, code_exec_failed .noTagError frame vb,
      fun e => code_exec_failed (.errorReported e) frame vb⟩, rfl, rfl,
    -- Anticollision, and ReadUid, which passes its failures on
    fun frame => code_anticoll_failed (.checksumMismatch frame), fun n => code_anticoll_failed (.wrongLength n),
    fun f frame vb => (code_anticoll_execFailed f).trans (code_exec_failed f frame vb).symm,
    fun f => (code_readUid_uidError f).trans (code_anticoll_failed f).symm,
    -- the failures with a row of their own
    rfl, rfl, rfl, fun _ => rfl, rfl, rfl,
    -- the session reads and writes
    code_readSector_failed .authFailed, code_readSector_failed .readError, code_readSector_failed .noKey,
    code_readSector_failed .blockOutOfRange, code_writeSector_failed .authFailed,
    fun phase => code_writeSector_failed (.writeRejected phase), code_writeSector_failed .noKey, code_writeSector_failed .blockOutOfRange⟩

end Sys2Proof

/-! Reset and hazards (70_reset_and_hazards.md): the outcome of a poll the timer bit ended (R133), the bound on an operation's transactions
(R139), and what changes bit-framing (R131). -/

namespace Sys2Proof.Machine

/-! The timer bit. -/

/-- Authenticate whose first poll read ends the poll without meeting the no-tag test, and whose error byte has no tested bit, is AuthOk in
11 transactions beside the payload (42_command_executor.md R90 to R94). -/
theorem exists_authScript_ok_on_first_poll {c : Config} {n e : Byte} (hbudget : 1 ≤ c.pollBudgetCmd)
    (hstop : n &&& (c.timerIrq ||| c.waitAuth) ≠ 0) (htag : n &&& c.ienAuth &&& c.noTagIrq = 0) (he : e &&& 0x1B = 0)
    (variant : KeyVariant) (blk irq level framing : Byte) (key uid : List Byte) :
    ∃ evs, AuthScript c variant blk key uid [irq, level, n, framing, e] evs .authOk ∧
      transactions evs = 13 + key.length + min 4 uid.length := by
  have hpoll : PollScript (c.timerIrq ||| c.waitAuth) c.pollBudgetCmd [n] true n := .hit [] n hbudget (by simp) hstop
  refine ⟨_, .ok _ _ _ _ (.authenticate irq level n framing [n] [e] true _ _ hpoll (.authenticated e he htag)), ?_⟩
  simp [loadEvents, transactions_map_wr, -List.map_take]
  omega

/-- Settles O29: under the defaults the timer bit ends the poll, and Authenticate's enables mask it out of the no-tag test. -/
theorem authOkOnTheTimerBit : Obligations.AuthOkOnTheTimerBit := by
  intro s variant blk irq level framing e key uid rest hf hc hq hkey huid he ha
  have hs : s.Ready := ⟨hf, hc ▸ test_wf_default_config⟩
  obtain ⟨evs, hscript, hcount⟩ := exists_authScript_ok_on_first_poll (c := defaultConfig) (n := 0x01) (by decide) (by decide)
    (by decide) he variant blk irq level framing key uid
  have hexec := (authSendsKeyAndUid.1 s variant blk key uid _ evs .authOk hkey huid (hc ▸ hscript) hs rest ha).1 (hq.mono (by omega))
  exact ⟨_, hexec, rfl, rfl⟩

/-! The bound. -/

/-- Settles O48: a refused call makes no transaction, any other those of a way within the bound; a fault event is none. -/
theorem transactionsAreBounded : Obligations.TransactionsAreBounded := by
  refine ⟨fun i s t h => ?_, fun a data => ⟨rfl, rfl⟩⟩
  obtain ⟨-, rfl | ⟨-, ans, evs, q, -, -, -, hbound, -, hend⟩⟩ := exec_next_within h
  · exact ⟨[], by simp, Nat.zero_le _⟩
  rcases hend with ⟨r, -, rfl⟩ | ⟨f, -, -, -, -, rfl⟩
  · exact ⟨evs, rfl, hbound⟩
  · exact ⟨evs ++ [.fault f], by simp, by simpa using hbound⟩

/-! Bit-framing: the events. -/

/-- Events that do not write a register touch no bit of it. -/
theorem touchesOnlyBits_of_no_write {a m : Byte} {evs : List Event} (h : ∀ b1 v r2, .xfer .write (chipAddr a) b1 v r2 ∉ evs) :
    TouchesOnlyBits a m evs := by
  rintro pre post b1 v r2 rfl
  exact absurd (List.mem_append_right pre (List.mem_cons_self ..)) (h b1 v r2)

/-- The read and the write of a read-modify-write that sets or clears the bits touch only them. -/
theorem touchesOnlyBits_readModifyWrite {a m r v : Byte} (h : v = r ||| m ∨ v = r &&& ~~~m) :
    TouchesOnlyBits a m [rd a r, wr a v] := by
  intro pre post b1 w r2 heq
  match pre with
  | [] => simp [rd] at heq
  | [e] =>
    obtain ⟨rfl, hwr⟩ := List.cons.inj heq
    obtain ⟨-, -, -, rfl, -⟩ := Event.xfer.inj (List.cons.inj hwr).1
    exact ⟨[], r, rfl, h⟩
  | e :: e' :: pre => simp at heq

/-- A write in the second part has its read there too, since the first event of a part that touches only bits is no write. -/
theorem TouchesOnlyBits.append {a m : Byte} {evs evs' : List Event} (h : TouchesOnlyBits a m evs) (h' : TouchesOnlyBits a m evs') :
    TouchesOnlyBits a m (evs ++ evs') := by
  intro pre post b1 v r2 heq
  have second : ∀ mid, evs' = mid ++ .xfer .write (a.setWidth 6) b1 v r2 :: post →
      ∃ pre' r, evs ++ mid = pre' ++ [rd a r] ∧ (v = r ||| m ∨ v = r &&& ~~~m) := by
    intro mid hmid
    obtain ⟨pre', r, rfl, hv⟩ := h' mid post b1 v r2 hmid
    exact ⟨evs ++ pre', r, (List.append_assoc ..).symm, hv⟩
  obtain ⟨mid, rfl, hmid⟩ | ⟨mid, rfl, hmid⟩ := List.append_eq_append_iff.1 heq
  · exact second mid hmid
  · obtain ⟨rfl, hmid⟩ | ⟨mid', rfl, -⟩ := List.cons_eq_append_iff.1 hmid
    · simpa using second [] hmid.symm
    · exact h pre mid' b1 v r2 rfl

/-! Bit-framing: the programs. -/

/-- On every way through the program the events write register `a` only with the bits of `m` of a value just read set or cleared. -/
def Prog.TouchesOnlyBits {α : Type} (a m : Byte) (p : Prog α) : Prop :=
  ∀ ans evs q, p.Along ans evs q → Machine.TouchesOnlyBits a m evs

section TouchesOnlyBits
variable {α β : Type} {a m : Byte}

/-- A program that writes only other registers touches no bit of the register. -/
theorem Prog.WritesOnly.touchesOnlyBits {P : Byte → Byte → Prop} {p : Prog α} (h : p.WritesOnly P)
    (hP : ∀ b v, P b v → chipAddr b ≠ chipAddr a) : p.TouchesOnlyBits a m := by
  refine fun ans evs q hal => touchesOnlyBits_of_no_write fun b1 v r2 he => ?_
  obtain ⟨b, hb, hw⟩ := h.of_along hal he
  exact hP b v hw hb.symm

theorem Prog.touchesOnlyBits_of_no_write {p : Prog α} (h : p.WritesOnly fun _ _ => False) : p.TouchesOnlyBits a m :=
  h.touchesOnlyBits fun _ _ => False.elim

theorem Prog.touchesOnlyBits_ret (x : α) : (Prog.ret x).TouchesOnlyBits a m :=
  touchesOnlyBits_of_no_write trivial

theorem Prog.touchesOnlyBits_refuse (why : RefuseReason) : (Prog.refuse why : Prog α).TouchesOnlyBits a m :=
  touchesOnlyBits_of_no_write trivial

theorem Prog.TouchesOnlyBits.bind {p : Prog α} {f : α → Prog β} (h : p.TouchesOnlyBits a m) (hf : ∀ x, (f x).TouchesOnlyBits a m) :
    (p.bind f).TouchesOnlyBits a m := by
  intro ans evs q hal
  obtain ⟨p', hp, -⟩ | ⟨ans₁, ans₂, evs₁, evs₂, x, rfl, rfl, hp, hx⟩ := Prog.along_bind hal
  · exact h _ _ _ hp
  · exact (h _ _ _ (Prog.along_ret_iff.2 hp)).append (hf x _ _ _ hx)

theorem Prog.TouchesOnlyBits.andThen {p : Prog α} {q : Prog β} (h : p.TouchesOnlyBits a m) (hq : q.TouchesOnlyBits a m) :
    (p.andThen q).TouchesOnlyBits a m :=
  h.bind fun _ => hq

theorem Prog.TouchesOnlyBits.map {p : Prog α} (h : p.TouchesOnlyBits a m) (f : α → β) : (p.map f).TouchesOnlyBits a m :=
  h.bind fun _ => touchesOnlyBits_ret _

/-- A read followed by the write of the value read with the bits set or cleared (40_transport.md R79, R80). -/
theorem readModifyWrite_touchesOnlyBits {f : Byte → Byte} (hf : ∀ r, f r = r ||| m ∨ f r = r &&& ~~~m) :
    ((readReg a).bind fun r => writeReg a (f r)).TouchesOnlyBits a m := by
  intro ans evs q hal
  cases hal with
  | here => exact touchesOnlyBits_of_no_write (by simp)
  | read _ r _ _ _ _ hal =>
    cases hal with
    | here => exact touchesOnlyBits_of_no_write (by simp [rd])
    | write _ _ _ _ _ _ hal =>
      cases hal
      exact touchesOnlyBits_readModifyWrite (hf r)

theorem setBits_touchesOnlyBits : (setBits a m).TouchesOnlyBits a m := readModifyWrite_touchesOnlyBits fun _ => .inl rfl

theorem clearBits_touchesOnlyBits : (clearBits a m).TouchesOnlyBits a m := readModifyWrite_touchesOnlyBits fun _ => .inr rfl

end TouchesOnlyBits

/-! Bit-framing: the operations. -/

/-- The address reaches another register of the chip than bit-framing. -/
def AvoidsFraming (c : Config) (a : Byte) : Prop :=
  chipAddr a ≠ chipAddr c.regBitFraming

/-- The program changes bit-framing only by "start send" (70_reset_and_hazards.md R131). -/
abbrev Prog.KeepsFraming {α : Type} (c : Config) (p : Prog α) : Prop :=
  p.TouchesOnlyBits c.regBitFraming c.startSend

/-- Bit-framing has a register of its own among those CalcCRC and ToCard write (30_encoding.md R70). -/
structure FramingApart (c : Config) : Prop where
  irqEnable : AvoidsFraming c c.regIrqEnable
  irqStatus : AvoidsFraming c c.regIrqStatus
  crcIrq : AvoidsFraming c c.regCrcIrq
  fifoLevel : AvoidsFraming c c.regFifoLevel
  fifoData : AvoidsFraming c c.regFifoData
  command : AvoidsFraming c c.regCommand

/-- Addresses of a well-formed configuration that differ do so in the six bits that reach the chip (00_scope.md R10). -/
theorem avoidsFraming_of_ne {c : Config} (hwf : c.wf = true) {r : Role} (hne : c.addr r ≠ c.regBitFraming) :
    AvoidsFraming c (c.addr r) := by
  intro hchip
  have hr : (c.addr r).toNat ≤ 63 := ((Config.wf_iff c).1 hwf).1 r
  have hframing : c.regBitFraming.toNat ≤ 63 := ((Config.wf_iff c).1 hwf).1 .bitFraming
  have hmod := chipAddr_eq_iff.1 hchip
  exact hne (BitVec.eq_of_toNat_eq (by omega))

section KeepsFraming
variable {c : Config} (hapart : FramingApart c)
include hapart

theorem FramingApart.avoidsFraming_of_crcWrites {bytes : List Byte} {a v : Byte} (h : CrcWrites c bytes a v) : AvoidsFraming c a := by
  obtain ⟨rfl, -⟩ | ⟨rfl, -⟩ | ⟨rfl, -⟩ | ⟨rfl, -⟩ := h
  · exact hapart.crcIrq
  · exact hapart.fifoLevel
  · exact hapart.fifoData
  · exact hapart.command

theorem calcCrc_keepsFraming (bytes : List Byte) : (calcCrc c bytes).KeepsFraming c :=
  (calcCrc_writesOnly c bytes).touchesOnlyBits fun _ _ => hapart.avoidsFraming_of_crcWrites

theorem armAndLoad_keepsFraming (kind : ExecKind) (send : List Byte) : (armAndLoad c kind send).KeepsFraming c := by
  have hwrites : (armAndLoad c kind send).WritesOnly fun a _ => AvoidsFraming c a :=
    (writeReg_writesOnly hapart.irqEnable).andThen <| (clearBits_writesOnly fun _ _ => hapart.irqStatus).andThen <|
    (setBits_writesOnly fun _ _ => hapart.fifoLevel).andThen <| (writeReg_writesOnly hapart.command).andThen <|
    pushAll_writesOnly fun _ _ => hapart.fifoData
  exact hwrites.touchesOnlyBits fun _ _ => id

theorem startCommand_keepsFraming (kind : ExecKind) : (startCommand c kind).KeepsFraming c := by
  have hcommand : (writeReg c.regCommand (c.execCode kind)).WritesOnly fun a _ => AvoidsFraming c a := writeReg_writesOnly hapart.command
  refine (hcommand.touchesOnlyBits fun _ _ => id).andThen ?_
  cases kind with
  | transceive => exact setBits_touchesOnlyBits
  | authenticate => exact Prog.touchesOnlyBits_ret _

/-- The poll and the outcome of ToCard only read; "start send" is set and cleared by read-modify-writes (42_command_executor.md R92). -/
theorem runCommand_keepsFraming (kind : ExecKind) (send : List Byte) : (runCommand c kind send).KeepsFraming c :=
  (armAndLoad_keepsFraming hapart kind send).andThen <| (startCommand_keepsFraming hapart kind).andThen <|
    (Prog.touchesOnlyBits_of_no_write (pollReg_writesOnly _ _ _ _)).bind fun _ =>
    clearBits_touchesOnlyBits.andThen (Prog.touchesOnlyBits_of_no_write (decodeOutcome_writesOnly _ _ _ _))

theorem sendWithCrc_keepsFraming (buf : List Byte) : (sendWithCrc c buf).KeepsFraming c :=
  (calcCrc_keepsFraming hapart buf).bind fun _ => runCommand_keepsFraming hapart .transceive _

theorem authOp_keepsFraming (variant : KeyVariant) (blk : Byte) (key uid : List Byte) :
    (authOp c variant blk key uid).KeepsFraming c := by
  unfold authOp
  split
  · exact (runCommand_keepsFraming hapart .authenticate _).map _
  · exact Prog.touchesOnlyBits_refuse _

theorem readBlockOp_keepsFraming (a : Byte) : (readBlockOp c a).KeepsFraming c :=
  (sendWithCrc_keepsFraming hapart _).map _

theorem writeBlockOp_keepsFraming (a : Byte) (data : List Byte) : (writeBlockOp c a data).KeepsFraming c := by
  unfold writeBlockOp
  split
  · refine (sendWithCrc_keepsFraming hapart _).bind fun r1 => ?_
    split
    · refine (sendWithCrc_keepsFraming hapart _).bind fun r2 => ?_
      split <;> exact Prog.touchesOnlyBits_ret _
    · exact Prog.touchesOnlyBits_ret _
  · exact Prog.touchesOnlyBits_refuse _

theorem withSector_keepsFraming {α : Type} {uid : List Byte} {sector block : Nat} {keyA keyB : Option (List Byte)}
    {failed : SessionError → α} {access : Byte → Prog α} (haccess : ∀ a, (access a).KeepsFraming c) :
    (withSector c uid sector block keyA keyB failed access).KeepsFraming c := by
  unfold withSector
  split
  · exact Prog.touchesOnlyBits_ret _
  split
  · exact Prog.touchesOnlyBits_ret _
  refine (authOp_keepsFraming hapart _ _ _ _).bind fun r => ?_
  cases r with
  | authFailed => exact Prog.touchesOnlyBits_ret _
  | authOk => exact haccess _

theorem writeSectorOp_keepsFraming (uid : List Byte) (sector block : Nat) (data : List Byte) (keyA keyB : Option (List Byte)) :
    (writeSectorOp c uid sector block data keyA keyB).KeepsFraming c := by
  unfold writeSectorOp
  split
  · exact withSector_keepsFraming hapart fun a => (writeBlockOp_keepsFraming hapart a data).map _
  · exact Prog.touchesOnlyBits_refuse _

/-- The operations that neither write where told nor write a framing value keep bit-framing but for "start send". -/
theorem progOf_keepsFraming {i : Instr} (hstatus2 : i = .stopcrypto → AvoidsFraming c c.regStatus2) (htold : writesWhereTold i = false)
    (hframing : framingWritten c i = none) : (progOf c i).KeepsFraming c := by
  cases i with
  | wreg r v => cases htold
  | rreg r => exact Prog.touchesOnlyBits_of_no_write (progOf_writesOnly c (.rreg r))
  | setb r m => cases htold
  | clrb r m => cases htold
  | calccrc bytes => exact (calcCrc_keepsFraming hapart bytes).map _
  | tocardTrx send => exact (runCommand_keepsFraming hapart .transceive send).map _
  | tocardAuth send => exact (runCommand_keepsFraming hapart .authenticate send).map _
  | bcc u => exact Prog.touchesOnlyBits_of_no_write (progOf_writesOnly c (.bcc u))
  | request => cases hframing
  | anticoll => cases hframing
  | select uid => exact ((sendWithCrc_keepsFraming hapart _).map selectDecode).map _
  | auth variant blk key uid => exact (authOp_keepsFraming hapart variant blk key uid).map _
  | stopcrypto =>
    refine (progOf_writesOnly c .stopcrypto).touchesOnlyBits fun a v h => ?_
    obtain ⟨rfl, -⟩ := h
    exact hstatus2 rfl
  | sectoraddr sector block => exact Prog.touchesOnlyBits_of_no_write (progOf_writesOnly c (.sectoraddr sector block))
  | readblk a => exact (readBlockOp_keepsFraming hapart a).map _
  | writeblk a data => exact (writeBlockOp_keepsFraming hapart a data).map _
  | rearm => cases htold
  | waitcard t => cases htold
  | readuid => cases hframing
  | readsect uid sector block keyA keyB =>
    exact (withSector_keepsFraming hapart fun a => (readBlockOp_keepsFraming hapart a).map _).map _
  | writesect uid sector block data keyA keyB => exact (writeSectorOp_keepsFraming hapart uid sector block data keyA keyB).map _

/-- An operation with a framing value writes it first, and goes on with a ToCard (43_anticollision_select.md R99, R100). -/
theorem progOf_of_framingWritten {i : Instr} {v : Byte} (h : framingWritten c i = some v) :
    ∃ k, progOf c i = .write c.regBitFraming v k ∧ k.KeepsFraming c := by
  have hcard (send : List Byte) := runCommand_keepsFraming hapart .transceive send
  unfold framingWritten at h
  split at h
  next hi =>
    cases h
    exact hi ▸ ⟨_, rfl, ((hcard _).map requestDecode).map OpResult.request⟩
  split at h
  next hi =>
    cases h
    obtain rfl | rfl := hi
    · exact ⟨_, rfl, ((hcard _).map anticollDecode).map OpResult.anticoll⟩
    · exact ⟨_, rfl, ((hcard _).map anticollDecode).map fun r => OpResult.readUid (uidDecode r)⟩
  cases h

end KeepsFraming

/-! Bit-framing: what an operation leaves. -/

/-- The fault event of a position whose pending transaction fails (60_exceptions.md R119). -/
def Prog.faultEvent {α : Type} (q : Prog α) : List Event :=
  (q.pending.map .fault).toList

/-- What a ready operation appends to the trace: the events of a way through its program, and the fault event of the transaction pending at
its end. -/
theorem exec_ready_trace {i : Instr} {s t : State} (hs : s.Ready) (h : exec i s = .next t) :
    ∃ ans pre q, (progOf s.config i).Along ans pre q ∧ t.trace = s.trace ++ (pre ++ q.faultEvent) := by
  obtain ⟨-, ⟨hwf, -⟩ | ⟨-, ans, pre, q, hal, -, -, hend⟩⟩ := exec_next_cases h
  · exact Bool.noConfusion (hs.2.symm.trans hwf)
  refine ⟨ans, pre, q, hal, ?_⟩
  obtain ⟨r, rfl, rfl⟩ | ⟨why, rfl, rfl⟩ | ⟨f, hpending, -, -, rfl⟩ := hend
  · simp [Prog.faultEvent, Prog.pending]
  · simp [Prog.faultEvent, Prog.pending]
  · simp [Prog.faultEvent, hpending]

/-- The fault event is no write. -/
theorem TouchesOnlyBits.append_faultEvent {α : Type} {a m : Byte} {evs : List Event} (h : TouchesOnlyBits a m evs) (q : Prog α) :
    TouchesOnlyBits a m (evs ++ q.faultEvent) :=
  h.append (touchesOnlyBits_of_no_write (by simp [Prog.faultEvent]))

/-- A way from a write, with the fault event at its end, begins with that write or with its failure. -/
theorem Prog.Along.of_write {α : Type} {a v : Byte} {k q : Prog α} {ans : List Byte} {pre : List Event}
    (h : (Prog.write a v k).Along ans pre q) :
    (pre ++ q.faultEvent = [.fault (.channelFault (chipAddr a) .write)]) ∨
      ∃ later, pre ++ q.faultEvent = wr a v :: (later ++ q.faultEvent) ∧ k.Along ans later q := by
  cases h with
  | here => exact .inl rfl
  | write _ _ _ _ later _ h => exact .inr ⟨later, rfl, h⟩

/-- Settles O50: an operation without a framing value keeps bit-framing on every way through its program, one with such a value writes it
first and keeps it from there; and a raw operation writes only the register it names. -/
theorem framingPersists : Obligations.FramingPersists := by
  intro i s t hs hroles hstatus2 h
  have havoids (r : Role) (hr : s.config.addr r ≠ s.config.regBitFraming) := avoidsFraming_of_ne hs.2 hr
  have hapart : FramingApart s.config :=
    ⟨havoids _ (hroles .irqEnable (by decide)), havoids _ (hroles .irqStatus (by decide)), havoids _ (hroles .crcIrq (by decide)),
      havoids _ (hroles .fifoLevel (by decide)), havoids _ (hroles .fifoData (by decide)), havoids _ (hroles .command (by decide))⟩
  obtain ⟨ans, pre, q, hal, htrace⟩ := exec_ready_trace hs h
  refine ⟨pre ++ q.faultEvent, htrace, fun htold hframing => ?_, fun v hframing => ?_, fun r v hraw hother => ?_⟩
  · exact (progOf_keepsFraming hapart (fun hi => havoids .status2 (hstatus2 hi)) htold hframing _ _ _ hal).append_faultEvent q
  · obtain ⟨k, hprog, hkeeps⟩ := progOf_of_framingWritten hapart hframing
    rw [hprog] at hal
    obtain hevs | ⟨later, hevs, hal⟩ := hal.of_write
    · exact ⟨_, [], hevs, .inr rfl, touchesOnlyBits_of_no_write (by simp)⟩
    · exact ⟨_, _, hevs, .inl rfl, (hkeeps _ _ _ hal).append_faultEvent q⟩
  · obtain ⟨evs, htrace', hwrites, -⟩ := operationsWriteOnlyTheirRegisters i s t h
    obtain rfl : pre ++ q.faultEvent = evs := List.append_cancel_left (htrace.symm.trans htrace')
    refine lastWrite_eq_none fun b1 w r2 he => ?_
    obtain ⟨a, ha, hw⟩ := hwrites _ b1 w r2 he
    have hregister : a = r.addr s.config := by
      obtain rfl | rfl | rfl := hraw <;> exact hw.1
    exact hother (hregister ▸ ha.symm)

end Sys2Proof.Machine
